-- ==== Sys2Proof/Word.lean ====
section
/-! DEFINITION. The word types of the block: every bus word, register and operand is 32 bits (R5, R9, R81), every
memory cell one byte (R51, R53). Each width stands here alone: Config derives its numbers from these types. -/

namespace Sys2Proof

/-- A bus word, an operand word or a block-state field of 32 bits (u32, R11). -/
abbrev Word := BitVec 32

/-- One byte of shared or host memory, or a volume level (u8, R25, R51, R53). -/
abbrev Byte := BitVec 8

/-- The width of a bit vector's type. -/
def widthOf {n : Nat} (_ : BitVec n) : Nat := n

end Sys2Proof
end

