-- ==== Sys2Proof/Config.lean ====
section
/-! DEFINITION. The values R9 fixes as named constants (R10), the named parameters of R8 with the constraints
each must meet, the spec's own result codes (R92, 92 D32), and the free values: constants without a body, so that
no proof can know what they are. -/

namespace Sys2Proof

namespace Config

/-! ### The values the source fixes (R9), each named once (R10) -/

/-- The narrow sample precision, in bits (R9, R22). -/
def precisionNarrow : Nat := 8

/-- The wide sample precision, in bits (R9, R22); also the precision QUERY_FORMAT advertises (R180). -/
def precisionWide : Nat := 16

/-- The channel count of a mono stream (R9, R23). -/
def channelsMono : Nat := 1

/-- The channel count of a stereo stream (R9, R23); also the count QUERY_FORMAT advertises (R180). -/
def channelsStereo : Nat := 2

/-- The greatest sample rate (R9, R180). -/
def rateMax : Nat := 65536

/-- The buffer-size cap is this many bytes for each channel (R9, R182). -/
def bufferCap : Nat := 65536

/-- The block size is DMABUF_SIZE divided by this (R9, R181). -/
def dmabufDivisor : Nat := 4

/-- Every volume level's default, and the greatest level (R9, R25). -/
def volumeDefault : Byte := 255

/-- The least volume level as a number (R9, R183). -/
def volumeMin : Nat := 0

/-- The greatest volume level as a number (R9, R82, R183). -/
def volumeMax : Nat := 255

/-- Bits in a bus word (R9): the width of `Word`. -/
def wordBits : Nat := widthOf (0 : Word)

/-- Bits in a byte of memory (R11, R51): the width of `Byte`. -/
def byteBits : Nat := widthOf (0 : Byte)

/-- Bytes in a bus word (R9). -/
def wordBytes : Nat := wordBits / byteBits

/-- The destination alignment, in bytes, which every shared-memory access and writer checks (R9, R55, R58). -/
def destAlign : Nat := 4

/-- A full chunk of WRITE_DEINT16, in samples (R9, R91). -/
def chunk16 : Nat := 16

/-- A full chunk of WRITE_DEINT8, in samples (R9, R91). -/
def chunk8 : Nat := 32

/-- Bytes of a 16-bit sample (R53, R115). -/
def sample16 : Nat := precisionWide / byteBits

/-- Bytes of an 8-bit sample (R53, R120). -/
def sample8 : Nat := precisionNarrow / byteBits

/-- Bytes from one 16-bit sample of a channel to the next in a stereo stream (R115). -/
def frame16 : Nat := channelsStereo * sample16

/-- Bytes from one 8-bit sample of a channel to the next in a stereo stream (R120). -/
def frame8 : Nat := channelsStereo * sample8

/-- WB_BURST_WORDS unless the platform gives another value (R8, 92 D8). -/
def wbBurstDefault : Nat := 8

end Config

/-- The OPEN parameters of R8. The source gives no value for any of them, so a claim holds for every value that
meets `Params.Valid` (R7). The one default the spec states is that of WB_BURST_WORDS (92 D8). -/
structure Params where
  /-- SHMEM_SIZE -/
  shmemSize : Nat
  /-- REGS_SIZE -/
  regsSize : Nat
  /-- OFF_CMD -/
  offCmd : Nat
  /-- OFF_SERIAL -/
  offSerial : Nat
  /-- OFF_LPARAM -/
  offLparam : Nat
  /-- OFF_RPARAM -/
  offRparam : Nat
  /-- OFF_BLOCKSIZE -/
  offBlocksize : Nat
  /-- OFF_CHANNEL -/
  offChannel : Nat
  /-- OFF_RATE -/
  offRate : Nat
  /-- OFF_PRECISION -/
  offPrecision : Nat
  /-- LEFT_BASE -/
  leftBase : Nat
  /-- RIGHT_BASE -/
  rightBase : Nat
  /-- REGION_SIZE -/
  regionSize : Nat
  /-- REG_ENABLE -/
  offEnable : Nat
  /-- ENABLE_VALUE -/
  enableValue : Word
  /-- DISABLE_VALUE -/
  disableValue : Word
  /-- REG_INTR_CLEAR -/
  offIntrClear : Nat
  /-- ACK_VALUE -/
  ackValue : Word
  /-- FIFO_STATUS_ADDR: a single location that no address arithmetic reaches (R50) -/
  fifoStatusAddr : Nat
  /-- READY_MASK -/
  readyMask : Word
  /-- WAIT_LIMIT -/
  waitLimit : Nat
  /-- WB_BURST_WORDS, by default 8 (92 D8) -/
  wbBurstWords : Nat := Config.wbBurstDefault
  /-- FIFO_DEPTH_WORDS -/
  fifoDepthWords : Nat
  /-- CMD_PLAY -/
  cmdPlay : Word
  /-- CMD_STOP -/
  cmdStop : Word
  /-- CMD_MVOL -/
  cmdMvol : Word
  /-- CMD_VOL -/
  cmdVol : Word
  /-- DMABUF_SIZE -/
  dmabufSize : Nat
  /-- RATE_MIN -/
  rateMin : Nat
  /-- FW_IMAGE; FW_LEN is its length -/
  fwImage : List Byte
  /-- DEVICE_NAME -/
  deviceName : String
  /-- MIXER_NAMES[0], the master volume -/
  nameMaster : String
  /-- MIXER_NAMES[1], the output gain -/
  nameGain : String
  /-- MIXER_NAMES[2], the output class -/
  nameClass : String
  /-- INIT_VOLUME_COMMANDS -/
  initVolumeCommands : Bool
  deriving DecidableEq, Repr, Inhabited

namespace Params

/-- FW_LEN (R8). -/
def fwLen (p : Params) : Nat := p.fwImage.length

/-- The offsets of the eight command slots (R33), in the order of its table. -/
def slots (p : Params) : List Nat :=
  [p.offCmd, p.offSerial, p.offLparam, p.offRparam, p.offBlocksize, p.offChannel, p.offRate, p.offPrecision]

/-- How many bits of a word are set. -/
def bitsSet (w : Word) : Nat := ((List.range Config.wordBits).filter fun i => w.getLsbD i).length

/-- The constraints of R8 (and R62 (b): the channel regions lie inside shared memory). -/
structure Valid (p : Params) : Prop where
  shmem_pos : 0 < p.shmemSize
  shmem_mod : p.shmemSize % Config.wordBytes = 0
  regs_pos : 0 < p.regsSize
  regs_mod : p.regsSize % Config.wordBytes = 0
  slots_aligned : ∀ o ∈ p.slots, o % Config.destAlign = 0
  slots_inside : ∀ o ∈ p.slots, o + Config.wordBytes ≤ p.shmemSize
  slots_disjoint : p.slots.Pairwise fun a b => a + Config.wordBytes ≤ b ∨ b + Config.wordBytes ≤ a
  left_aligned : p.leftBase % Config.destAlign = 0
  right_aligned : p.rightBase % Config.destAlign = 0
  region_mod : p.regionSize % Config.wordBytes = 0
  left_inside : p.leftBase + p.regionSize ≤ p.shmemSize
  right_inside : p.rightBase + p.regionSize ≤ p.shmemSize
  enable_aligned : p.offEnable % Config.wordBytes = 0
  enable_inside : p.offEnable < p.regsSize
  enable_distinct : p.enableValue ≠ p.disableValue
  clear_aligned : p.offIntrClear % Config.wordBytes = 0
  clear_inside : p.offIntrClear < p.regsSize
  ready_two_bits : bitsSet p.readyMask = 2
  wait_pos : 1 ≤ p.waitLimit
  burst_pos : 1 ≤ p.wbBurstWords
  depth_eight : 8 ≤ p.fifoDepthWords
  depth_burst : p.wbBurstWords ≤ p.fifoDepthWords
  commands_distinct : [p.cmdPlay, p.cmdStop, p.cmdMvol, p.cmdVol].Pairwise (· ≠ ·)
  dmabuf_mod : p.dmabufSize % Config.dmabufDivisor = 0
  rate_pos : 1 ≤ p.rateMin
  rate_max : p.rateMin ≤ Config.rateMax
  fw_fits : p.fwLen ≤ p.shmemSize

end Params

/-- Which of the two paths has its turn at an operation boundary (R171, R211 (a)). -/
inductive Agent where
  | control
  | interrupt
  deriving DecidableEq, Repr, Inhabited

namespace Config

/-- The platform's parameters (R8, OPEN). A free value: State.reset holds it, and no claim knows it (log 1). -/
opaque params : Params

/-- The value of a FIFO-status poll that the environment has not fixed beforehand (R36, R100; log 3). -/
opaque freePoll : Nat → Word

/-- An ANY_byte draw the environment has not fixed beforehand (R12; log 3). -/
opaque freeByte : Nat → Byte

/-- An ANY_u32 draw the environment has not fixed beforehand (R12; log 3). -/
opaque freeWord : Nat → Word

/-- An ANY_bool draw the environment has not fixed beforehand (R12, R232; log 3). -/
opaque freeBool : Nat → Bool

/-- Whose turn it is at a boundary for which the environment has fixed nothing (R171, R211 (a); log 7). -/
opaque freeTurn : Nat → Agent

/-- irq_pending at reset, "a draw" (R37, R44; log 5). -/
opaque irqPendingAtReset : Bool

/-- What a register of the register block holds at reset, "unspecified" (R44; log 6). -/
opaque regAtReset : Nat → Word

/-- The number of host addresses: addresses are u32 (R50, R57). -/
def hostSize : Nat := 2 ^ 32

/-- ENC_SLINEAR_LE (R180, 92 D32). -/
def encSlinearLe : Nat := 0

/-- KIND_VALUE (R183, 92 D32). -/
def kindValue : Nat := 0

/-- KIND_CLASS (R183, 92 D32). -/
def kindClass : Nat := 1

/-- The mixer index of the output class, which both controls belong to (R82, R183). -/
def mixerClass : Nat := 2

/-- LOCK_CONTROL (R185, 92 D32). -/
def lockControl : Nat := 0

/-- LOCK_INTR (R185, 92 D32). -/
def lockIntr : Nat := 1

end Config

end Sys2Proof
end

