-- ==== Sys2Proof/Syntax.lean ====
section
/-! DEFINITION. The operations of the block as syntax: one constructor for each row of the opcode map (R83), and the
operation record by which a host names one (R81). -/

namespace Sys2Proof

/-- An operation with its operand words, in the order R83 lists them. Every operand is the u32 value of its word
(R82). -/
inductive Instr where
  | init
  | setFormat (precision channels rate : Word)
  | start (bufStart bufEnd blksize sink arg : Word)
  | stop
  | refill
  | interrupt
  | mixerSet (index nvals v0 v1 : Word)
  | mixerGet (index : Word)
  | waitReady
  | writeBlock (offset src len : Word)
  | writeDeint16 (offset src len : Word)
  | writeDeint8 (offset src len : Word)
  | sendCommand (cmd : Word)
  | sendParam (cmd left right : Word)
  | queryFormat
  | roundBlocksize (req : Word)
  | roundBuffersize (req : Word)
  | mixerDevinfo (index : Word)
  | getDevice
  | getLocks
  deriving DecidableEq, Repr

/-- An operation record as presented at the control port: a header word and the operand words that came with it
(R81). A record may hold too few operand words; the decoder refuses it then (R84 (c)). -/
structure Record where
  header : Word
  operands : List Word
  deriving DecidableEq, Repr

/-- The words of a record, the header first. -/
def Record.words (r : Record) : List Word := r.header :: r.operands

/-- The tag of an operation (R83). -/
def Instr.tag : Instr → Nat
  | .init => 0x01
  | .setFormat _ _ _ => 0x02
  | .start _ _ _ _ _ => 0x03
  | .stop => 0x04
  | .refill => 0x05
  | .interrupt => 0x06
  | .mixerSet _ _ _ _ => 0x07
  | .mixerGet _ => 0x08
  | .waitReady => 0x09
  | .writeBlock _ _ _ => 0x0A
  | .writeDeint16 _ _ _ => 0x0B
  | .writeDeint8 _ _ _ => 0x0C
  | .sendCommand _ => 0x0D
  | .sendParam _ _ _ => 0x0E
  | .queryFormat => 0x0F
  | .roundBlocksize _ => 0x10
  | .roundBuffersize _ => 0x11
  | .mixerDevinfo _ => 0x12
  | .getDevice => 0x13
  | .getLocks => 0x14

/-- The operand words of an operation, in the order of R83. -/
def Instr.operands : Instr → List Word
  | .init => []
  | .setFormat p c r => [p, c, r]
  | .start bs be b sink arg => [bs, be, b, sink, arg]
  | .stop => []
  | .refill => []
  | .interrupt => []
  | .mixerSet i n v0 v1 => [i, n, v0, v1]
  | .mixerGet i => [i]
  | .waitReady => []
  | .writeBlock o s l => [o, s, l]
  | .writeDeint16 o s l => [o, s, l]
  | .writeDeint8 o s l => [o, s, l]
  | .sendCommand c => [c]
  | .sendParam c l r => [c, l, r]
  | .queryFormat => []
  | .roundBlocksize q => [q]
  | .roundBuffersize q => [q]
  | .mixerDevinfo i => [i]
  | .getDevice => []
  | .getLocks => []

end Sys2Proof
end

