-- ==== Sys2Proof/WellFormed.lean ====
section
/-! DEFINITION. Which operations fit their encoding: the only narrow operands are v0 and v1 of MIXER_SET, u8 values in
u32 words (R82, R84 (d)). Whether a mixer index or a format is a legal one is no matter of form: such a record runs and
answers INVALID or a fault of its own. -/

namespace Sys2Proof

/-- A volume operand lies in the range of the levels, which is that of u8 (R9, R82). -/
def fitsVolume (v : Word) : Bool := Config.volumeMin ≤ v.toNat && v.toNat ≤ Config.volumeMax

/-- Every operand fits its field width (R82). -/
def Instr.wellFormed : Instr → Bool
  | .mixerSet _ _ v0 v1 => fitsVolume v0 && fitsVolume v1
  | .init => true
  | .setFormat _ _ _ => true
  | .start _ _ _ _ _ => true
  | .stop => true
  | .refill => true
  | .interrupt => true
  | .mixerGet _ => true
  | .waitReady => true
  | .writeBlock _ _ _ => true
  | .writeDeint16 _ _ _ => true
  | .writeDeint8 _ _ _ => true
  | .sendCommand _ => true
  | .sendParam _ _ _ => true
  | .queryFormat => true
  | .roundBlocksize _ => true
  | .roundBuffersize _ => true
  | .mixerDevinfo _ => true
  | .getDevice => true
  | .getLocks => true

/-- The operation is well formed. -/
abbrev Instr.WellFormed (i : Instr) : Prop := i.wellFormed = true

end Sys2Proof
end

