-- ==== Sys2Proof/Decode.lean ====
section
/-! DEFINITION. The decoder of operation records, total on any list of words, and the encoder (R81 to R85). -/

namespace Sys2Proof

/-- Why a record is refused (R84). INTERRUPT from the control path, R84 (e), is refused at admission, since only
there is it known who issues the record. -/
inductive Reject where
  /-- there is no header word -/
  | noHeader
  /-- R84 (a): a tag to which no operation is assigned -/
  | unassignedTag
  /-- R84 (b): one of the header's bits 31:8 is set -/
  | reservedBits
  /-- R84 (c): fewer operand words than the tag needs -/
  | shortRecord
  /-- R84 (d): an operand does not fit its field width -/
  | operandTooWide
  deriving DecidableEq, Repr

/-- What a decoder answers: an operation and the words after it, or why the record is refused. -/
abbrev Decoded := Except Reject (Instr × List Word)

/-- An operation of no operand word. -/
def take0 (i : Instr) (ws : List Word) : Decoded := .ok (i, ws)

/-- An operation of one operand word. -/
def take1 (f : Word → Instr) : List Word → Decoded
  | a :: ws => .ok (f a, ws)
  | _ => .error .shortRecord

/-- An operation of three operand words. -/
def take3 (f : Word → Word → Word → Instr) : List Word → Decoded
  | a :: b :: c :: ws => .ok (f a b c, ws)
  | _ => .error .shortRecord

/-- An operation of four operand words. -/
def take4 (f : Word → Word → Word → Word → Instr) : List Word → Decoded
  | a :: b :: c :: d :: ws => .ok (f a b c d, ws)
  | _ => .error .shortRecord

/-- An operation of five operand words. -/
def take5 (f : Word → Word → Word → Word → Word → Instr) : List Word → Decoded
  | a :: b :: c :: d :: e :: ws => .ok (f a b c d e, ws)
  | _ => .error .shortRecord

/-- The opcode map (R83): the operation of a tag, with exactly its count of operand words taken (R85). -/
def decodeTag (tag : Nat) (ws : List Word) : Decoded :=
  match tag with
  | 0x01 => take0 .init ws
  | 0x02 => take3 .setFormat ws
  | 0x03 => take5 .start ws
  | 0x04 => take0 .stop ws
  | 0x05 => take0 .refill ws
  | 0x06 => take0 .interrupt ws
  | 0x07 => take4 .mixerSet ws
  | 0x08 => take1 .mixerGet ws
  | 0x09 => take0 .waitReady ws
  | 0x0A => take3 .writeBlock ws
  | 0x0B => take3 .writeDeint16 ws
  | 0x0C => take3 .writeDeint8 ws
  | 0x0D => take1 .sendCommand ws
  | 0x0E => take3 .sendParam ws
  | 0x0F => take0 .queryFormat ws
  | 0x10 => take1 .roundBlocksize ws
  | 0x11 => take1 .roundBuffersize ws
  | 0x12 => take1 .mixerDevinfo ws
  | 0x13 => take0 .getDevice ws
  | 0x14 => take0 .getLocks ws
  | _ => .error .unassignedTag

/-- The tag field of a header word, bits 7:0 (R81). -/
def headerTag (h : Word) : Nat := (h.extractLsb' 0 8).toNat

/-- The reserved field of a header word, bits 31:8 (R81). -/
def headerReserved (h : Word) : BitVec 24 := h.extractLsb' 8 24

/-- Refuse an operand that does not fit its field width (R84 (d)). -/
def checkWidths : Decoded → Decoded
  | .ok (i, ws) => if i.wellFormed then .ok (i, ws) else .error .operandTooWide
  | .error e => .error e

/-- Decode the operation at the head of a list of words (R84, R85). -/
def decode : List Word → Decoded
  | [] => .error .noHeader
  | h :: ws =>
    if headerReserved h = 0 then checkWidths (decodeTag (headerTag h) ws) else .error .reservedBits

/-- The words of an operation: its header and its operand words (R81, R83). -/
def encode (i : Instr) : List Word := BitVec.ofNat _ i.tag :: i.operands

/-- The record of an operation. -/
def encodeRecord (i : Instr) : Record := ⟨BitVec.ofNat _ i.tag, i.operands⟩

/-- The header word and five operand words, the longest record, of an instruction whose bits the opcode table numbers:
bit 0 is the header's least significant bit, and each operand word counts on from the one before. Bits from nbits up
are 0. -/
def tableWords (nbits w : Nat) : List Word :=
  let v := w % 2 ^ nbits
  [BitVec.ofNat 32 v, BitVec.ofNat 32 (v / 2 ^ 32), BitVec.ofNat 32 (v / 2 ^ 64), BitVec.ofNat 32 (v / 2 ^ 96),
    BitVec.ofNat 32 (v / 2 ^ 128), BitVec.ofNat 32 (v / 2 ^ 160)]

/-- The instruction the decoder reads from an instruction of the opcode table. -/
def decodeTableWord (nbits w : Nat) : Option Instr :=
  match decode (tableWords nbits w) with
  | .ok (i, _) => some i
  | .error _ => none

end Sys2Proof
end

