-- ==== Sys2Proof/Machine/State.lean ====
section
/-! DEFINITION. The state of the machine as plain data: the block state x, the memory the block reaches, the environment
state (R20), and the inputs of the environment agents (R4), with its value at reset (R44, R230). -/

namespace Sys2Proof.Machine

/-- `precision` when it is set: bits per sample (R22). -/
inductive Precision where
  | bits8
  | bits16
  deriving DecidableEq, Repr

/-- The number of bits per sample. -/
def Precision.toNat : Precision → Nat
  | .bits8 => Config.precisionNarrow
  | .bits16 => Config.precisionWide

/-- `channels` when it is set (R23). -/
inductive Channels where
  | mono
  | stereo
  deriving DecidableEq, Repr

/-- The number of channels. -/
def Channels.toNat : Channels → Nat
  | .mono => Config.channelsMono
  | .stereo => Config.channelsStereo

/-- The two execution contexts (R213): CTX_CONTROL and CTX_INTR. -/
inductive Context where
  | control
  | intr
  deriving DecidableEq, Repr

/-- The address spaces whose bounds the block can pass (R50, R201). -/
inductive Space where
  | sh
  | reg
  | host
  deriving DecidableEq, Repr

/-- The block-state fields that can be UNSET, as FAULT_UNSET names them (R201). -/
inductive Field where
  | precision
  | channels
  | rate
  | outputMaster
  | outputGainLeft
  | outputGainRight
  | bufferStart
  | bufferEnd
  | bufferCursor
  | blockSize
  | nextFillOffset
  | callback
  | callbackArg
  | gateOk
  deriving DecidableEq, Repr

/-- The faults of the block with the info each records (R201). A fault is part of the block's state: an operation that
raises one takes a next state. -/
inductive BlockFault where
  /-- FAULT_ALIGN with the offset -/
  | align (off : Nat)
  /-- FAULT_UNSET with the field's name -/
  | unset (field : Field)
  /-- FAULT_BAD_BUFFER with bs, be and B -/
  | badBuffer (bs be b : Word)
  /-- FAULT_BAD_FORMAT with p, c and r -/
  | badFormat (p c r : Word)
  /-- FAULT_FORMAT_WHILE_PLAYING -/
  | formatWhilePlaying
  /-- FAULT_START_WHILE_PLAYING -/
  | startWhilePlaying
  /-- FAULT_CMD_IN_INTERRUPT with the command word -/
  | cmdInInterrupt (cmd : Word)
  /-- FAULT_RANGE with the space and the address -/
  | range (space : Space) (addr : Nat)
  /-- FAULT_BAD_LEN with the length -/
  | badLen (len : Nat)
  /-- FAULT_NOT_INIT with the tag -/
  | notInit (tag : Nat)
  /-- FAULT_REINIT -/
  | reinit
  /-- FAULT_REFUSED with the header word -/
  | refused (word : Word)
  /-- FAULT_BAD_ARG with the sink -/
  | badArg (sink : Word)
  deriving DecidableEq, Repr

/-- The code of a fault (R201). -/
def BlockFault.code : BlockFault → Nat
  | .align _ => 1
  | .unset _ => 2
  | .badBuffer _ _ _ => 3
  | .badFormat _ _ _ => 4
  | .formatWhilePlaying => 5
  | .startWhilePlaying => 6
  | .cmdInInterrupt _ => 7
  | .range _ _ => 8
  | .badLen _ => 9
  | .notInit _ => 10
  | .reinit => 11
  | .refused _ => 12
  | .badArg _ => 13

/-- How an operation ended (R46, R92). -/
inductive ResultCode where
  | ok
  | invalid
  | failed
  | handled
  deriving DecidableEq, Repr

/-- The result word: OK = 0, INVALID = 1, FAILED = 2, HANDLED = 1 (R46, R92). -/
def ResultCode.toNat : ResultCode → Nat
  | .ok => 0
  | .invalid => 1
  | .failed => 2
  | .handled => 1

/-- One item of a result's data: a number, or a name of the device or the mixer (R183, R184). -/
inductive Datum where
  | num (n : Nat)
  | text (s : String)
  deriving DecidableEq, Repr

/-- The result of an operation: its code and the data its rule names (R92). -/
structure Result where
  code : ResultCode
  data : List Datum
  deriving DecidableEq, Repr

/-- The events of the history (R39). -/
inductive Event where
  /-- E_BEGIN -/
  | opBegin (op : Instr) (ctx : Context)
  /-- E_END -/
  | opEnd (op : Instr) (result : Result)
  /-- E_POLL -/
  | poll (v : Word)
  /-- E_GATE: true for ready, false for timeout -/
  | gate (ready : Bool)
  /-- E_SHW: exact is false when the burst followed a timed-out gate; v is the word the block wrote -/
  | shWrite (off : Nat) (v : Word) (exact : Bool)
  /-- E_SHR -/
  | shRead (off : Nat) (v : Word)
  /-- E_REGW -/
  | regWrite (off : Nat) (v : Word)
  /-- E_HOSTR -/
  | hostRead (addr : Nat) (bytes : List Byte)
  /-- E_CALLBACK -/
  | callback (sink arg : Word)
  /-- E_FAULT -/
  | fault (f : BlockFault)
  deriving DecidableEq, Repr

/-- A move of the coprocessor (R45). -/
inductive EnvMove where
  /-- the coprocessor reads the shared-memory word at off -/
  | coprocRead (off : Nat)
  /-- the coprocessor writes the shared-memory byte at off -/
  | coprocWrite (off : Nat) (b : Byte)
  /-- the coprocessor signals a buffer-boundary event: irq_pending becomes true -/
  | raiseIrq
  deriving DecidableEq, Repr

/-- A byte the host audio framework writes to host memory, during an E_CALLBACK (R38, R174, 92 D27). -/
structure HostWrite where
  addr : Word
  byte : Byte
  deriving DecidableEq, Repr

/-- A byte-addressed memory: the bytes that differ from what an unlisted address reads as, by rising address. -/
abbrev Memory := List Host.Cell

/-- The Device State (R22 to R30). An Option is the spec's own UNSET. -/
structure Device where
  precision : Option Precision
  channels : Option Channels
  rate : Option Word
  outputMaster : Option Byte
  /-- output_gain[0] -/
  outputGainLeft : Option Byte
  /-- output_gain[1] -/
  outputGainRight : Option Byte
  bufferStart : Option Word
  bufferEnd : Option Word
  bufferCursor : Option Word
  blockSize : Option Word
  nextFillOffset : Option Word
  /-- a sink id, 0 for NULL -/
  callback : Option Word
  callbackArg : Option Word
  deriving DecidableEq, Repr

/-- What the agents outside the block have in store (R4): the model's own fields. An empty list of draws leaves the next
draw to a free value of Config. -/
structure Inputs where
  /-- the operation records waiting at the control port, the next first (R202, log 8) -/
  port : List Record
  /-- the coprocessor's moves: one slot of moves for each event to come, the next first (R3, R13, R211 (d), log 2) -/
  moves : List (List EnvMove)
  /-- what the host framework writes during each E_CALLBACK to come, the next first (R174, R243 (d), 92 D27, log 10) -/
  sink : List (List HostWrite)
  /-- whose turn it is at each boundary to come (R171, R211, log 7) -/
  turns : List Agent
  /-- FIFO-status values to come (R100, log 3) -/
  polls : List Word
  /-- ANY_byte draws to come (R12, log 3) -/
  bytes : List Byte
  /-- ANY_u32 draws to come (R12, log 3) -/
  words : List Word
  /-- ANY_bool draws to come (R12, log 3) -/
  bools : List Bool
  /-- how many draws were left to the free values of Config (log 3) -/
  drawn : Nat
  deriving DecidableEq, Repr

/-- The whole machine (R20). -/
structure State where
  /-- the named parameters (R7, R8, log 1); no operation writes them -/
  cfg : Params
  /-- the Device State (R22 to R30) -/
  dev : Device
  /-- INIT has succeeded (R32) -/
  initialized : Bool
  /-- INIT has failed to map a region (R32) -/
  dead : Bool
  /-- the sticky fault (R32, R200) -/
  fault : Option BlockFault
  /-- the operation in progress and its context (R40) -/
  active : Option (Context × Instr)
  /-- the position reached in the pseudocode of the operation in progress: how many events it has made since E_BEGIN, its
  fault aside (R13, R21); 0 while none is in progress -/
  position : Nat
  /-- the last enable or disable value written to REG_ENABLE, as a Bool (R41) -/
  coprocEnabled : Option Bool
  /-- the result of the most recent WAIT_READY (R42) -/
  gateOk : Option Bool
  /-- the word last written to REG_ENABLE (R35) -/
  regEnable : Word
  /-- the word last written to REG_INTR_CLEAR (R35) -/
  regIntrClear : Word
  /-- a buffer-boundary event is pending (R37) -/
  irqPending : Bool
  /-- shared memory (R50, R51) -/
  sh : Memory
  /-- host memory (R38, R50, R53) -/
  host : Memory
  /-- the event history, newest first (R39) -/
  events : List Event
  /-- where the coprocessor moved: each move with the length of the history at that moment, newest first (log 12) -/
  moved : List (Nat × EnvMove)
  /-- the result of the operation that ended last (R46, log 12) -/
  result : Option Result
  /-- the environment's inputs (R4) -/
  inp : Inputs
  deriving DecidableEq, Repr

/-- Why the machine stops. -/
inductive Fault where
  /-- The block is halted: it has recorded a fault, and no operation and no INTERRUPT can begin again (R200, R202 step 1,
  93 U26). Raised by step alone. Safe: the spec's model has no further step either. -/
  | halted (f : BlockFault)
  deriving DecidableEq, Repr

/-- Why an instruction has no meaning. -/
inductive Refusal where
  /-- An instruction not modelled yet, raised by exec's arm. Safe: nothing is claimed of it. No arm uses it now. -/
  | notModelled (mnemonic : String)
  deriving DecidableEq, Repr

/-- Device State with every field UNSET (R44). -/
def Device.unset : Device :=
  { precision := none, channels := none, rate := none, outputMaster := none, outputGainLeft := none,
    outputGainRight := none, bufferStart := none, bufferEnd := none, bufferCursor := none, blockSize := none,
    nextFillOffset := none, callback := none, callbackArg := none }

/-- No record waits and nothing of the environment is fixed beforehand. -/
def Inputs.none : Inputs :=
  { port := [], moves := [], sink := [], turns := [], polls := [], bytes := [], words := [], bools := [], drawn := 0 }

/-- The state right after reset, for given parameters (R44, R230): irq_pending and the register block are free values
(log 5, log 6), memory lists nothing (log 4). -/
def State.resetWith (p : Params) : State :=
  { cfg := p, dev := Device.unset, initialized := false, dead := false, fault := .none, active := .none, position := 0,
    coprocEnabled := .none, gateOk := .none, regEnable := Config.regAtReset p.offEnable,
    regIntrClear := Config.regAtReset p.offIntrClear, irqPending := Config.irqPendingAtReset, sh := [], host := [],
    events := [], moved := [], result := .none, inp := Inputs.none }

/-- The state right after reset (R44, R230), for the platform's parameters (log 1). -/
def State.reset : State := State.resetWith Config.params

end Sys2Proof.Machine
end

