-- ==== Sys2Proof/Machine/Flags.lean ====
section
/-! DEFINITION. The block's flags (R43): the two ready bits of a FIFO-status value, Playing and Idle, the context, and
when INTERRUPT may begin. There is no condition-code register. -/

namespace Sys2Proof.Machine

/-- A FIFO-status value is ready when either of the two ready bits is set (R36, R101). -/
def isReady (cfg : Params) (v : Word) : Bool := v &&& cfg.readyMask != 0

/-- `playing(x) = (x[callback] != 0)` for a callback field that is set (R31). -/
def isPlaying (callback : Word) : Bool := callback != 0

/-- The current context is the interrupt path (R40, R213). -/
def inInterrupt (s : State) : Bool :=
  match s.active with
  | some (.intr, _) => true
  | some (.control, _) => false
  | none => false

/-- The block takes operations other than INIT (R202 step 4). -/
def isUp (s : State) : Bool := s.initialized && !s.dead

/-- INTERRUPT may begin (R171). -/
def interruptReady (s : State) : Bool := s.irqPending && s.initialized && s.fault.isNone && s.active.isNone

end Sys2Proof.Machine
end

