-- ==== Sys2Proof/Machine/Operands.lean ====
section
/-! DEFINITION. Operand forms as pure functions: byte order of bus words (R54), volume operands (R82), format operands
(R140), mixer indices (R82), half offsets and channel pointers (R126, R146). -/

namespace Sys2Proof.Machine

/-- Byte k of a bus word, least significant first (R54). -/
def wordByte (v : Word) (k : Nat) : Byte := v.extractLsb' (Config.byteBits * k) _

/-- `le_bytes` of a word: its bytes, lowest address first (R54, R55). -/
def leBytes (v : Word) : List Byte := (List.range Config.wordBytes).map (wordByte v)

/-- `le_value` of a byte sequence: the word of its first bytes, lowest address first (R54, R110). -/
def leValue (l : List Byte) : Word :=
  (l.take Config.wordBytes).foldr (fun b v => v <<< Config.byteBits ||| b.setWidth _) 0

/-- A volume operand as the u8 it is (R82, R148). -/
def volumeOf (v : Word) : Byte := v.setWidth 8

/-- A volume level as a parameter word: zero-extended (R11, R148). -/
def volumeWord (b : Byte) : Word := b.setWidth _

/-- A number as the value of a 32-bit field or slot. -/
def word (n : Nat) : Word := BitVec.ofNat _ n

/-- The sample precision an operand names, if it is one of the two of R9 (R22, R140). -/
def precisionOf (p : Word) : Option Precision :=
  if p = word Config.precisionNarrow then some .bits8
  else if p = word Config.precisionWide then some .bits16
  else none

/-- The channel count an operand names, if it is one of the two of R9 (R23, R140). -/
def channelsOf (c : Word) : Option Channels :=
  if c = word Config.channelsMono then some .mono
  else if c = word Config.channelsStereo then some .stereo
  else none

/-- A rate operand lies in its legal range (R24, R140). -/
def rateLegal (cfg : Params) (r : Word) : Bool := cfg.rateMin ≤ r.toNat && r.toNat ≤ Config.rateMax

/-- The mixer controls and the class an index names (R82, 92 D19). -/
inductive MixerIndex where
  | master
  | gain
  | outputClass
  | unknown
  deriving DecidableEq, Repr

/-- What a mixer index operand names (R82). -/
def mixerIndexOf (index : Word) : MixerIndex :=
  if index = 0 then .master else if index = 1 then .gain else if index = 2 then .outputClass else .unknown

/-- h = block_size / channels, the size of a half and the channel-adjusted block size (R88, R146). -/
def halfSize (blockSize : Word) (c : Channels) : Nat := blockSize.toNat / c.toNat

/-- The pointer to the right channel of a 16-bit stereo stream (R126). -/
def rightPointer16 (src : Nat) : Nat := src + Config.sample16

/-- The pointer to the right channel of an 8-bit stereo stream (R126). -/
def rightPointer8 (src : Nat) : Nat := src + Config.sample8

/-- The number of words that hold n bytes. -/
def wordsFor (n : Nat) : Nat := (n + (Config.wordBytes - 1)) / Config.wordBytes

/-- START's operand check (R141, 92 D15): B > 0, B mod c = 0, be > bs and (be − bs) mod B = 0. -/
def bufferLegal (bs be b : Word) (c : Channels) : Bool :=
  0 < b.toNat && b.toNat % c.toNat == 0 && bs.toNat < be.toNat && (be.toNat - bs.toNat) % b.toNat == 0

end Sys2Proof.Machine
end

