-- ==== Sys2Proof/Machine/Ops.lean ====
section
/-! DEFINITION. The operations every meaning is written over: faults and the end of an operation (R200, R202, R207,
R208), draws (R12), the environment's moves (R13, R45), memory bytes and the four memory primitives (R55 to R57). -/

namespace Sys2Proof.Machine

variable {α β : Type}

/-! ### How a piece of an operation ends -/

/-- A piece of an operation went on to its end with a value, or raised a fault; the effects made until then stay in the
state either way (R200). -/
inductive Exit (α : Type) where
  | ok (a : α) (s : State)
  | raised (s : State)

/-- Go on with k, unless a fault was raised. -/
def Exit.bind (x : Exit α) (k : α → State → Exit β) : Exit β :=
  match x with
  | .ok a s => k a s
  | .raised s => .raised s

/-- The state in which a piece of an operation ended. -/
def Exit.state : Exit α → State
  | .ok _ s => s
  | .raised s => s

/-! ### Updates of the state -/

/-- `emit E` (R12, R39): the operation in progress has come one event further (R21). -/
def State.emit (s : State) (e : Event) : State :=
  { s with position := s.position + 1, events := e :: s.events }

/-- Write the Device State. -/
def State.setDev (s : State) (d : Device) : State := { s with dev := d }

/-- Write shared memory. -/
def State.setSh (s : State) (m : Memory) : State := { s with sh := m }

/-- Write host memory. -/
def State.setHost (s : State) (m : Memory) : State := { s with host := m }

/-- Replace the environment's inputs. -/
def State.setInp (s : State) (i : Inputs) : State := { s with inp := i }

/-- The result of a WAIT_READY (R42, R101). -/
def State.setGate (s : State) (ready : Bool) : State := { s with gateOk := some ready }

/-- Set or clear the pending bit (R37). -/
def State.setIrq (s : State) (b : Bool) : State := { s with irqPending := b }

/-- Record the fault f (R200): x[fault] and E_FAULT, and no result; active stays as it is. -/
def State.recordFault (s : State) (f : BlockFault) : State :=
  { s with fault := some f, result := none, events := .fault f :: s.events }

/-! ### The operation frame -/

/-- An operation begins in a context (R40, R202 step 5, R207). -/
def State.beginOp (s : State) (ctx : Context) (i : Instr) : State :=
  { s with active := some (ctx, i), position := 0, result := none, events := .opBegin i ctx :: s.events }

/-- An operation ends with a result: the lock is released (R46, R202, R208). Nothing is restored, because nothing was
saved. -/
def State.endOp (s : State) (i : Instr) (r : Result) : State :=
  { s with active := none, position := 0, result := some r, events := .opEnd i r :: s.events }

/-- `return OK` with no data. -/
def resultOk : Result := ⟨.ok, []⟩

/-- `return INVALID` (R43 (d), R203). -/
def resultInvalid : Result := ⟨.invalid, []⟩

/-- End a body with a result. -/
def finish (r : Result) (x : Exit Unit) : Exit Result := x.bind fun _ s => .ok r s

/-! ### Draws -/

/-- The next FIFO-status value (R100): the one the environment has fixed, else a free value. -/
def Inputs.drawPoll (i : Inputs) : Word × Inputs :=
  match i.polls with
  | v :: vs => (v, { i with polls := vs })
  | [] => (Config.freePoll i.drawn, { i with drawn := i.drawn + 1 })

/-- `ANY_byte` (R12). -/
def Inputs.drawByte (i : Inputs) : Byte × Inputs :=
  match i.bytes with
  | v :: vs => (v, { i with bytes := vs })
  | [] => (Config.freeByte i.drawn, { i with drawn := i.drawn + 1 })

/-- `ANY_u32` (R12). -/
def Inputs.drawWord (i : Inputs) : Word × Inputs :=
  match i.words with
  | v :: vs => (v, { i with words := vs })
  | [] => (Config.freeWord i.drawn, { i with drawn := i.drawn + 1 })

/-- `ANY_bool` (R12). -/
def Inputs.drawBool (i : Inputs) : Bool × Inputs :=
  match i.bools with
  | v :: vs => (v, { i with bools := vs })
  | [] => (Config.freeBool i.drawn, { i with drawn := i.drawn + 1 })

/-- Whose turn it is at this boundary (R171, R211 (a)). -/
def Inputs.drawTurn (i : Inputs) : Agent × Inputs :=
  match i.turns with
  | v :: vs => (v, { i with turns := vs })
  | [] => (Config.freeTurn i.drawn, { i with drawn := i.drawn + 1 })

/-- n ANY_byte draws. -/
def Inputs.drawBytes : Nat → Inputs → List Byte × Inputs
  | 0, i => ([], i)
  | n + 1, i => (i.drawByte.1 :: (drawBytes n i.drawByte.2).1, (drawBytes n i.drawByte.2).2)

/-! ### Memory -/

namespace Memory

/-- What an address that is not listed reads as, in shared and in host memory (log 4). -/
def unlisted : Byte := 0

/-- The byte at an address. -/
def get : Memory → Nat → Byte
  | [], _ => unlisted
  | (k, v) :: m, a => if a < k then unlisted else if a = k then v else get m a

/-- Put a cell in front of the cells above it, unless an unlisted address reads the same. -/
def put (a : Nat) (b : Byte) (m : Memory) : Memory := if b = unlisted then m else (a, b) :: m

/-- Write the byte at an address, in the canonical form. -/
def set : Memory → Nat → Byte → Memory
  | [], a, b => put a b []
  | (k, v) :: m, a, b =>
    if a < k then put a b ((k, v) :: m) else if a = k then put a b m else (k, v) :: set m a b

/-- Every listed address is above a. -/
def above (a : Nat) : Memory → Bool
  | [] => true
  | (k, _) :: _ => a < k

/-- The canonical form: addresses strictly rising, no entry equal to what an unlisted address reads as. -/
def wf : Memory → Bool
  | [] => true
  | (k, v) :: m => v != unlisted && above k m && wf m

/-- The n bytes from an address on. -/
def getBytes (m : Memory) : Nat → Nat → List Byte
  | _, 0 => []
  | a, n + 1 => m.get a :: getBytes m (a + 1) n

/-- Write bytes from an address on. -/
def setBytes (m : Memory) : Nat → List Byte → Memory
  | _, [] => m
  | a, b :: bs => setBytes (m.set a b) (a + 1) bs

/-- Make the host's writes, the first one first (R38). -/
def writes (m : Memory) : List HostWrite → Memory
  | [] => m
  | w :: ws => writes (m.set w.addr.toNat w.byte) ws

/-- The little-endian word at an address (R54). -/
def getWord (m : Memory) (a : Nat) : Word := leValue (m.getBytes a Config.wordBytes)

/-- Write a word at an address, little-endian (R54). -/
def setWord (m : Memory) (a : Nat) (v : Word) : Memory :=
  m.setBytes a (leBytes v)

end Memory

/-! ### The environment's moves -/

/-- What one move of the coprocessor does (R45). A coprocessor write outside shared memory reaches no byte
(log 11). -/
def State.applyMove (s : State) : EnvMove → State
  | .coprocRead _ => s
  | .coprocWrite off b => if off < s.cfg.shmemSize then s.setSh (s.sh.set off b) else s
  | .raiseIrq => s.setIrq true

/-- Note where the coprocessor moved (log 12). -/
def State.noteMove (s : State) (m : EnvMove) : State := { s with moved := (s.events.length, m) :: s.moved }

/-- A list of moves, the first one first, each noted. -/
def State.applyMoves : List EnvMove → State → State
  | [], s => s
  | m :: ms, s => applyMoves ms ((s.noteMove m).applyMove m)

/-- The coprocessor's moves before the next event or at a boundary (R3, R13, R211 (d)): the next slot of its script. -/
def State.envTick (s : State) : State :=
  match s.inp.moves with
  | [] => s
  | slot :: rest => State.applyMoves slot (s.setInp { s.inp with moves := rest })

/-- The host framework's writes during an E_CALLBACK (R174), the one event during which it writes host memory (R243 (d),
92 D27): the next slot of its script. -/
def State.sinkWrites (s : State) : State :=
  (s.setInp { s.inp with sink := s.inp.sink.tail }).setHost (s.host.writes (s.inp.sink.headD []))

/-! ### Faults and the end of an operation -/

/-- `raise F(info)` (R200): taking a fault is one shared operation. The environment may have moved since the last event
(R13, R211 (d)). -/
def raise (f : BlockFault) (s : State) : Exit α := .raised (s.envTick.recordFault f)

/-- `require C else raise F` (R13). -/
def require (c : Bool) (f : BlockFault) (s : State) : Exit Unit := if c then .ok () s else raise f s

/-- `x[f]`: reading a field that holds UNSET raises FAULT_UNSET (R12). -/
def readField (name : Field) (v : Option α) (s : State) : Exit α :=
  match v with
  | some a => .ok a s
  | none => raise (.unset name) s

/-- Close an operation whose body has run: E_END, before which the environment may have moved (R13); a body that raised a
fault leaves active set and has no result (R200). -/
def closeOp (i : Instr) : Exit Result → State
  | .ok r s => s.envTick.endOp i r
  | .raised s => s

/-- Run an operation from its beginning to its end or its fault (R202, R207). Every operation takes a next state. -/
def runOp (ctx : Context) (i : Instr) (body : State → Exit Result) (s : State) :
    Host.Outcome State Fault Refusal :=
  .next (closeOp i (body (s.beginOp ctx i)))

/-! ### The memory primitives -/

/-- `MemRead_SH(off, 4)` (R55). -/
def memReadSh (off : Nat) (s : State) : Exit Word :=
  (require (off % Config.destAlign == 0) (.align off) s).bind fun _ s =>
  (require (off + Config.wordBytes ≤ s.cfg.shmemSize) (.range .sh off) s).bind fun _ s =>
    let s := s.envTick
    .ok (s.sh.getWord off) (s.emit (.shRead off (s.sh.getWord off)))

/-- The word of a burst lands (R55, R102): exactly after a ready wait, as four arbitrary bytes after a timeout. -/
def landWord (off : Nat) (v : Word) (ready : Bool) (s : State) : State :=
  match ready with
  | true => (s.setSh (s.sh.setWord off v)).emit (.shWrite off v true)
  | false =>
    let (bs, i) := s.inp.drawBytes Config.wordBytes
    ((s.setInp i).setSh (s.sh.setBytes off bs)).emit (.shWrite off v false)

/-- `MemWrite_SH(off, 4, v)` (R55). -/
def memWriteSh (off : Nat) (v : Word) (s : State) : Exit Unit :=
  (require (off % Config.destAlign == 0) (.align off) s).bind fun _ s =>
  (require (off + Config.wordBytes ≤ s.cfg.shmemSize) (.range .sh off) s).bind fun _ s =>
  (readField .gateOk s.gateOk s).bind fun g s =>
    .ok () (landWord off v g s.envTick)

/-- The effects of a register write at its event (R56). The register block keeps the word last written (R35, R44). -/
def State.writeReg (s : State) (off : Nat) (v : Word) : State :=
  let e := off == s.cfg.offEnable
  let c := off == s.cfg.offIntrClear
  { s with
    regEnable := if e then v else s.regEnable
    regIntrClear := if c then v else s.regIntrClear
    coprocEnabled :=
      if e && v == s.cfg.disableValue then some false
      else if e && v == s.cfg.enableValue then some true
      else s.coprocEnabled
    irqPending := if c && v == s.cfg.ackValue then false else s.irqPending }

/-- `MemWrite_REG(off, 4, v)` (R56). -/
def memWriteReg (off : Nat) (v : Word) (s : State) : Exit Unit :=
  (require (off + Config.wordBytes ≤ s.cfg.regsSize) (.range .reg off) s).bind fun _ s =>
    .ok () ((s.envTick.emit (.regWrite off v)).writeReg off v)

/-- `MemRead_HOST(addr, n)` (R57). -/
def memReadHost (addr n : Nat) (s : State) : Exit (List Byte) :=
  (require (addr + n ≤ Config.hostSize) (.range .host addr) s).bind fun _ s =>
    let s := s.envTick
    .ok (s.host.getBytes addr n) (s.emit (.hostRead addr (s.host.getBytes addr n)))

end Sys2Proof.Machine
end

