-- ==== Sys2Proof/Machine/Admission.lean ====
section
/-! DEFINITION. What a step does before an operation runs: the checks of R202 for the control path, those of R171 for the
interrupt path, and whose turn it is (R211); and how a record is placed so that the next step runs it. -/

namespace Sys2Proof.Machine

/-- Admit a record of the control path (R202 steps 3 and 4): decode it, refuse what R84 refuses, INTERRUPT among it, and
demand a successful INIT before anything but INIT. -/
def admission (r : Record) (s : State) : Exit Instr :=
  match decode r.words with
  | .error _ => raise (.refused r.header) s
  | .ok (.interrupt, _) => raise (.refused r.header) s
  | .ok (.init, _) => .ok .init s
  | .ok (i, _) => if isUp s then .ok i s else raise (.notInit i.tag) s

/-- The control path's turn: the record at the head of the port is presented (R202). -/
def controlTurn (s : State) : Option Instr × State :=
  match s.inp.port with
  | [] => (none, s)
  | r :: rest =>
    match admission r (s.setInp { s.inp with port := rest }) with
    | .ok i s => (some i, s)
    | .raised s => (none, s)

/-- The interrupt path's turn: INTERRUPT begins if it may (R171). -/
def interruptTurn (s : State) : Option Instr × State :=
  if interruptReady s then (some .interrupt, s) else (none, s)

/-- An operation boundary: the environment's moves, then the turn of one path. While an operation is in progress a
record holds (R202 step 2) and INTERRUPT does not begin (R209). Answers the operation that begins, if one does. -/
def boundary (s : State) : Option Instr × State :=
  let s := s.envTick
  match s.active with
  | some _ => (none, s)
  | none =>
    match s.inp.drawTurn with
    | (.control, i) => controlTurn (s.setInp i)
    | (.interrupt, i) => interruptTurn (s.setInp i)

/-- The block is halted (R200, R202 step 1). -/
def haltedFault (s : State) : Option Fault :=
  match s.fault with
  | some f => some (.halted f)
  | none => none

/-- The record for the words of an instruction: exactly the words the decoder takes, or all of them where it refuses
them. -/
def recordOf (ws : List Word) : Record :=
  match decode ws with
  | .ok (i, _) => encodeRecord i
  | .error _ => ⟨ws.headD 0, ws.tail⟩

/-- Nothing bars the next operation from beginning: no fault, nothing active (R202 steps 1 and 2). -/
def State.unbarred (s : State) : State := { s with fault := none, active := none }

/-- The block up: a successful INIT is behind it (R202 step 4, R171). -/
def State.madeUp (s : State) : State := { s with initialized := true, dead := false }

/-- The state whose next turn is the control path's, with a record at the head of the port. -/
def State.presenting (s : State) (r : Record) : State :=
  s.setInp { s.inp with port := r :: s.inp.port, turns := .control :: s.inp.turns }

/-- Place an instruction so that the next step runs it (log 17). -/
def placeWords (ws : List Word) (s : State) : State :=
  match decode ws with
  | .ok (.interrupt, _) =>
    (s.unbarred.madeUp.setIrq true).setInp { s.inp with turns := .interrupt :: s.inp.turns }
  | .ok (.init, _) => s.unbarred.presenting (recordOf ws)
  | .ok (_, _) => s.unbarred.madeUp.presenting (recordOf ws)
  | .error _ => s.unbarred.presenting (recordOf ws)

end Sys2Proof.Machine
end

