-- ==== Sys2Proof/Machine/HostInterface.lean ====
section
/-! DEFINITION. The host-interface queries (45_host_interface.md, R180 to R185): no memory access, no block-state
write. -/

namespace Sys2Proof.Machine

/-- QUERY_FORMAT (R180): encoding, precision, channels, minimum and maximum rate. -/
def queryFormat (s : State) : Exit Result :=
  .ok ⟨.ok, [.num Config.encSlinearLe, .num Config.precisionWide, .num Config.channelsStereo, .num s.cfg.rateMin,
    .num Config.rateMax]⟩ s

/-- ROUND_BLOCKSIZE (R181): the request is ignored. -/
def roundBlocksize (s : State) : Exit Result :=
  .ok ⟨.ok, [.num (s.cfg.dmabufSize / Config.dmabufDivisor)]⟩ s

/-- ROUND_BUFFERSIZE (R182). -/
def roundBuffersize (req : Word) (s : State) : Exit Result :=
  (readField .channels s.dev.channels s).bind fun c s =>
    .ok ⟨.ok, [.num (min req.toNat (Config.bufferCap * c.toNat))]⟩ s

/-- The data of a mixer control (R183): kind, class, channels, minimum, maximum and name. -/
def controlInfo (channels : Nat) (name : String) : List Datum :=
  [.num Config.kindValue, .num Config.mixerClass, .num channels, .num Config.volumeMin,
    .num Config.volumeMax, .text name]

/-- MIXER_DEVINFO (R183). -/
def mixerDevinfo (index : Word) (s : State) : Exit Result :=
  match mixerIndexOf index with
  | .master => .ok ⟨.ok, controlInfo 1 s.cfg.nameMaster⟩ s
  | .gain => .ok ⟨.ok, controlInfo 2 s.cfg.nameGain⟩ s
  | .outputClass => .ok ⟨.ok, [.num Config.kindClass, .num Config.mixerClass, .text s.cfg.nameClass]⟩ s
  | .unknown => .ok resultInvalid s

/-- GET_DEVICE (R184). -/
def getDevice (s : State) : Exit Result := .ok ⟨.ok, [.text s.cfg.deviceName]⟩ s

/-- GET_LOCKS (R185). -/
def getLocks (s : State) : Exit Result := .ok ⟨.ok, [.num Config.lockControl, .num Config.lockIntr]⟩ s

/-- QUERY_FORMAT (R180). -/
def execQueryFormat (s : State) : Host.Outcome State Fault Refusal := runOp .control .queryFormat queryFormat s

/-- ROUND_BLOCKSIZE (R181). -/
def execRoundBlocksize (req : Word) (s : State) : Host.Outcome State Fault Refusal :=
  runOp .control (.roundBlocksize req) roundBlocksize s

/-- ROUND_BUFFERSIZE (R182). -/
def execRoundBuffersize (req : Word) (s : State) : Host.Outcome State Fault Refusal :=
  runOp .control (.roundBuffersize req) (roundBuffersize req) s

/-- MIXER_DEVINFO (R183). -/
def execMixerDevinfo (index : Word) (s : State) : Host.Outcome State Fault Refusal :=
  runOp .control (.mixerDevinfo index) (mixerDevinfo index) s

/-- GET_DEVICE (R184). -/
def execGetDevice (s : State) : Host.Outcome State Fault Refusal := runOp .control .getDevice getDevice s

/-- GET_LOCKS (R185). -/
def execGetLocks (s : State) : Host.Outcome State Fault Refusal := runOp .control .getLocks getLocks s

end Sys2Proof.Machine
end

