-- ==== Sys2Proof/Machine/BusGate.lean ====
section
/-! DEFINITION. The Bus Gate (40_bus_gate.md, R100 to R104): one FIFO-status poll, the bounded wait, and WAIT_READY as
an operation. -/

namespace Sys2Proof.Machine

/-- `PollStatus()` (R100): one event, whose value is a draw from the bus status source. -/
def pollStatus (s : State) : Word × State :=
  let s := s.envTick
  (s.inp.drawPoll.1, (s.setInp s.inp.drawPoll.2).emit (.poll s.inp.drawPoll.1))

/-- The end of a wait (R101): gate_ok and E_GATE. -/
def gateResult (ready : Bool) (s : State) : State := (s.envTick.setGate ready).emit (.gate ready)

/-- The loop of WAIT_READY with n polls left (R101). -/
def waitLoop : Nat → State → State
  | 0, s => gateResult false s
  | n + 1, s =>
    let p := pollStatus s
    if isReady s.cfg p.1 then gateResult true p.2 else waitLoop n p.2

/-- `WAIT_READY()` as the sub-operation every shared-memory writer calls (R101). It raises no fault. -/
def waitReady (s : State) : State := waitLoop s.cfg.waitLimit s

/-- WAIT_READY (R101): the result is always OK, a timeout is silently tolerated (R204). -/
def execWaitReady (s : State) : Host.Outcome State Fault Refusal :=
  runOp .control .waitReady (fun s => .ok resultOk (waitReady s)) s

end Sys2Proof.Machine
end

