-- ==== Sys2Proof/Machine/CommandChannel.lean ====
section
/-! DEFINITION. The Command Channel (42_command_channel.md, R130 to R133): SEND_COMMAND and SEND_PARAM. -/

namespace Sys2Proof.Machine

/-- A single word with its own wait: its own burst (R103, 92 D8). -/
def writeWaited (off : Nat) (v : Word) (s : State) : Exit Unit := memWriteSh off v (waitReady s)

/-- `SEND_COMMAND(cmd)` (R130): the command word, then the serial slot read back and incremented mod 2^32 (R34). -/
def sendCommand (cmd : Word) (s : State) : Exit Unit :=
  (require (!inInterrupt s) (.cmdInInterrupt cmd) s).bind fun _ s =>
  (writeWaited s.cfg.offCmd cmd s).bind fun _ s =>
  (memReadSh s.cfg.offSerial s).bind fun serial s =>
    writeWaited s.cfg.offSerial (serial + 1) s

/-- `SEND_PARAM(cmd, left, right)` (R131): left before right, both before the command word. -/
def sendParam (cmd left right : Word) (s : State) : Exit Unit :=
  (require (!inInterrupt s) (.cmdInInterrupt cmd) s).bind fun _ s =>
  (writeWaited s.cfg.offLparam left s).bind fun _ s =>
  (writeWaited s.cfg.offRparam right s).bind fun _ s =>
    sendCommand cmd s

/-- SEND_COMMAND (R130). -/
def execSendCommand (cmd : Word) (s : State) : Host.Outcome State Fault Refusal :=
  runOp .control (.sendCommand cmd) (fun s => finish resultOk (sendCommand cmd s)) s

/-- SEND_PARAM (R131). -/
def execSendParam (cmd left right : Word) (s : State) : Host.Outcome State Fault Refusal :=
  runOp .control (.sendParam cmd left right) (fun s => finish resultOk (sendParam cmd left right s)) s

end Sys2Proof.Machine
end

