-- ==== Sys2Proof/Machine/RegionWriter.lean ====
section
/-! DEFINITION. The Region Writer (41_region_writer.md, R110 to R126): the raw block copy with its internal form over a
byte sequence, and the two deinterleave copies. Offsets and addresses are natural numbers here, since callers add to
them (R11). -/

namespace Sys2Proof.Machine

/-- Where WRITE_BLOCK takes its bytes from: host memory (R110), a byte sequence, or a run of zero bytes (R111). -/
inductive BlockSource where
  | host (addr : Nat)
  | seq (bytes : List Byte)
  | zeros
  deriving DecidableEq, Repr

/-- The next k bytes of a source. Only host memory is read by an event (R110, R111). -/
def fetchBytes (src : BlockSource) (k : Nat) (s : State) : Exit (List Byte) :=
  match src with
  | .host addr => memReadHost addr k s
  | .seq bytes => .ok (bytes.take k) s
  | .zeros => .ok (List.replicate k 0) s

/-- The source after a word has been taken from it. -/
def BlockSource.next : BlockSource → BlockSource
  | .host addr => .host (addr + Config.wordBytes)
  | .seq bytes => .seq (bytes.drop Config.wordBytes)
  | .zeros => .zeros

/-- The wait before word j, if a burst begins there (R103, R110). -/
def waitAtBurst (j : Nat) (s : State) : State := if j % s.cfg.wbBurstWords = 0 then waitReady s else s

/-- One word of WRITE_BLOCK: its bytes, the last word's filled up by ANY_byte (R110). -/
def writeBlockWord (dest len : Nat) (src : BlockSource) (s : State) : Exit Unit :=
  let k := min Config.wordBytes len
  (fetchBytes src k s).bind fun b s =>
    let (pad, i) := s.inp.drawBytes (Config.wordBytes - k)
    memWriteSh dest (leValue (b ++ pad)) (s.setInp i)

/-- The loop of WRITE_BLOCK (R110): n words left, the next of them word j at dest, len bytes left. -/
def writeBlockLoop : Nat → Nat → Nat → Nat → BlockSource → State → Exit Unit
  | 0, _, _, _, _, s => .ok () s
  | n + 1, j, dest, len, src, s =>
    (writeBlockWord dest len src (waitAtBurst j s)).bind fun _ s =>
      writeBlockLoop n (j + 1) (dest + Config.wordBytes) (len - Config.wordBytes) src.next s

/-- WRITE_BLOCK and WRITE_BLOCK_SEQ over any source (R110, R111). -/
def writeBlockFrom (offset len : Nat) (src : BlockSource) (s : State) : Exit Unit :=
  (require (offset % Config.destAlign == 0) (.align offset) s).bind fun _ s =>
    writeBlockLoop (wordsFor len) 0 offset len src s

/-- `WRITE_BLOCK(offset, src, len)` as REFILL calls it (R110). -/
def writeBlock (offset src len : Nat) (s : State) : Exit Unit := writeBlockFrom offset len (.host src) s

/-- `WRITE_BLOCK_SEQ(offset, seq)`, used only by INIT (R111). -/
def writeBlockSeq (offset : Nat) (seq : List Byte) (s : State) : Exit Unit :=
  writeBlockFrom offset seq.length (.seq seq) s

/-- `WRITE_BLOCK_SEQ(offset, zeros(n))`, used only by INIT (R111, R233). -/
def writeBlockZeros (offset n : Nat) (s : State) : Exit Unit := writeBlockFrom offset n .zeros s

/-- Read n samples of width bytes each, stride bytes apart, into one byte sequence (R115, R120). -/
def readSamples (width stride : Nat) : Nat → Nat → State → Exit (List Byte)
  | 0, _, s => .ok [] s
  | n + 1, addr, s =>
    (memReadHost addr width s).bind fun b s =>
    (readSamples width stride n (addr + stride) s).bind fun bs s => .ok (b ++ bs) s

/-- Write n words from a byte sequence, a word's bytes each (R115, R120). -/
def writeWords : Nat → Nat → List Byte → State → Exit Unit
  | 0, _, _, s => .ok () s
  | n + 1, dest, bytes, s =>
    (memWriteSh dest (leValue bytes) s).bind fun _ s =>
      writeWords n (dest + Config.wordBytes) (bytes.drop Config.wordBytes) s

/-- A chunk of r samples of WRITE_DEINT16 (R115): all reads, then the wait, then the ceil(r/2) words that hold the
samples; for odd r the last word's upper half is two ANY_byte draws. A full chunk is r = 16. -/
def writeChunk16 (r dest src : Nat) (s : State) : Exit Unit :=
  (readSamples Config.sample16 Config.frame16 r src s).bind fun bytes s =>
    let words := wordsFor (Config.sample16 * r)
    let (pad, i) := s.inp.drawBytes (Config.wordBytes * words - Config.sample16 * r)
    writeWords words dest (bytes ++ pad) (waitReady (s.setInp i))

/-- A chunk of r samples of WRITE_DEINT8 (R120): all reads, then the wait, then the floor(r/4) words the samples
fill; the last r mod 4 samples are read and not written. A full chunk is r = 32. -/
def writeChunk8 (r dest src : Nat) (s : State) : Exit Unit :=
  (readSamples Config.sample8 Config.frame8 r src s).bind fun bytes s =>
    writeWords (Config.sample8 * r / Config.wordBytes) dest bytes (waitReady s)

/-- n full chunks of WRITE_DEINT16 (R115). -/
def fullChunks16 : Nat → Nat → Nat → State → Exit Unit
  | 0, _, _, s => .ok () s
  | n + 1, dest, src, s =>
    (writeChunk16 Config.chunk16 dest src s).bind fun _ s =>
      fullChunks16 n (dest + Config.sample16 * Config.chunk16) (src + Config.frame16 * Config.chunk16) s

/-- n full chunks of WRITE_DEINT8 (R120). -/
def fullChunks8 : Nat → Nat → Nat → State → Exit Unit
  | 0, _, _, s => .ok () s
  | n + 1, dest, src, s =>
    (writeChunk8 Config.chunk8 dest src s).bind fun _ s =>
      fullChunks8 n (dest + Config.sample8 * Config.chunk8) (src + Config.frame8 * Config.chunk8) s

/-- `WRITE_DEINT16(offset, src, len)` (R115): len counts output bytes of one channel (90 C1, C7). -/
def writeDeint16 (offset src len : Nat) (s : State) : Exit Unit :=
  (require (offset % Config.destAlign == 0) (.align offset) s).bind fun _ s =>
  (require (len % Config.sample16 == 0) (.badLen len) s).bind fun _ s =>
    let full := len / Config.sample16 / Config.chunk16
    let r := len / Config.sample16 % Config.chunk16
    (fullChunks16 full offset src s).bind fun _ s =>
      if r = 0 then .ok () s
      else writeChunk16 r (offset + Config.sample16 * Config.chunk16 * full)
        (src + Config.frame16 * Config.chunk16 * full) s

/-- `WRITE_DEINT8(offset, src, len)` (R120). -/
def writeDeint8 (offset src len : Nat) (s : State) : Exit Unit :=
  (require (offset % Config.destAlign == 0) (.align offset) s).bind fun _ s =>
    let full := len / Config.chunk8
    let r := len % Config.chunk8
    (fullChunks8 full offset src s).bind fun _ s =>
      if r = 0 then .ok () s
      else writeChunk8 r (offset + Config.sample8 * Config.chunk8 * full)
        (src + Config.frame8 * Config.chunk8 * full) s

/-- WRITE_BLOCK (R110). -/
def execWriteBlock (offset src len : Word) (s : State) : Host.Outcome State Fault Refusal :=
  runOp .control (.writeBlock offset src len)
    (fun s => finish resultOk (writeBlock offset.toNat src.toNat len.toNat s)) s

/-- WRITE_DEINT16 (R115). -/
def execWriteDeint16 (offset src len : Word) (s : State) : Host.Outcome State Fault Refusal :=
  runOp .control (.writeDeint16 offset src len)
    (fun s => finish resultOk (writeDeint16 offset.toNat src.toNat len.toNat s)) s

/-- WRITE_DEINT8 (R120). -/
def execWriteDeint8 (offset src len : Word) (s : State) : Host.Outcome State Fault Refusal :=
  runOp .control (.writeDeint8 offset src len)
    (fun s => finish resultOk (writeDeint8 offset.toNat src.toNat len.toNat s)) s

end Sys2Proof.Machine
end

