-- ==== Sys2Proof/Machine/Initialisation.lean ====
section
/-! DEFINITION. INIT, the attach-time initialisation (70_reset_and_hazards.md, R232 to R234). -/

namespace Sys2Proof.Machine

/-- The first offset of the zero fill, ceil(FW_LEN / 4) * 4 (R233). -/
def fillStart (cfg : Params) : Nat := Config.wordBytes * wordsFor cfg.fwLen

/-- Load the coprocessor (R233, R234): disable it, write the firmware and the zero fill, enable it. -/
def loadCoprocessor (s : State) : Exit Unit :=
  (memWriteReg s.cfg.offEnable s.cfg.disableValue s).bind fun _ s =>
  (writeBlockSeq 0 s.cfg.fwImage s).bind fun _ s =>
  (writeBlockZeros (fillStart s.cfg) (s.cfg.shmemSize - fillStart s.cfg) s).bind fun _ s =>
    memWriteReg s.cfg.offEnable s.cfg.enableValue s

/-- The defaults INIT leaves (R25, R233): volumes 255, callback NULL, initialized. -/
def State.becomeUp (s : State) : State :=
  { s with
    initialized := true
    dev := { s.dev with
      outputMaster := some Config.volumeDefault, outputGainLeft := some Config.volumeDefault,
      outputGainRight := some Config.volumeDefault, callback := some 0 } }

/-- The failure of the mapping (R232). -/
def State.becomeDead (s : State) : State := { s with dead := true }

/-- The default volumes sent to the coprocessor, if INIT_VOLUME_COMMANDS (R233). -/
def sendDefaults (s : State) : Exit Unit :=
  if s.cfg.initVolumeCommands then
    let (any, i) := s.inp.drawWord
    (sendParam s.cfg.cmdMvol (volumeWord Config.volumeDefault) any (s.setInp i)).bind fun _ s =>
      sendParam s.cfg.cmdVol (volumeWord Config.volumeDefault) (volumeWord Config.volumeDefault) s
  else .ok () s

/-- `INIT()` (R233): whether mapping succeeds is a draw (R232). -/
def initBody (s : State) : Exit Result :=
  (require (!s.initialized && !s.dead) .reinit s).bind fun _ s =>
    let (mapOk, i) := s.inp.drawBool
    let s := s.setInp i
    match mapOk with
    | false => .ok ⟨.failed, []⟩ s.becomeDead
    | true =>
      (loadCoprocessor s).bind fun _ s => finish resultOk (sendDefaults s.becomeUp)

/-- INIT (R233). -/
def execInit (s : State) : Host.Outcome State Fault Refusal := runOp .control .init initBody s

end Sys2Proof.Machine
end

