-- ==== Sys2Proof/Machine/PlaybackEngine.lean ====
section
/-! DEFINITION. The Playback Engine (43_playback_engine.md, R140 to R147): SET_FORMAT, START, REFILL, STOP. -/

namespace Sys2Proof.Machine

/-- `SET_FORMAT(p, c, r)` (R140). -/
def setFormat (p c r : Word) (s : State) : Exit Unit :=
  (readField .callback s.dev.callback s).bind fun cb s =>
  (require (!isPlaying cb) .formatWhilePlaying s).bind fun _ s =>
    match precisionOf p, channelsOf c, rateLegal s.cfg r with
    | some prec, some chan, true =>
      .ok () (s.setDev { s.dev with precision := some prec, channels := some chan, rate := some r })
    | _, _, _ => raise (.badFormat p c r) s

/-- The copies of one refill (R144, R145): a block of B host bytes at cursor q to the halves at offset o. -/
def refillCopy (p : Precision) (c : Channels) (b o q : Nat) (s : State) : Exit Unit :=
  match c, p with
  | .stereo, .bits16 =>
    (writeDeint16 (s.cfg.leftBase + o) q (b / Config.channelsStereo) s).bind fun _ s =>
      writeDeint16 (s.cfg.rightBase + o) (rightPointer16 q) (b / Config.channelsStereo) s
  | .stereo, .bits8 =>
    (writeDeint8 (s.cfg.leftBase + o) q (b / Config.channelsStereo) s).bind fun _ s =>
      writeDeint8 (s.cfg.rightBase + o) (rightPointer8 q) (b / Config.channelsStereo) s
  | .mono, _ => writeBlock (s.cfg.leftBase + o) q b s

/-- The cursor after a refill: advanced by B, back at the start when it reaches the end (R144, 90 C2). -/
def nextCursor (bs be q b : Word) : Word :=
  if be.toNat ≤ q.toNat + b.toNat then bs else word (q.toNat + b.toNat)

/-- The half offset after a refill (R28, R144). -/
def nextHalf (o b : Word) (c : Channels) : Word := o ^^^ word (halfSize b c)

/-- `REFILL()` (R144). The fields are read in the order the rule writes them, so the first UNSET one is named. -/
def refill (s : State) : Exit Unit :=
  (readField .precision s.dev.precision s).bind fun p s =>
  (readField .channels s.dev.channels s).bind fun c s =>
  (readField .blockSize s.dev.blockSize s).bind fun b s =>
  (readField .nextFillOffset s.dev.nextFillOffset s).bind fun o s =>
  (readField .bufferCursor s.dev.bufferCursor s).bind fun q s =>
  (readField .bufferStart s.dev.bufferStart s).bind fun bs s =>
  (readField .bufferEnd s.dev.bufferEnd s).bind fun be s =>
  (refillCopy p c b.toNat o.toNat q.toNat s).bind fun _ s =>
    .ok () (s.setDev { s.dev with
      bufferCursor := some (nextCursor bs be q b), nextFillOffset := some (nextHalf o b c) })

/-- The four PLAY parameters, each its own burst, in the order blocksize, channel, rate, precision (R88, R141). -/
def playParams (b : Word) (c : Channels) (r : Word) (p : Precision) (s : State) : Exit Unit :=
  (writeWaited s.cfg.offBlocksize (word (halfSize b c)) s).bind fun _ s =>
  (writeWaited s.cfg.offChannel (word c.toNat) s).bind fun _ s =>
  (writeWaited s.cfg.offRate r s).bind fun _ s =>
    writeWaited s.cfg.offPrecision (word p.toNat) s

/-- `START(bs, be, B, sink, arg)` (R141): checks, bounds, two priming refills, PLAY, and the callback last. -/
def start (bs be b sink arg : Word) (s : State) : Exit Unit :=
  (readField .callback s.dev.callback s).bind fun cb s =>
  (require (!isPlaying cb) .startWhilePlaying s).bind fun _ s =>
  (readField .precision s.dev.precision s).bind fun p s =>
  (readField .channels s.dev.channels s).bind fun c s =>
  (readField .rate s.dev.rate s).bind fun r s =>
  (require (sink != 0) (.badArg sink) s).bind fun _ s =>
  (require (bufferLegal bs be b c) (.badBuffer bs be b) s).bind fun _ s =>
  (refill (s.setDev { s.dev with
    bufferStart := some bs, bufferEnd := some be, blockSize := some b, nextFillOffset := some 0,
    bufferCursor := some bs })).bind fun _ s =>
  (refill s).bind fun _ s =>
  (playParams b c r p s).bind fun _ s =>
  (sendCommand s.cfg.cmdPlay s).bind fun _ s =>
    .ok () (s.setDev { s.dev with callback := some sink, callbackArg := some arg })

/-- `STOP()` (R147): send-and-forget. -/
def stop (s : State) : Exit Unit :=
  (sendCommand s.cfg.cmdStop s).bind fun _ s => .ok () (s.setDev { s.dev with callback := some 0 })

/-- SET_FORMAT (R140). -/
def execSetFormat (p c r : Word) (s : State) : Host.Outcome State Fault Refusal :=
  runOp .control (.setFormat p c r) (fun s => finish resultOk (setFormat p c r s)) s

/-- START (R141). -/
def execStart (bs be b sink arg : Word) (s : State) : Host.Outcome State Fault Refusal :=
  runOp .control (.start bs be b sink arg) (fun s => finish resultOk (start bs be b sink arg s)) s

/-- REFILL issued by the control path (R144). -/
def execRefill (s : State) : Host.Outcome State Fault Refusal :=
  runOp .control .refill (fun s => finish resultOk (refill s)) s

/-- STOP (R147). -/
def execStop (s : State) : Host.Outcome State Fault Refusal :=
  runOp .control .stop (fun s => finish resultOk (stop s)) s

end Sys2Proof.Machine
end

