-- ==== Sys2Proof/Machine/InterruptHandler.lean ====
section
/-! DEFINITION. The Interrupt Handler (44_interrupt_handler.md, R170 to R175), run in the interrupt context. -/

namespace Sys2Proof.Machine

/-- Invoke the sink (R174): one environment event, during which the host may write host memory. -/
def callSink (cb arg : Word) (s : State) : State := (s.envTick.emit (.callback cb arg)).sinkWrites

/-- Step 2 of INTERRUPT (R170): invoke the sink if a callback is registered. -/
def notifySink (s : State) : Exit Unit :=
  (readField .callback s.dev.callback s).bind fun cb s =>
    if isPlaying cb then
      (readField .callbackArg s.dev.callbackArg s).bind fun arg s => .ok () (callSink cb arg s)
    else .ok () s

/-- Step 3 of INTERRUPT (R170): the acknowledge write. -/
def acknowledge (s : State) : Exit Unit := memWriteReg s.cfg.offIntrClear s.cfg.ackValue s

/-- `INTERRUPT()` (R170): refill unconditionally, notify, acknowledge. -/
def interruptBody (s : State) : Exit Result :=
  (refill s).bind fun _ s =>
  (notifySink s).bind fun _ s =>
    finish ⟨.handled, []⟩ (acknowledge s)

/-- INTERRUPT (R170, R207, R208). -/
def execInterrupt (s : State) : Host.Outcome State Fault Refusal := runOp .intr .interrupt interruptBody s

end Sys2Proof.Machine
end

