-- ==== Sys2Proof/Machine/Mixer.lean ====
section
/-! DEFINITION. The mixer's volume calls (43_playback_engine.md, R148, R149). -/

namespace Sys2Proof.Machine

/-- `MIXER_SET` on the master volume (R148): the right parameter of the command is ANY_u32 (92 D18). -/
def setMaster (v : Byte) (s : State) : Exit Unit :=
  let s := s.setDev { s.dev with outputMaster := some v }
  let (any, i) := s.inp.drawWord
  sendParam s.cfg.cmdMvol (volumeWord v) any (s.setInp i)

/-- `MIXER_SET` on the output gain (R148). -/
def setGain (left right : Byte) (s : State) : Exit Unit :=
  let s := s.setDev { s.dev with outputGainLeft := some left, outputGainRight := some right }
  sendParam s.cfg.cmdVol (volumeWord left) (volumeWord right) s

/-- `MIXER_SET(idx, nv, v0, v1)` (R148): a wrong index or value count is INVALID and changes nothing. -/
def mixerSet (index nvals v0 v1 : Word) (s : State) : Exit Result :=
  match mixerIndexOf index with
  | .master => if nvals = 1 then finish resultOk (setMaster (volumeOf v0) s) else .ok resultInvalid s
  | .gain => if nvals = 2 then finish resultOk (setGain (volumeOf v0) (volumeOf v1) s) else .ok resultInvalid s
  | .outputClass => .ok resultInvalid s
  | .unknown => .ok resultInvalid s

/-- `MIXER_GET(idx)` (R149). -/
def mixerGet (index : Word) (s : State) : Exit Result :=
  match mixerIndexOf index with
  | .master =>
    (readField .outputMaster s.dev.outputMaster s).bind fun v s => .ok ⟨.ok, [.num 1, .num v.toNat]⟩ s
  | .gain =>
    (readField .outputGainLeft s.dev.outputGainLeft s).bind fun l s =>
    (readField .outputGainRight s.dev.outputGainRight s).bind fun r s =>
      .ok ⟨.ok, [.num 2, .num l.toNat, .num r.toNat]⟩ s
  | .outputClass => .ok resultInvalid s
  | .unknown => .ok resultInvalid s

/-- MIXER_SET (R148). -/
def execMixerSet (index nvals v0 v1 : Word) (s : State) : Host.Outcome State Fault Refusal :=
  runOp .control (.mixerSet index nvals v0 v1) (mixerSet index nvals v0 v1) s

/-- MIXER_GET (R149). -/
def execMixerGet (index : Word) (s : State) : Host.Outcome State Fault Refusal :=
  runOp .control (.mixerGet index) (mixerGet index) s

end Sys2Proof.Machine
end

