-- ==== Sys2Proof/Machine/Dispatch.lean ====
section
/-! DEFINITION. Which meaning each operation has: one arm for each constructor of Instr. -/

namespace Sys2Proof.Machine

/-- The meaning of an operation that has been admitted (R202, R171): it begins, runs and ends, or raises a fault. -/
def exec (i : Instr) (s : State) : Host.Outcome State Fault Refusal :=
  match i with
  | .init => Sys2Proof.Machine.execInit s
  | .setFormat p c r => Sys2Proof.Machine.execSetFormat p c r s
  | .start bs be b sink arg => Sys2Proof.Machine.execStart bs be b sink arg s
  | .stop => Sys2Proof.Machine.execStop s
  | .refill => Sys2Proof.Machine.execRefill s
  | .interrupt => Sys2Proof.Machine.execInterrupt s
  | .mixerSet index nvals v0 v1 => Sys2Proof.Machine.execMixerSet index nvals v0 v1 s
  | .mixerGet index => Sys2Proof.Machine.execMixerGet index s
  | .waitReady => Sys2Proof.Machine.execWaitReady s
  | .writeBlock offset src len => Sys2Proof.Machine.execWriteBlock offset src len s
  | .writeDeint16 offset src len => Sys2Proof.Machine.execWriteDeint16 offset src len s
  | .writeDeint8 offset src len => Sys2Proof.Machine.execWriteDeint8 offset src len s
  | .sendCommand cmd => Sys2Proof.Machine.execSendCommand cmd s
  | .sendParam cmd left right => Sys2Proof.Machine.execSendParam cmd left right s
  | .queryFormat => Sys2Proof.Machine.execQueryFormat s
  | .roundBlocksize req => Sys2Proof.Machine.execRoundBlocksize req s
  | .roundBuffersize req => Sys2Proof.Machine.execRoundBuffersize req s
  | .mixerDevinfo index => Sys2Proof.Machine.execMixerDevinfo index s
  | .getDevice => Sys2Proof.Machine.execGetDevice s
  | .getLocks => Sys2Proof.Machine.execGetLocks s

end Sys2Proof.Machine
end

