-- ==== Sys2Proof/Machine/Step.lean ====
section
/-! DEFINITION. One step of the machine: an operation boundary and the operation that begins there, if one does. -/

namespace Sys2Proof.Machine

/-- One step (R3, R202, R171). A halted block has no step (R202 step 1). Where no operation begins, only the
environment and the admission have acted. -/
def step (s : State) : Host.Outcome State Fault Refusal :=
  match haltedFault s with
  | some f => .fault f
  | none =>
    match boundary s with
    | (some i, s') => exec i s'
    | (none, s') => .next s'

/-- The state with an instruction of the opcode table placed where the next step takes its operation from (log 17). -/
def State.withFetchWord (s : State) (nbits w : Nat) : State := placeWords (tableWords nbits w) s

end Sys2Proof.Machine
end

