-- ==== Sys2Proof/Machine/Assembler.lean ====
section
/-! DEFINITION. The textual syntax of the spec's own assembler notation (R86): one line of text to the operation record it
stands for. No step uses it; it is here because the notation is part of the spec. -/

namespace Sys2Proof.Machine

/-- Why a line is no operation (R86; log 20). -/
inductive AsmError where
  /-- the mnemonic is none of R83's -/
  | unknownMnemonic
  /-- an operand is neither a number nor a parameter name with an optional offset -/
  | badOperand
  /-- an operand's value fits no u32 word (R82) -/
  | outOfRange
  deriving DecidableEq, Repr

/-- A character that separates tokens. -/
def isBlank (c : Char) : Bool := c = ' ' || c = '\t'

/-- A character of a mnemonic or a parameter name (R83, R8). -/
def isNameChar (c : Char) : Bool := c.isUpper || c.isDigit || c = '_'

/-- Without the blanks in front. -/
def dropBlanks (cs : List Char) : List Char := cs.dropWhile isBlank

/-- Without the blanks on either side. -/
def trimBlanks (cs : List Char) : List Char := (dropBlanks (dropBlanks cs).reverse).reverse

/-- The pieces between commas, at least one. -/
def splitCommas : List Char → List (List Char)
  | [] => [[]]
  | c :: cs =>
    if c = ',' then [] :: splitCommas cs
    else match splitCommas cs with
      | p :: ps => (c :: p) :: ps
      | [] => [[c]]

/-- The digits by value, as R86 writes them. -/
def digitRow : List Char := "0123456789abcdef".toList

/-- The value of a digit below a base: its place in the row of digits. Letters count in either case (log 20). -/
def digitBelow (base : Nat) (c : Char) : Option Nat := (digitRow.take base).idxOf? c.toLower

/-- The number a run of digits writes in a base. -/
def readDigits (base : Nat) (cs : List Char) : Option Nat :=
  (cs.mapM (digitBelow base)).map fun values => values.foldl (fun n d => base * n + d) 0

/-- `decimal | "0x" hex` (R86), the form of an operand; DESIGN CHOICE: also of the `number` after a parameter name
(log 20). -/
def parseNumber : List Char → Option Nat
  | [] => none
  | '0' :: 'x' :: [] => none
  | '0' :: 'x' :: c :: cs => readDigits 16 (c :: cs)
  | c :: cs => readDigits 10 (c :: cs)

/-- The parameters of R8 that are numbers, by name. -/
def paramNamed (p : Params) (name : String) : Option Nat :=
  match name with
  | "SHMEM_SIZE" => some p.shmemSize
  | "REGS_SIZE" => some p.regsSize
  | "OFF_CMD" => some p.offCmd
  | "OFF_SERIAL" => some p.offSerial
  | "OFF_LPARAM" => some p.offLparam
  | "OFF_RPARAM" => some p.offRparam
  | "OFF_BLOCKSIZE" => some p.offBlocksize
  | "OFF_CHANNEL" => some p.offChannel
  | "OFF_RATE" => some p.offRate
  | "OFF_PRECISION" => some p.offPrecision
  | "LEFT_BASE" => some p.leftBase
  | "RIGHT_BASE" => some p.rightBase
  | "REGION_SIZE" => some p.regionSize
  | "REG_ENABLE" => some p.offEnable
  | "ENABLE_VALUE" => some p.enableValue.toNat
  | "DISABLE_VALUE" => some p.disableValue.toNat
  | "REG_INTR_CLEAR" => some p.offIntrClear
  | "ACK_VALUE" => some p.ackValue.toNat
  | "FIFO_STATUS_ADDR" => some p.fifoStatusAddr
  | "READY_MASK" => some p.readyMask.toNat
  | "WAIT_LIMIT" => some p.waitLimit
  | "WB_BURST_WORDS" => some p.wbBurstWords
  | "FIFO_DEPTH_WORDS" => some p.fifoDepthWords
  | "CMD_PLAY" => some p.cmdPlay.toNat
  | "CMD_STOP" => some p.cmdStop.toNat
  | "CMD_MVOL" => some p.cmdMvol.toNat
  | "CMD_VOL" => some p.cmdVol.toNat
  | "DMABUF_SIZE" => some p.dmabufSize
  | "RATE_MIN" => some p.rateMin
  | "FW_LEN" => some p.fwLen
  | _ => none

/-- A value as an operand word, if it fits (R82). -/
def operandWord (v : Int) : Except AsmError Word :=
  if 0 ≤ v ∧ v < 2 ^ 32 then .ok (BitVec.ofInt 32 v) else .error .outOfRange

/-- A parameter's value with the offset written after its name, if any (R86). DESIGN CHOICE: R86 defines no `number` for
that offset; it is read as the operands' `decimal | "0x" hex`, and the sum or difference does not wrap (log 20). -/
def withOffset (v : Nat) : List Char → Except AsmError Word
  | [] => operandWord v
  | '+' :: cs =>
    match parseNumber (dropBlanks cs) with
    | some n => operandWord (v + n)
    | none => .error .badOperand
  | '-' :: cs =>
    match parseNumber (dropBlanks cs) with
    | some n => operandWord (v - n)
    | none => .error .badOperand
  | _ => .error .badOperand

/-- One operand (R86): a parameter is resolved before encoding. -/
def parseOperand (p : Params) (cs : List Char) : Except AsmError Word :=
  match parseNumber cs with
  | some n => operandWord n
  | none =>
    match paramNamed p (String.ofList (cs.takeWhile isNameChar)) with
    | some v => withOffset v (dropBlanks (cs.dropWhile isNameChar))
    | none => .error .badOperand

/-- Operands, in their order. -/
def parseOperands (p : Params) : List (List Char) → Except AsmError (List Word)
  | [] => .ok []
  | cs :: rest =>
    match parseOperand p (trimBlanks cs) with
    | .error e => .error e
    | .ok w =>
      match parseOperands p rest with
      | .error e => .error e
      | .ok ws => .ok (w :: ws)

/-- The tag of a mnemonic (R83). -/
def tagNamed (name : String) : Option Nat :=
  match name with
  | "INIT" => some 0x01
  | "SET_FORMAT" => some 0x02
  | "START" => some 0x03
  | "STOP" => some 0x04
  | "REFILL" => some 0x05
  | "INTERRUPT" => some 0x06
  | "MIXER_SET" => some 0x07
  | "MIXER_GET" => some 0x08
  | "WAIT_READY" => some 0x09
  | "WRITE_BLOCK" => some 0x0A
  | "WRITE_DEINT16" => some 0x0B
  | "WRITE_DEINT8" => some 0x0C
  | "SEND_COMMAND" => some 0x0D
  | "SEND_PARAM" => some 0x0E
  | "QUERY_FORMAT" => some 0x0F
  | "ROUND_BLOCKSIZE" => some 0x10
  | "ROUND_BUFFERSIZE" => some 0x11
  | "MIXER_DEVINFO" => some 0x12
  | "GET_DEVICE" => some 0x13
  | "GET_LOCKS" => some 0x14
  | _ => none

/-- The operands behind a mnemonic: none, or pieces between commas. -/
def operandList (cs : List Char) : List (List Char) :=
  match dropBlanks cs with
  | [] => []
  | c :: cs => splitCommas (c :: cs)

/-- One line without its comment (R86): no operation, or the record with the mnemonic's tag and the operands that are
written. Whether their count and widths fit the tag is the decoder's business (R84). -/
def parseStatement (p : Params) (cs : List Char) : Except AsmError (Option Record) :=
  match trimBlanks cs with
  | [] => .ok none
  | c :: cs =>
    match tagNamed (String.ofList ((c :: cs).takeWhile isNameChar)) with
    | none => .error .unknownMnemonic
    | some tag =>
      match parseOperands p (operandList ((c :: cs).dropWhile isNameChar)) with
      | .error e => .error e
      | .ok ws => .ok (some ⟨BitVec.ofNat _ tag, ws⟩)

/-- One line of the notation (R86): what stands behind a semicolon is a comment. -/
def assemble (p : Params) (line : String) : Except AsmError (Option Record) :=
  parseStatement p (line.toList.takeWhile (· ≠ ';'))

end Sys2Proof.Machine
end

