-- ==== Sys2Proof/Safety.lean ====
section
/-! DEFINITION. What claims are stated in: halted and ended runs (R200, R251), the named premises a claim may assume on the
environment (R45, R245), the premise that no wait timed out (R39, R248), what an operation leaves alone, and the
invariant every step keeps. -/

namespace Sys2Proof.Machine

/-! ### Runs -/

/-- The block is halted: a fault is recorded (R200, R251). -/
def State.Halted (s : State) : Prop := s.fault ≠ none

/-- A run has ended well (R251). -/
def State.EndedWell (s : State) : Prop :=
  s.active = none ∧ s.inp.port = [] ∧ (s.irqPending = false ∨ s.initialized = false) ∧ s.fault = none

/-- The block is Playing: the callback is set and not NULL (R31). -/
def State.Playing (s : State) : Prop := ∃ cb, s.dev.callback = some cb ∧ cb ≠ 0

/-! ### Premises on the environment -/

/-- The script of the coprocessor's moves holds a move with the property P. -/
def Inputs.Moves (i : Inputs) (P : EnvMove → Prop) : Prop := ∃ slot ∈ i.moves, ∃ m ∈ slot, P m

/-- The move writes the shared-memory byte at a. -/
def EnvMove.WritesSh (a : Nat) (m : EnvMove) : Prop := ∃ b, m = .coprocWrite a b

/-- The host framework writes the host byte at a during some E_CALLBACK to come. -/
def Inputs.SinkWrites (i : Inputs) (a : Nat) : Prop := ∃ slot ∈ i.sink, ∃ w ∈ slot, w.addr.toNat = a

/-- The coprocessor writes no byte in the set S, in what the script has in store (R45, `CoprocNoWrite(S)`). -/
def CoprocNoWrite (S : Nat → Prop) (s : State) : Prop := ∀ a, S a → ¬ s.inp.Moves (EnvMove.WritesSh a)

/-- The host framework writes no byte in the set S during the callbacks to come: the premise R38 asks of a claim that
depends on samples read after one. -/
def HostNoWrite (S : Nat → Prop) (s : State) : Prop := ∀ a, S a → ¬ s.inp.SinkWrites a

/-- The coprocessor signals no buffer-boundary event, in what the script has in store (R205). -/
def NoIrqMoves (s : State) : Prop := ¬ s.inp.Moves (· = .raiseIrq)

/-- The addresses of the n bytes from a on. -/
def span (a n : Nat) (x : Nat) : Prop := a ≤ x ∧ x < a + n

/-- The history as it stood when it held n events. -/
def State.historyAt (s : State) (n : Nat) : List Event := s.events.drop (s.events.length - n)

/-- The last enable or disable written to REG_ENABLE was the enable (R35, R41). -/
def EnabledIn (cfg : Params) : List Event → Bool
  | [] => false
  | .regWrite off v :: es =>
    if off == cfg.offEnable && v == cfg.disableValue then false
    else if off == cfg.offEnable && v == cfg.enableValue then true
    else EnabledIn cfg es
  | _ :: es => EnabledIn cfg es

/-- Any event but a poll and the outcome of a wait. -/
def Event.notWait : Event → Bool
  | .poll _ => false
  | .gate _ => false
  | .opBegin _ _ => true
  | .opEnd _ _ => true
  | .shWrite _ _ _ => true
  | .shRead _ _ => true
  | .regWrite _ _ => true
  | .hostRead _ _ => true
  | .callback _ _ => true
  | .fault _ => true

/-- The serial write of a PLAY command is in the history (R45, R130): a write of the serial slot that follows, its waits
aside, the read of that slot and, before it, the write of CMD_PLAY to the command slot. Only SEND_COMMAND reads the
serial slot. -/
def PlayedIn (cfg : Params) (h : List Event) : Prop :=
  ∃ newer older v n e e', h = newer ++ .shWrite cfg.offSerial v e :: older ∧
    (older.filter Event.notWait).take 2 = [.shRead cfg.offSerial n, .shWrite cfg.offCmd cfg.cmdPlay e']

/-- `QuietWhileDisabled` (R45), of the moves made so far. -/
def QuietWhileDisabled (s : State) : Prop :=
  ∀ n m, (n, m) ∈ s.moved → EnabledIn s.cfg (s.historyAt n) = true

/-- `NoIrqBeforePlay` (R45, R206), of the run from r to s: irq_pending is false where the run begins, unless PLAY has been
sent before, and no signal was made before the first PLAY command's serial write. At reset irq_pending is a draw, so a
claim about a run from reset names State.reset as r. -/
def NoIrqBeforePlay (r s : State) : Prop :=
  (r.irqPending = true → PlayedIn r.cfg r.events) ∧
    ∀ n, (n, EnvMove.raiseIrq) ∈ s.moved → PlayedIn s.cfg (s.historyAt n)

/-- `RegionFits` (R245): both halves lie inside the channel region. -/
def RegionFits (s : State) : Prop :=
  ∀ b c, s.dev.blockSize = some b → s.dev.channels = some c → 2 * halfSize b c ≤ s.cfg.regionSize

/-- The bytes of half o of the regions that c channels use, for block size b (R90, R146). -/
def halfSpan (cfg : Params) (c : Channels) (b : Word) (o : Nat) (a : Nat) : Prop :=
  span (cfg.leftBase + o) (halfSize b c) a ∨ (c = .stereo ∧ span (cfg.rightBase + o) (halfSize b c) a)

/-- A buffer-boundary event was signalled in the run from r to s, and the coprocessor's move m was made in t after it:
moves are listed newest first. -/
def SignalledBefore (r s t : State) (m : EnvMove) : Prop :=
  ∃ newer between older k n, t.moved = newer ++ (n, m) :: (between ++ (k, .raiseIrq) :: older) ∧
    r.moved.length ≤ older.length ∧ older.length < s.moved.length

/-- `RefillBeforeConsume` (R245) for the REFILL that begins in s, alone or inside INTERRUPT, where r is the state in which
the REFILL before it began, or the run: after each buffer-boundary event signalled from r to s, the coprocessor reads no
word of the half that this REFILL writes until this REFILL has ended. -/
def RefillBeforeConsume (r s : State) : Prop :=
  ∀ c b o off, s.dev.channels = some c → s.dev.blockSize = some b → s.dev.nextFillOffset = some o →
    SignalledBefore r s (refill s).state (.coprocRead off) → ∀ a, span off 4 a → ¬ halfSpan s.cfg c b o.toNat a

/-- No wait timed out: "no E_GATE(false) in the history" (R39, R248). -/
def NoTimeout (s : State) : Prop := Event.gate false ∉ s.events

/-! ### What an operation leaves alone -/

/-- What an operation on the bus leaves alone from s to t, whatever it stores: the parameters, the Device State, the
lifecycle, the enable state and the register block, the control port, the turns and what the host has in store. The pending
bit can only be set, and only by the environment. -/
structure KeepsBlock (s t : State) : Prop where
  cfg : t.cfg = s.cfg
  dev : t.dev = s.dev
  initialized : t.initialized = s.initialized
  dead : t.dead = s.dead
  coprocEnabled : t.coprocEnabled = s.coprocEnabled
  regEnable : t.regEnable = s.regEnable
  regIntrClear : t.regIntrClear = s.regIntrClear
  port : t.inp.port = s.inp.port
  turns : t.inp.turns = s.inp.turns
  sink : t.inp.sink = s.inp.sink
  irq : s.irqPending = true → t.irqPending = true
  irq_quiet : NoIrqMoves s → t.irqPending = s.irqPending

/-- From s to t, every shared-memory byte outside W is left alone, but for what the coprocessor writes. -/
def KeepsSh (W : Nat → Prop) (s t : State) : Prop :=
  ∀ a, ¬ W a → ¬ s.inp.Moves (EnvMove.WritesSh a) → t.sh.get a = s.sh.get a

/-- From s to t, every host byte that the host framework leaves alone is left alone: the block only reads host memory
(R38). -/
def KeepsHost (s t : State) : Prop := ∀ S, HostNoWrite S s → ∀ a, S a → t.host.get a = s.host.get a

/-- The operation ended with the result r: the lock is released and no fault was raised (R202, R203). -/
structure EndsWith (r : Result) (s t : State) : Prop where
  result : t.result = some r
  fault : t.fault = s.fault
  active : t.active = none

/-- From s to t only the environment moved: what the block itself holds is as it was. -/
structure OnlyEnvMoved (s t : State) : Prop where
  keeps : KeepsBlock s t
  fault : t.fault = s.fault
  active : t.active = s.active
  position : t.position = s.position
  gateOk : t.gateOk = s.gateOk
  result : t.result = s.result
  events : t.events = s.events
  sh : s.sh.wf = true → KeepsSh (fun _ => False) s t
  host : t.host = s.host

/-- The events bus work can add: polls, gates, shared-memory words, host reads, and a fault. -/
def Event.onBus : Event → Bool
  | .opBegin _ _ => false
  | .opEnd _ _ => false
  | .poll _ => true
  | .gate _ => true
  | .shWrite _ _ _ => true
  | .shRead _ _ => true
  | .regWrite _ _ => false
  | .hostRead _ _ => true
  | .callback _ _ => false
  | .fault _ => true

/-- The context an operation runs in (R207, R213). -/
def contextOf (i : Instr) : Context := if i = .interrupt then .intr else .control

/-- The operation i, run in the context ctx from s, ended in t with the result r. In between it did bus work alone: it
stored to no shared-memory byte outside W and to no host byte, and its events are those of the bus. -/
structure BusRun (ctx : Context) (i : Instr) (r : Result) (W : Nat → Prop) (s t : State) : Prop where
  ends : EndsWith r s t
  keeps : KeepsBlock s t
  sh : KeepsSh W s t
  host : t.host = s.host
  events : ∃ es, t.events = .opEnd i r :: (es ++ .opBegin i ctx :: s.events) ∧ ∀ e ∈ es, e.onBus = true

/-- The operation i, run in the context ctx, recorded the fault f and halted the block in t (R200). -/
structure Faults (ctx : Context) (i : Instr) (f : BlockFault) (t : State) : Prop where
  fault : t.fault = some f
  active : t.active = some (ctx, i)
  result : t.result = none
  event : t.events.head? = some (.fault f)

/-- The state after an operation that does nothing of its own but answer r: it began, the environment moved, it ended. -/
def answered (i : Instr) (r : Result) (s : State) : State := (s.beginOp (contextOf i) i).envTick.endOp i r

/-- The state after an operation that does nothing but raise the fault f: it began, the environment moved, the fault was
recorded. -/
def stopped (i : Instr) (f : BlockFault) (s : State) : State := (s.beginOp (contextOf i) i).envTick.recordFault f

/-- Any event but a poll. -/
def Event.notPoll : Event → Bool
  | .poll _ => false
  | .opBegin _ _ => true
  | .opEnd _ _ => true
  | .gate _ => true
  | .shWrite _ _ _ => true
  | .shRead _ _ => true
  | .regWrite _ _ => true
  | .hostRead _ _ => true
  | .callback _ _ => true
  | .fault _ => true

/-- An invocation of the sink. -/
def Event.isCallback : Event → Bool
  | .callback _ _ => true
  | .opBegin _ _ => false
  | .opEnd _ _ => false
  | .poll _ => false
  | .gate _ => false
  | .shWrite _ _ _ => false
  | .shRead _ _ => false
  | .regWrite _ _ => false
  | .hostRead _ _ => false
  | .fault _ => false

/-- A shared-memory word write. -/
def Event.isShWrite : Event → Bool
  | .shWrite _ _ _ => true
  | .opBegin _ _ => false
  | .opEnd _ _ => false
  | .poll _ => false
  | .gate _ => false
  | .shRead _ _ => false
  | .regWrite _ _ => false
  | .hostRead _ _ => false
  | .callback _ _ => false
  | .fault _ => false

/-- The gate that guards the next shared-memory word of the operation in progress, and how many words of its burst are
written already (R102): read off a history, newest event first. -/
def guardOf : List Event → Option (Bool × Nat)
  | [] => none
  | .opBegin _ _ :: _ => none
  | .opEnd _ _ :: _ => none
  | .gate g :: _ => some (g, 0)
  | .shWrite _ _ _ :: es => (guardOf es).map fun p => (p.1, p.2 + 1)
  | .poll _ :: es => guardOf es
  | .shRead _ _ :: es => guardOf es
  | .regWrite _ _ :: es => guardOf es
  | .hostRead _ _ :: es => guardOf es
  | .callback _ _ :: es => guardOf es
  | .fault _ :: es => guardOf es

/-- Every shared-memory word of the history was written in a burst that a wait of the same operation guards, as one of
its first depth words, and exactly when that wait was ready (R102, R103, R241). -/
def BurstsGuarded (depth : Nat) (h : List Event) : Prop :=
  ∀ newer off v e older, h = newer ++ .shWrite off v e :: older → ∃ k, guardOf older = some (e, k) ∧ k < depth

/-- What a SEND_PARAM adds to a history, its polls aside, newest first (R131): n is the serial it reads, g1 to g4 the
outcomes of its waits. -/
def paramEvents (cfg : Params) (cmd l r n : Word) (g1 g2 g3 g4 : Bool) : List Event :=
  [.shWrite cfg.offSerial (n + 1) g4, .gate g4, .shRead cfg.offSerial n, .shWrite cfg.offCmd cmd g3, .gate g3,
    .shWrite cfg.offRparam r g2, .gate g2, .shWrite cfg.offLparam l g1, .gate g1]

/-! ### What the writers and a refill store -/

/-- How many bytes WRITE_DEINT16 stores: whole words for len / 2 samples (R115). -/
def deint16Bytes (len : Nat) : Nat := 4 * ((len / 2 + 1) / 2)

/-- How many bytes WRITE_DEINT8 stores (R120, R125). -/
def deint8Bytes (len : Nat) : Nat := 4 * (len / 4)

/-- How many bytes WRITE_BLOCK stores: whole words (R110). -/
def blockBytes (len : Nat) : Nat := 4 * wordsFor len

/-- How many bytes a refill of b host bytes stores in each region it writes (R145). -/
def refillBytes (p : Precision) (c : Channels) (b : Nat) : Nat :=
  match c, p with
  | .stereo, .bits16 => deint16Bytes (b / 2)
  | .stereo, .bits8 => deint8Bytes (b / 2)
  | .mono, _ => blockBytes b

/-- The shared-memory bytes a refill stores to, at half offset o (R145). -/
def refillSpan (cfg : Params) (p : Precision) (c : Channels) (b o : Nat) (a : Nat) : Prop :=
  span (cfg.leftBase + o) (refillBytes p c b) a ∨ (c = .stereo ∧ span (cfg.rightBase + o) (refillBytes p c b) a)

/-- What a refill of b host bytes at cursor q leaves at half offset o (R145, R89, R90): a stereo 16-bit block is split into
the left samples at q + 4k and the right ones at q + 2 + 4k; of a stereo 8-bit block the first 4 * (b / 8) samples of each
channel are there, left from q + 2k, right from q + 1 + 2k; a mono block is copied to the left half. -/
structure HoldsBlock (cfg : Params) (p : Precision) (c : Channels) (b o q : Nat) (host sh : Memory) : Prop where
  stereo16 : c = .stereo → p = .bits16 → ∀ k j, k < b / 4 → j < 2 →
    sh.get (cfg.leftBase + o + 2 * k + j) = host.get (q + 4 * k + j) ∧
      sh.get (cfg.rightBase + o + 2 * k + j) = host.get (q + 2 + 4 * k + j)
  stereo8 : c = .stereo → p = .bits8 → ∀ k, k < 4 * (b / 8) →
    sh.get (cfg.leftBase + o + k) = host.get (q + 2 * k) ∧ sh.get (cfg.rightBase + o + k) = host.get (q + 1 + 2 * k)
  mono : c = .mono → ∀ k, k < b → sh.get (cfg.leftBase + o + k) = host.get (q + k)

/-- The Device State holds what a refill reads (R144). -/
structure RefillReads (d : Device) (p : Precision) (c : Channels) (b o q bs be : Word) : Prop where
  precision : d.precision = some p
  channels : d.channels = some c
  blockSize : d.blockSize = some b
  nextFillOffset : d.nextFillOffset = some o
  bufferCursor : d.bufferCursor = some q
  bufferStart : d.bufferStart = some bs
  bufferEnd : d.bufferEnd = some be

/-- The first UNSET field a refill comes to (R144). -/
def firstUnset (d : Device) : Option Field :=
  if d.precision = none then some .precision
  else if d.channels = none then some .channels
  else if d.blockSize = none then some .blockSize
  else if d.nextFillOffset = none then some .nextFillOffset
  else if d.bufferCursor = none then some .bufferCursor
  else if d.bufferStart = none then some .bufferStart
  else if d.bufferEnd = none then some .bufferEnd
  else none

/-- The addresses of a refill are aligned and lie inside their spaces, and its length suits its layout (R142, R236). -/
structure RefillFits (cfg : Params) (p : Precision) (c : Channels) (b o q : Nat) : Prop where
  left_aligned : (cfg.leftBase + o) % 4 = 0
  left_inside : cfg.leftBase + o + refillBytes p c b ≤ cfg.shmemSize
  right_aligned : c = .stereo → (cfg.rightBase + o) % 4 = 0
  right_inside : c = .stereo → cfg.rightBase + o + refillBytes p c b ≤ cfg.shmemSize
  even : c = .stereo → p = .bits16 → b / 2 % 2 = 0
  host_inside : q + b ≤ 2 ^ 32

/-- The Device State after a refill (R144). -/
def Device.refilled (d : Device) (c : Channels) (b o q bs be : Word) : Device :=
  { d with bufferCursor := some (nextCursor bs be q b), nextFillOffset := some (nextHalf o b c) }

/-- The Device State after START (R141, R151): two refills done, the callback registered. -/
def Device.started (d : Device) (bs be b sink arg : Word) : Device :=
  { d with
    bufferStart := some bs, bufferEnd := some be, blockSize := some b, nextFillOffset := some 0
    bufferCursor := some (word (bs.toNat + 2 * b.toNat % (be.toNat - bs.toNat)))
    callback := some sink, callbackArg := some arg }

/-- What R236 asks of START's operands, for format p and c. -/
structure StartFits (cfg : Params) (c : Channels) (bs be b sink : Word) : Prop where
  sink : sink ≠ 0
  pos : 0 < b.toNat
  size : b.toNat % (4 * c.toNat) = 0
  bounds : bs.toNat < be.toNat
  whole : (be.toNat - bs.toNat) % b.toNat = 0
  left_inside : cfg.leftBase + 2 * halfSize b c ≤ cfg.shmemSize
  right_inside : c = .stereo → cfg.rightBase + 2 * halfSize b c ≤ cfg.shmemSize

/-- The two halves of the regions a format uses (R90, R146). -/
def halvesSpan (cfg : Params) (c : Channels) (b : Word) (a : Nat) : Prop :=
  span cfg.leftBase (2 * halfSize b c) a ∨ (c = .stereo ∧ span cfg.rightBase (2 * halfSize b c) a)

/-- The command and serial slots, which SEND_COMMAND stores to (R33, R130). -/
def commandSpan (cfg : Params) (a : Nat) : Prop := span cfg.offCmd 4 a ∨ span cfg.offSerial 4 a

/-- The slots SEND_PARAM stores to (R33, R131). -/
def paramSpan (cfg : Params) (a : Nat) : Prop :=
  span cfg.offLparam 4 a ∨ span cfg.offRparam 4 a ∨ commandSpan cfg a

/-- The slots START stores to (R33, R141). -/
def playSpan (cfg : Params) (a : Nat) : Prop :=
  span cfg.offBlocksize 4 a ∨ span cfg.offChannel 4 a ∨ span cfg.offRate 4 a ∨ span cfg.offPrecision 4 a ∨
    commandSpan cfg a

/-! ### Admission -/

/-- The operand count of a tag (R83). -/
def operandCount (tag : Nat) : Nat :=
  if tag = 0x03 then 5
  else if tag = 0x07 then 4
  else if tag ∈ [0x02, 0x0A, 0x0B, 0x0C, 0x0E] then 3
  else if tag ∈ [0x08, 0x0D, 0x10, 0x11, 0x12] then 1
  else 0

/-- A record the control path may not present (R84): (a) an unassigned tag, (b) a reserved bit, (c) too few operand
words, (d) an operand too wide, (e) INTERRUPT. -/
def Refusable (r : Record) : Prop :=
  headerTag r.header = 0 ∨ 0x14 < headerTag r.header ∨ headerReserved r.header ≠ 0 ∨
    r.operands.length < operandCount (headerTag r.header) ∨
    (headerTag r.header = 0x07 ∧ (255 < (r.operands.getD 2 0).toNat ∨ 255 < (r.operands.getD 3 0).toNat)) ∨
    headerTag r.header = 0x06

/-- The state in which a record has been taken off the port at a boundary: the environment has moved, the turn and the
record are used up. -/
def presented (s : State) (ts : List Agent) (rest : List Record) : State :=
  s.envTick.setInp { s.envTick.inp with turns := ts, port := rest }

/-- n INTERRUPTs in a row, none of which raises a fault. -/
def Interrupts : Nat → State → State → Prop
  | 0, s, t => s = t
  | n + 1, s, t => ∃ u, exec .interrupt s = .next u ∧ u.fault = none ∧ Interrupts n u t

/-- n refills in a row, each by REFILL or by INTERRUPT, none of which raises a fault. -/
def Refills : Nat → State → State → Prop
  | 0, s, t => s = t
  | n + 1, s, t => ∃ u, (exec .refill s = .next u ∨ exec .interrupt s = .next u) ∧ u.fault = none ∧ Refills n u t

/-! ### The invariant -/

/-- The memories are in canonical form and hold no byte outside their spaces (R50, R51, R53). -/
structure MemoryInv (s : State) : Prop where
  sh_wf : s.sh.wf = true
  sh_inside : ∀ c ∈ s.sh, c.1 < s.cfg.shmemSize
  host_wf : s.host.wf = true
  host_inside : ∀ c ∈ s.host, c.1 < Config.hostSize

/-- The Device State is consistent (R22 to R30): the format is set as a whole and its rate is legal, the buffer fields are
set as a whole and meet START's check, the cursor lies on a block boundary inside the buffer (R29 I1, R151), and a
callback is registered only with a buffer and an argument. -/
structure DeviceInv (cfg : Params) (d : Device) : Prop where
  format : (d.precision = none ∧ d.channels = none ∧ d.rate = none) ∨
    ∃ p c r, d.precision = some p ∧ d.channels = some c ∧ d.rate = some r ∧ rateLegal cfg r = true
  buffer : (d.bufferStart = none ∧ d.bufferEnd = none ∧ d.bufferCursor = none ∧ d.blockSize = none ∧
      d.nextFillOffset = none) ∨
    ∃ bs be q b o, d.bufferStart = some bs ∧ d.bufferEnd = some be ∧ d.bufferCursor = some q ∧
      d.blockSize = some b ∧ d.nextFillOffset = some o ∧ 0 < b.toNat ∧ bs.toNat ≤ q.toNat ∧ q.toNat < be.toNat ∧
      (be.toNat - bs.toNat) % b.toNat = 0 ∧ (q.toNat - bs.toNat) % b.toNat = 0
  playing : ∀ cb, d.callback = some cb → cb ≠ 0 →
    d.precision ≠ none ∧ d.bufferCursor ≠ none ∧ d.callbackArg ≠ none

/-- What holds at reset and is kept by every step. -/
structure Inv (s : State) : Prop where
  memory : MemoryInv s
  device : DeviceInv s.cfg s.dev
  /-- at a step's end an operation is still marked active only if it raised a fault (R40, R200) -/
  lock : s.active ≠ none → s.fault ≠ none
  /-- without an operation in progress there is no position in its pseudocode (R21) -/
  position : s.active = none → s.position = 0
  /-- INIT succeeded or failed, not both (R32) -/
  lifecycle : s.initialized = true → s.dead = false
  /-- a successful INIT has set the volumes and the callback (R25, R30, R44) -/
  up : s.initialized = true → s.dev.outputMaster ≠ none ∧ s.dev.outputGainLeft ≠ none ∧
    s.dev.outputGainRight ≠ none ∧ s.dev.callback ≠ none

end Sys2Proof.Machine
end

