-- ==== Sys2Proof/Certificates/Slice0/Obligations.lean ====
section
/-! DEFINITION. The statements for the provers, in the order of the spec's files: encoding, reset and the step, which
operation may write what, the Bus Gate, the Region Writer, the Command Channel, the Playback Engine, the mixer, the
Interrupt Handler, the host queries, INIT. -/

open Sys2Proof Sys2Proof.Machine

/-! ### Encoding (30_encoding.md) -/

/-- R81, R83, R85: the decoder gives back every well-formed operation with every operand, and takes exactly its words.
-/
def Obligations.DecodeOfEncode : Prop :=
  ∀ (i : Instr) (rest : List Word), i.WellFormed → decode (encode i ++ rest) = .ok (i, rest)

/-- R81, R83: the words the decoder takes for an operation are that operation's own encoding, so no two operations share
words and no bit of a header or an operand is dropped. -/
def Obligations.DecodedWordsAreTheEncoding : Prop :=
  ∀ (ws rest : List Word) (i : Instr), decode ws = .ok (i, rest) → ws = encode i ++ rest ∧ i.WellFormed

/-- Words written out from R81, R83 and R84, the example of R86 among them. -/
def Obligations.ExampleWordsDecode : Prop :=
  decode [0x00000003, 0x00008000, 0x00009000, 0x00000400, 0x00000001, 0x00000007] =
      .ok (.start 0x8000 0x9000 1024 1 7, []) ∧
    decode [0x00000006] = .ok (.interrupt, []) ∧
    decode [0x00000007, 1, 2, 255, 0] = .ok (.mixerSet 1 2 255 0, []) ∧
    decode [0x00000007, 1, 2, 256, 0] = .error .operandTooWide ∧
    decode [0x0000000B, 0x2000, 0x100, 4, 9] = .ok (.writeDeint16 0x2000 0x100 4, [9]) ∧
    decode [0x0000000B, 0x2000, 0x100] = .error .shortRecord ∧
    decode [0x00000014] = .ok (.getLocks, []) ∧
    decode [0x00000015] = .error .unassignedTag ∧
    decode [0x00000114] = .error .reservedBits

/-- R84: a record of the cases (a) to (e) raises FAULT_REFUSED with its header word and nothing else happens; every
other record is a legal one (a mixer index outside 0..2 among them). Beside the fault, the step shows the environment's
own moves and that the record and the turn are used up (log 7, log 8). -/
def Obligations.RecordsAreRefusedExactly : Prop :=
  ∀ (s : State) (r : Record) (ts : List Agent) (rest : List Record), s.fault = none → s.active = none →
    s.inp.turns = .control :: ts → s.inp.port = r :: rest →
      (Refusable r → step s = .next ((presented s ts rest).envTick.recordFault (.refused r.header))) ∧
      (¬ Refusable r → ∃ i ws, decode r.words = .ok (i, ws) ∧ i ≠ .interrupt)

/-- R86: the example line assembles to its six words, and an operand may name a parameter with an offset. -/
def Obligations.AssemblerNotation : Prop :=
  ∀ p : Params,
    assemble p "START 0x8000, 0x9000, 1024, 1, 7" =
      .ok (some ⟨0x00000003, [0x00008000, 0x00009000, 0x00000400, 0x00000001, 0x00000007]⟩) ∧
    (p.leftBase + 512 < 2 ^ 32 →
      parseOperand p "LEFT_BASE+512".toList = .ok (BitVec.ofNat 32 (p.leftBase + 512)))

/-! ### Reset, the step and the lifecycle -/

/-- R44, R230: the reset values the spec states. -/
def Obligations.ResetState : Prop :=
  State.reset.initialized = false ∧ State.reset.dead = false ∧ State.reset.fault = none ∧ State.reset.active = none ∧
    State.reset.dev = { precision := none, channels := none, rate := none, outputMaster := none,
                        outputGainLeft := none, outputGainRight := none, bufferStart := none, bufferEnd := none,
                        bufferCursor := none, blockSize := none, nextFillOffset := none, callback := none,
                        callbackArg := none } ∧
    State.reset.coprocEnabled = none ∧ State.reset.gateOk = none ∧ State.reset.events = []

/-- The invariant holds at reset. -/
def Obligations.InvAtReset : Prop := Inv State.reset

/-- Every step keeps the invariant: canonical memories inside their spaces, a consistent Device State, the lock, the
lifecycle. -/
def Obligations.StepKeepsInv : Prop := ∀ s t : State, Inv s → step s = .next t → Inv t

/-- R202 steps 3 to 5: at the control path's turn, a record that decodes to an operation the block admits runs as that
operation, in the state in which the environment has moved and the record and the turn are used up. -/
def Obligations.StepRunsTheDecodedOperation : Prop :=
  ∀ (s : State) (r : Record) (ts : List Agent) (rest : List Record) (i : Instr) (ws : List Word), s.fault = none →
    s.active = none → s.inp.turns = .control :: ts → s.inp.port = r :: rest → decode r.words = .ok (i, ws) →
      i ≠ .interrupt → (i = .init ∨ (s.initialized = true ∧ s.dead = false)) → step s = exec i (presented s ts rest)

/-- R202 step 4, R231: before a successful INIT, and after a failed one, every operation but INIT raises
FAULT_NOT_INIT with its tag. Beside that, the next state is the model's choice: the environment moves at the boundary and
before E_FAULT (log 2), the turn is used up (log 7), the record leaves the port (log 8, DEDUCED and unsafe), and active
stays NONE, because no operation has begun (log 19). -/
def Obligations.OperationsNeedInit : Prop :=
  ∀ (s : State) (r : Record) (ts : List Agent) (rest : List Record) (i : Instr) (ws : List Word), s.fault = none →
    s.active = none → s.inp.turns = .control :: ts → s.inp.port = r :: rest → decode r.words = .ok (i, ws) →
      i ≠ .interrupt → i ≠ .init → (s.initialized = false ∨ s.dead = true) →
        step s = .next ((presented s ts rest).envTick.recordFault (.notInit i.tag))

/-- R171: at the interrupt path's turn INTERRUPT begins exactly when irq_pending and initialized hold, once the
environment has moved; else the step only lets the environment move and uses up the turn (log 7). -/
def Obligations.InterruptDelivery : Prop :=
  ∀ (s u : State) (ts : List Agent), s.fault = none → s.active = none → s.inp.turns = .interrupt :: ts →
    u = s.envTick.setInp { s.envTick.inp with turns := ts } →
      step s = if u.irqPending = true ∧ u.initialized = true then exec .interrupt u else .next u

/-- R202 step 2, R209: while an operation is in progress, every record holds and no INTERRUPT begins: a step is the
environment's moves alone (log 15). Those moves, in any state, leave what the block itself holds as it was (R22 to R42: only
its own operations write it), the pending bit aside, which they can only set (R37). -/
def Obligations.LockedBlockHolds : Prop :=
  ∀ s : State, OnlyEnvMoved s s.envTick ∧
    ∀ (c : Context) (i : Instr), s.fault = none → s.active = some (c, i) → step s = .next s.envTick

/-- R200, R202 step 1, R211 (c): a block with a fault takes no step. -/
def Obligations.HaltedBlockTakesNoStep : Prop := ∀ (s : State) (f : BlockFault), s.fault = some f → step s = .fault (.halted f)

/-- R200, R202, R207, R208, R210: every operation either ends with a result and releases the lock, or raises a fault that
halts the block with the lock still held and no result. The history records where it began and how it ended. That a fault
too is a next state is the model's choice (log 9), and so is that the position an operation has reached, which a fault
keeps, is the number of its events since it began (log 2). -/
def Obligations.OperationsEndOrFault : Prop :=
  ∀ (i : Instr) (s : State), s.fault = none → ∃ t, exec i s = .next t ∧
    ((t.fault = none ∧ t.active = none ∧ ∃ r es, t.result = some r ∧
        t.events = .opEnd i r :: (es ++ .opBegin i (contextOf i) :: s.events)) ∨
      ∃ f es, Faults (contextOf i) i f t ∧ t.position = es.length ∧
        t.events = .fault f :: (es ++ .opBegin i (contextOf i) :: s.events))

/-- R32, R7: only INIT writes initialized and dead, and no operation writes a parameter, the control port or the
turns. -/
def Obligations.OnlyInitChangesTheLifecycle : Prop :=
  ∀ (i : Instr) (s t : State), exec i s = .next t →
    (i ≠ .init → t.initialized = s.initialized ∧ t.dead = s.dead) ∧ t.cfg = s.cfg ∧ t.inp.port = s.inp.port ∧
      t.inp.turns = s.inp.turns

/-- R22 to R24, R29 (I3), R242: precision, channels and rate change only by SET_FORMAT, and only while the callback is
NULL. -/
def Obligations.FormatChangesOnlyWhileIdle : Prop :=
  ∀ (i : Instr) (s t : State), exec i s = .next t →
    (t.dev.precision = s.dev.precision ∧ t.dev.channels = s.dev.channels ∧ t.dev.rate = s.dev.rate) ∨
      ∃ p c r, i = .setFormat p c r ∧ s.dev.callback = some 0

/-- R25, R30, R31: on an initialized block only MIXER_SET writes the volumes; Playing is entered by START alone, from
Idle, and left by STOP alone. -/
def Obligations.PlayingAndVolumesHaveTheirWriters : Prop :=
  ∀ (i : Instr) (s t : State), s.initialized = true → exec i s = .next t →
    ((∀ x n v0 v1, i ≠ .mixerSet x n v0 v1) → t.dev.outputMaster = s.dev.outputMaster ∧
      t.dev.outputGainLeft = s.dev.outputGainLeft ∧ t.dev.outputGainRight = s.dev.outputGainRight) ∧
    (¬ s.Playing → t.Playing → s.dev.callback = some 0 ∧ ∃ bs be b sink arg, i = .start bs be b sink arg) ∧
    (s.Playing → ¬ t.Playing → i = .stop)

/-- R37, R205: only INTERRUPT clears irq_pending, and only one that ends with HANDLED. The premise keeps the two registers
apart. -/
def Obligations.OnlyInterruptClearsIrqPending : Prop :=
  ∀ (i : Instr) (s t : State), s.cfg.offEnable ≠ s.cfg.offIntrClear → exec i s = .next t → s.irqPending = true →
    t.irqPending = false → i = .interrupt ∧ t.result = some ⟨.handled, []⟩

/-- R38, R57, R174, R243 (d), 92 D27: no operation writes host memory. Only the host framework does, and only during
E_CALLBACK: the environment's moves between events leave it alone, and an operation ends with the host memory it began
with but for one slot of the host's writes for each E_CALLBACK it made. One that invokes no sink leaves every byte, so a
refill reads the bytes that stood when it began. -/
def Obligations.BlockNeverWritesHostMemory : Prop :=
  (∀ s : State, s.envTick.host = s.host) ∧
  ∀ (i : Instr) (s t : State) (es : List Event) (n : Nat), exec i s = .next t → t.events = es ++ s.events →
    n = (es.filter Event.isCallback).length →
      t.host = s.host.writes (s.inp.sink.take n).flatten ∧ t.inp.sink = s.inp.sink.drop n ∧
        (n = 0 → t.host = s.host) ∧ (s.host.wf = true → KeepsHost s t)

/-- R52: the register block is written only by INIT, at the enable register, and by INTERRUPT, at the status-clear
register, each with its own values. -/
def Obligations.RegisterBlockWriters : Prop :=
  ∀ (i : Instr) (s t : State) (es : List Event), exec i s = .next t → t.events = es ++ s.events →
    ∀ off v, Event.regWrite off v ∈ es →
      (i = .init ∧ off = s.cfg.offEnable ∧ (v = s.cfg.enableValue ∨ v = s.cfg.disableValue)) ∨
        (i = .interrupt ∧ off = s.cfg.offIntrClear ∧ v = s.cfg.ackValue)

/-! ### Bus Gate and memory primitives (40_bus_gate.md, 20_memory.md) -/

/-- R102, R103, R241: in every run, every shared-memory word the block writes lies in a burst that a wait of the same
operation guards, is one of the burst's first FIFO_DEPTH_WORDS words, and is exact just when that wait was ready: an
invariant of every step, which holds at reset. -/
def Obligations.EveryBurstIsGuarded : Prop :=
  BurstsGuarded State.reset.cfg.fifoDepthWords State.reset.events ∧
    ∀ s t : State, s.cfg.Valid → BurstsGuarded s.cfg.fifoDepthWords s.events → step s = .next t →
      BurstsGuarded t.cfg.fifoDepthWords t.events

/-- R101: WAIT_READY polls until a poll is ready, at most WAIT_LIMIT times and at least once, records the outcome in
gate_ok, answers OK either way, and writes nothing. -/
def Obligations.WaitReady : Prop :=
  ∀ s : State, 1 ≤ s.cfg.waitLimit → s.sh.wf = true → ∃ t g v vs, exec .waitReady s = .next t ∧
    BusRun .control .waitReady resultOk (fun _ => False) s t ∧ t.gateOk = some g ∧
    t.events = .opEnd .waitReady resultOk :: .gate g :: ((v :: vs).map Event.poll ++ .opBegin .waitReady .control :: s.events) ∧
    vs.length + 1 ≤ s.cfg.waitLimit ∧ (∀ w ∈ vs, w &&& s.cfg.readyMask = 0) ∧
    (g = true → v &&& s.cfg.readyMask ≠ 0) ∧
    (g = false → v &&& s.cfg.readyMask = 0 ∧ vs.length + 1 = s.cfg.waitLimit)

/-- R55: the shared-memory word access. Alignment is checked first, then the range, then (for a write) that some wait has
been made; a read gives the little-endian word that stands there once the environment has moved; a write lands exactly
after a ready wait, and as any four bytes (b0 to b3, the coming draws) after a timeout, and leaves every other byte
alone. -/
def Obligations.SharedMemoryWordAccess : Prop :=
  ∀ (s : State) (off : Nat) (v : Word), s.sh.wf = true →
    (off % 4 ≠ 0 → memReadSh off s = .raised (s.envTick.recordFault (.align off)) ∧
      memWriteSh off v s = .raised (s.envTick.recordFault (.align off))) ∧
    (off % 4 = 0 → s.cfg.shmemSize < off + 4 → memReadSh off s = .raised (s.envTick.recordFault (.range .sh off)) ∧
      memWriteSh off v s = .raised (s.envTick.recordFault (.range .sh off))) ∧
    (off % 4 = 0 → off + 4 ≤ s.cfg.shmemSize →
      (∃ w t, memReadSh off s = .ok w t ∧ t.events = .shRead off w :: s.events ∧ t.sh = s.envTick.sh ∧
        ∀ k, k < 4 → wordByte w k = t.sh.get (off + k)) ∧
      (s.gateOk = none → memWriteSh off v s = .raised (s.envTick.recordFault (.unset .gateOk))) ∧
      (s.gateOk = some true → ∃ t, memWriteSh off v s = .ok () t ∧ t.events = .shWrite off v true :: s.events ∧
        (∀ k, k < 4 → t.sh.get (off + k) = wordByte v k) ∧
        ∀ a, ¬ span off 4 a → t.sh.get a = s.envTick.sh.get a) ∧
      (s.gateOk = some false → ∀ b0 b1 b2 b3 bs, s.inp.bytes = b0 :: b1 :: b2 :: b3 :: bs →
        ∃ t, memWriteSh off v s = .ok () t ∧ t.events = .shWrite off v false :: s.events ∧
          t.sh.getBytes off 4 = [b0, b1, b2, b3] ∧ ∀ a, ¬ span off 4 a → t.sh.get a = s.envTick.sh.get a))

/-- R56: the register write. Only the range is checked; the enable and disable values at REG_ENABLE set coproc_enabled, and
the acknowledge value at REG_INTR_CLEAR clears irq_pending. -/
def Obligations.RegisterWrite : Prop :=
  ∀ (s : State) (off : Nat) (v : Word), s.cfg.enableValue ≠ s.cfg.disableValue →
    (s.cfg.regsSize < off + 4 → memWriteReg off v s = .raised (s.envTick.recordFault (.range .reg off))) ∧
    (off + 4 ≤ s.cfg.regsSize → ∃ t, memWriteReg off v s = .ok () t ∧ t.events = .regWrite off v :: s.events ∧
      (off = s.cfg.offEnable → v = s.cfg.enableValue → t.coprocEnabled = some true) ∧
      (off = s.cfg.offEnable → v = s.cfg.disableValue → t.coprocEnabled = some false) ∧
      (off ≠ s.cfg.offEnable ∨ (v ≠ s.cfg.enableValue ∧ v ≠ s.cfg.disableValue) → t.coprocEnabled = s.coprocEnabled) ∧
      (off = s.cfg.offIntrClear → v = s.cfg.ackValue → t.irqPending = false) ∧
      (off ≠ s.cfg.offIntrClear ∨ v ≠ s.cfg.ackValue → t.irqPending = s.envTick.irqPending))

/-- R57: the host-memory read. Only the end of the address space is checked; the bytes are those that stand there, and they
stay. -/
def Obligations.HostMemoryRead : Prop :=
  ∀ (s : State) (addr n : Nat),
    (2 ^ 32 < addr + n → memReadHost addr n s = .raised (s.envTick.recordFault (.range .host addr))) ∧
    (addr + n ≤ 2 ^ 32 → ∃ b t, memReadHost addr n s = .ok b t ∧ t.events = .hostRead addr b :: s.events ∧
      b.length = n ∧ (∀ k, (h : k < b.length) → b[k] = s.host.get (addr + k)) ∧ t.host = s.host)

/-! ### Region Writer (41_region_writer.md) -/

/-- R58 (a), R110, R115, R120, R211 (b): a writer's offset that 4 does not divide raises FAULT_ALIGN before anything else, an
odd length of WRITE_DEINT16 raises FAULT_BAD_LEN next; no wait, no read and no write is made. -/
def Obligations.BadWriterOperandsFault : Prop :=
  ∀ (s : State) (i : Instr) (o src len : Word),
    (o.toNat % 4 ≠ 0 → i = .writeBlock o src len ∨ i = .writeDeint16 o src len ∨ i = .writeDeint8 o src len →
      exec i s = .next (stopped i (.align o.toNat) s)) ∧
    (o.toNat % 4 = 0 → len.toNat % 2 ≠ 0 → i = .writeDeint16 o src len →
      exec i s = .next (stopped i (.badLen len.toNat) s))

/-- R110, R115, R120: a zero length is a no-op at any source address, but for the alignment check: no wait, no read, no
write. -/
def Obligations.ZeroLengthIsANoOp : Prop :=
  ∀ (s : State) (i : Instr) (o src : Word), o.toNat % 4 = 0 →
    i = .writeBlock o src 0 ∨ i = .writeDeint16 o src 0 ∨ i = .writeDeint8 o src 0 →
      exec i s = .next (answered i ⟨.ok, []⟩ s)

/-- R110: WRITE_BLOCK completes when its offset is aligned and both ranges fit; it stores to the ceil(len / 4) words from
its offset and to nothing else; and, if no wait timed out, each of its len bytes is the host's, unless the coprocessor
wrote it meanwhile. -/
def Obligations.WriteBlockCopies : Prop :=
  ∀ (s : State) (o src len : Word), s.sh.wf = true → o.toNat % 4 = 0 →
    o.toNat + 4 * ((len.toNat + 3) / 4) ≤ s.cfg.shmemSize → src.toNat + len.toNat ≤ 2 ^ 32 →
      ∃ t, exec (.writeBlock o src len) s = .next t ∧
        BusRun .control (.writeBlock o src len) resultOk (span o.toNat (blockBytes len.toNat)) s t ∧
        (NoTimeout t → ∀ k, k < len.toNat → ¬ s.inp.Moves (EnvMove.WritesSh (o.toNat + k)) →
          t.sh.get (o.toNat + k) = s.host.get (src.toNat + k))

/-- R110, R211 (b): WRITE_BLOCK with an aligned offset raises FAULT_RANGE at the first word j that crosses: of the host if
its source bytes pass 2^32, else of shared memory if its word passes SHMEM_SIZE. -/
def Obligations.WriteBlockFaultsAtTheFirstBadWord : Prop :=
  ∀ (s : State) (o src len : Word) (j : Nat), o.toNat % 4 = 0 → 4 * j < len.toNat →
    (∀ k, k < j → src.toNat + 4 * k + min 4 (len.toNat - 4 * k) ≤ 2 ^ 32 ∧ o.toNat + 4 * k + 4 ≤ s.cfg.shmemSize) →
      (2 ^ 32 < src.toNat + 4 * j + min 4 (len.toNat - 4 * j) → ∃ t, exec (.writeBlock o src len) s = .next t ∧
        Faults .control (.writeBlock o src len) (.range .host (src.toNat + 4 * j)) t) ∧
      (src.toNat + 4 * j + min 4 (len.toNat - 4 * j) ≤ 2 ^ 32 → s.cfg.shmemSize < o.toNat + 4 * j + 4 →
        ∃ t, exec (.writeBlock o src len) s = .next t ∧
          Faults .control (.writeBlock o src len) (.range .sh (o.toNat + 4 * j)) t)

/-- R115: WRITE_DEINT16 completes when its offset is aligned, its length even, and its samples and words fit; it stores to
the ceil(len / 4) words from its offset and to nothing else. -/
def Obligations.WriteDeint16Completes : Prop :=
  ∀ (s : State) (o src len : Word), s.sh.wf = true → o.toNat % 4 = 0 → len.toNat % 2 = 0 →
    o.toNat + 4 * ((len.toNat / 2 + 1) / 2) ≤ s.cfg.shmemSize → src.toNat + 2 * len.toNat ≤ 2 ^ 32 + 2 →
      ∃ t, exec (.writeDeint16 o src len) s = .next t ∧
        BusRun .control (.writeDeint16 o src len) resultOk (span o.toNat (deint16Bytes len.toNat)) s t

/-- R120: WRITE_DEINT8 completes when its offset is aligned and its samples and words fit; it stores to the floor(len / 4)
words from its offset and to nothing else, so a trailing remainder of 1 to 3 samples leaves its bytes alone. -/
def Obligations.WriteDeint8Completes : Prop :=
  ∀ (s : State) (o src len : Word), s.sh.wf = true → o.toNat % 4 = 0 →
    o.toNat + 4 * (len.toNat / 4) ≤ s.cfg.shmemSize → src.toNat + 2 * len.toNat ≤ 2 ^ 32 + 1 →
      ∃ t, exec (.writeDeint8 o src len) s = .next t ∧
        BusRun .control (.writeDeint8 o src len) resultOk (span o.toNat (deint8Bytes len.toNat)) s t

/-- R125, R126: deinterleave correctness. From a stereo stream at host address a, with every wait ready and the
coprocessor leaving the destination alone meanwhile, WRITE_DEINT16 leaves sample k of the channel its pointer names (left
from a, right from a + 2) at o + 2k, for every number of samples. WRITE_DEINT8 of m samples leaves the first 4 * (m / 4)
of them at o + k (left from a, right from a + 1), and writes no byte after those. -/
def Obligations.DeinterleaveIsCorrect : Prop :=
  ∀ (s t : State) (o src len : Word) (a ch : Nat), s.sh.wf = true → NoTimeout t →
    t.result = some ⟨.ok, []⟩ → ch < 2 → CoprocNoWrite (span o.toNat len.toNat) s →
        (exec (.writeDeint16 o src len) s = .next t → src.toNat = a + 2 * ch → ∀ k j, k < len.toNat / 2 → j < 2 →
          t.sh.get (o.toNat + 2 * k + j) = s.host.get (a + 4 * k + 2 * ch + j)) ∧
        (exec (.writeDeint8 o src len) s = .next t → src.toNat = a + ch →
          (∀ k, k < 4 * (len.toNat / 4) → t.sh.get (o.toNat + k) = s.host.get (a + 2 * k + ch)) ∧
            ∀ k, 4 * (len.toNat / 4) ≤ k → k < len.toNat → t.sh.get (o.toNat + k) = s.sh.get (o.toNat + k))

/-! ### Command Channel (42_command_channel.md) -/

/-- R130, R34, R64 (iii): SEND_COMMAND completes. Its events but for the polls, newest first: it writes the command word,
reads the serial slot, and writes the value read plus one, each write in a burst of its own. It stores to the two slots
alone. If no wait timed out and the coprocessor left the slots alone, the command slot holds the word and the serial is
one more, mod 2^32. -/
def Obligations.SendCommandAnnouncesTheCommand : Prop :=
  ∀ (s : State) (cmd : Word), s.cfg.Valid → s.sh.wf = true →
    ∃ t g1 g2 n, exec (.sendCommand cmd) s = .next t ∧
      BusRun .control (.sendCommand cmd) resultOk (commandSpan s.cfg) s t ∧
      t.events.filter Event.notPoll =
        [.opEnd (.sendCommand cmd) resultOk, .shWrite s.cfg.offSerial (n + 1) g2, .gate g2, .shRead s.cfg.offSerial n,
          .shWrite s.cfg.offCmd cmd g1, .gate g1, .opBegin (.sendCommand cmd) .control]
          ++ s.events.filter Event.notPoll ∧
      (NoTimeout t → CoprocNoWrite (commandSpan s.cfg) s → n = s.sh.getWord s.cfg.offSerial ∧
        t.sh.getWord s.cfg.offSerial = n + 1 ∧ t.sh.getWord s.cfg.offCmd = cmd)

/-- R131, R64 (ii): SEND_PARAM completes. It writes the left parameter, the right parameter, the command word and the
serial increment, in this order, each in a burst of its own, and stores to these four slots alone. -/
def Obligations.SendParamWritesParametersFirst : Prop :=
  ∀ (s : State) (cmd l r : Word), s.cfg.Valid → s.sh.wf = true →
    ∃ t g1 g2 g3 g4 n, exec (.sendParam cmd l r) s = .next t ∧
      BusRun .control (.sendParam cmd l r) resultOk (paramSpan s.cfg) s t ∧
      t.events.filter Event.notPoll =
        [.opEnd (.sendParam cmd l r) resultOk, .shWrite s.cfg.offSerial (n + 1) g4, .gate g4,
          .shRead s.cfg.offSerial n, .shWrite s.cfg.offCmd cmd g3, .gate g3, .shWrite s.cfg.offRparam r g2, .gate g2,
          .shWrite s.cfg.offLparam l g1, .gate g1, .opBegin (.sendParam cmd l r) .control]
          ++ s.events.filter Event.notPoll ∧
      (NoTimeout t → CoprocNoWrite (paramSpan s.cfg) s → n = s.sh.getWord s.cfg.offSerial ∧
        t.sh.getWord s.cfg.offSerial = n + 1 ∧ t.sh.getWord s.cfg.offCmd = cmd ∧
        t.sh.getWord s.cfg.offLparam = l ∧ t.sh.getWord s.cfg.offRparam = r)

/-- R130, R131, R133, R244: in the interrupt context neither call does anything but raise FAULT_CMD_IN_INTERRUPT with
the command word. -/
def Obligations.CommandsInInterruptFault : Prop :=
  ∀ (s : State) (i : Instr) (cmd l r : Word), s.active = some (.intr, i) →
    sendCommand cmd s = .raised (s.envTick.recordFault (.cmdInInterrupt cmd)) ∧
      sendParam cmd l r s = .raised (s.envTick.recordFault (.cmdInInterrupt cmd))

/-! ### Playback Engine (43_playback_engine.md) -/

/-- R140: SET_FORMAT. Playing is checked before the values; a legal format is stored and nothing else changes; shared
memory is not touched. -/
def Obligations.SetFormat : Prop :=
  ∀ (s : State) (i : Instr) (p c r cb : Word), i = .setFormat p c r → s.dev.callback = some cb →
    (cb ≠ 0 → exec i s = .next (stopped i .formatWhilePlaying s)) ∧
    (cb = 0 → ¬ ((p = 8 ∨ p = 16) ∧ (c = 1 ∨ c = 2) ∧ s.cfg.rateMin ≤ r.toNat ∧ r.toNat ≤ 65536) →
      exec i s = .next (stopped i (.badFormat p c r) s)) ∧
    (cb = 0 → (p = 8 ∨ p = 16) → (c = 1 ∨ c = 2) → s.cfg.rateMin ≤ r.toNat → r.toNat ≤ 65536 →
      ∃ prec chan, BitVec.ofNat 32 (Precision.toNat prec) = p ∧ BitVec.ofNat 32 (Channels.toNat chan) = c ∧
        exec i s = .next (answered i ⟨.ok, []⟩ { s with
          dev := { s.dev with precision := some prec, channels := some chan, rate := some r } }))

/-- R141, R211 (b): START's own checks, in their order: Playing, the format (precision, channels, rate), the sink, the
buffer. A START they stop changes no Device State field and touches no memory. -/
def Obligations.StartChecksInOrder : Prop :=
  ∀ (s : State) (i : Instr) (bs be b sink arg cb : Word), i = .start bs be b sink arg → s.dev.callback = some cb →
    (∀ f, (cb ≠ 0 ∧ f = .startWhilePlaying) ∨
        (cb = 0 ∧ s.dev.precision = none ∧ f = .unset .precision) ∨
        (cb = 0 ∧ s.dev.precision ≠ none ∧ s.dev.channels = none ∧ f = .unset .channels) ∨
        (cb = 0 ∧ s.dev.precision ≠ none ∧ s.dev.channels ≠ none ∧ s.dev.rate = none ∧ f = .unset .rate) ∨
        (cb = 0 ∧ s.dev.precision ≠ none ∧ s.dev.channels ≠ none ∧ s.dev.rate ≠ none ∧ sink = 0 ∧ f = .badArg sink) ∨
        (∃ c, cb = 0 ∧ s.dev.precision ≠ none ∧ s.dev.channels = some c ∧ s.dev.rate ≠ none ∧ sink ≠ 0 ∧
          (b = 0 ∨ b.toNat % c.toNat ≠ 0 ∨ be.toNat ≤ bs.toNat ∨ (be.toNat - bs.toNat) % b.toNat ≠ 0) ∧
          f = .badBuffer bs be b) →
      exec i s = .next (stopped i f s))

/-- R141, R236, R151: a START that meets R236's constraints completes, Idle to Playing: the bounds, the block size, the
callback and its argument are stored, two refills have moved the cursor two blocks on and the half offset back to 0, and
nothing is stored to outside the two halves and the PLAY and command slots. -/
def Obligations.StartCompletes : Prop :=
  ∀ (s : State) (p : Precision) (c : Channels) (r bs be b sink arg : Word), s.cfg.Valid → s.sh.wf = true →
    s.dev.callback = some 0 → s.dev.precision = some p → s.dev.channels = some c →
      s.dev.rate = some r → StartFits s.cfg c bs be b sink →
        ∃ t, exec (.start bs be b sink arg) s = .next t ∧
          BusRun .control (.start bs be b sink arg) resultOk (fun a => halvesSpan s.cfg c b a ∨ playSpan s.cfg a)
            (s.setDev (s.dev.started bs be b sink arg)) t

/-- R141, R240, R64 (i), (ii), (iii): the order of START's writes. After E_BEGIN come the two priming refills, es, which
write each word of the halves in use and no other word, 4 bytes of destination for each 4 bytes of the two blocks; then
the PLAY parameters blocksize, channel, rate, precision, each in a burst of its own; then the command word PLAY; and the
serial increment last. -/
def Obligations.StartPrimesBeforePlay : Prop :=
  ∀ (s : State) (p : Precision) (c : Channels) (r bs be b sink arg : Word), s.cfg.Valid → s.dev.callback = some 0 →
    s.dev.precision = some p → s.dev.channels = some c → s.dev.rate = some r → StartFits s.cfg c bs be b sink →
      ∃ t es n g1 g2 g3 g4 g5 g6, exec (.start bs be b sink arg) s = .next t ∧
        t.events.filter Event.notPoll =
          [.opEnd (.start bs be b sink arg) resultOk,
            .shWrite s.cfg.offSerial (n + 1) g6, .gate g6, .shRead s.cfg.offSerial n,
            .shWrite s.cfg.offCmd s.cfg.cmdPlay g5, .gate g5,
            .shWrite s.cfg.offPrecision (word p.toNat) g4, .gate g4, .shWrite s.cfg.offRate r g3, .gate g3,
            .shWrite s.cfg.offChannel (word c.toNat) g2, .gate g2,
            .shWrite s.cfg.offBlocksize (word (b.toNat / c.toNat)) g1, .gate g1]
            ++ (es ++ .opBegin (.start bs be b sink arg) .control :: s.events.filter Event.notPoll) ∧
        (∀ off v g, Event.shWrite off v g ∈ es → span s.cfg.leftBase (2 * halfSize b c) off ∨
          (c = .stereo ∧ span s.cfg.rightBase (2 * halfSize b c) off)) ∧
        (∀ off, off % 4 = 0 → halvesSpan s.cfg c b off → ∃ v g, Event.shWrite off v g ∈ es) ∧
        4 * (es.filter Event.isShWrite).length = 2 * b.toNat

/-- R143: after a START that did not fault, with every wait ready and the slots left alone by the coprocessor, the PLAY
slots hold block_size / channels, channels, rate and precision, and the command slot holds CMD_PLAY. Where the halves do
not overlap the serial slot (the spec leaves overlap open, R62 (c)), the serial is one more than before. -/
def Obligations.PlaySlotValues : Prop :=
  ∀ (s t : State) (p : Precision) (c : Channels) (r bs be b sink arg : Word), s.cfg.Valid → s.sh.wf = true →
    s.dev.precision = some p → s.dev.channels = some c → s.dev.rate = some r →
      exec (.start bs be b sink arg) s = .next t → t.result = some ⟨.ok, []⟩ → NoTimeout t →
        CoprocNoWrite (playSpan s.cfg) s →
          t.sh.getWord s.cfg.offBlocksize = BitVec.ofNat 32 (b.toNat / c.toNat) ∧
          t.sh.getWord s.cfg.offChannel = BitVec.ofNat 32 c.toNat ∧ t.sh.getWord s.cfg.offRate = r ∧
          t.sh.getWord s.cfg.offPrecision = BitVec.ofNat 32 p.toNat ∧ t.sh.getWord s.cfg.offCmd = s.cfg.cmdPlay ∧
          ((∀ a, span s.cfg.offSerial 4 a → ¬ refillSpan s.cfg p c b.toNat 0 a ∧
              ¬ refillSpan s.cfg p c b.toNat (b.toNat / c.toNat) a) →
            t.sh.getWord s.cfg.offSerial = s.sh.getWord s.cfg.offSerial + 1)

/-- R144: a REFILL whose fields are set and whose addresses fit completes: the cursor moves on by the block size, back to
the start when it reaches the end, the half offset is xored with h, no other Device State field changes, and nothing is
stored to outside the refilled halves. -/
def Obligations.RefillCompletes : Prop :=
  ∀ (s : State) (p : Precision) (c : Channels) (b o q bs be : Word), s.sh.wf = true →
    RefillReads s.dev p c b o q bs be → RefillFits s.cfg p c b.toNat o.toNat q.toNat →
      ∃ t q', exec .refill s = .next t ∧
        q' = (if be.toNat ≤ q.toNat + b.toNat then bs else BitVec.ofNat 32 (q.toNat + b.toNat)) ∧
        BusRun .control .refill resultOk (refillSpan s.cfg p c b.toNat o.toNat)
          (s.setDev { s.dev with
            bufferCursor := some q'
            nextFillOffset := some (o ^^^ BitVec.ofNat 32 (b.toNat / c.toNat)) }) t

/-- R144, R201: a REFILL that finds a field UNSET raises FAULT_UNSET with the first one in the rule's order; the Device
State and the memories stay. -/
def Obligations.RefillNeedsItsFields : Prop :=
  ∀ (s : State) (f : Field), firstUnset s.dev = some f →
    exec .refill s = .next (stopped .refill (.unset f) s)

/-- R145, R89, R90, R170 step 1: what a refill leaves where, by REFILL or inside INTERRUPT. With every wait ready and the
coprocessor leaving the halves alone meanwhile, a stereo 16-bit refill leaves the left samples at q + 4k in the left half
and the right ones at q + 2 + 4k in the right half; a stereo 8-bit refill the first 4 * (B / 8) samples of each from
q + 2k and q + 1 + 2k; a mono refill the B bytes from q in the left half. The two halves written must not overlap. -/
def Obligations.RefillLayout : Prop :=
  ∀ (s t : State) (i : Instr) (r : Result) (p : Precision) (c : Channels) (b o q bs be : Word), s.sh.wf = true →
    RefillReads s.dev p c b o q bs be →
      (i = .refill ∧ r = ⟨.ok, []⟩) ∨ (i = .interrupt ∧ r = ⟨.handled, []⟩) →
        exec i s = .next t → t.result = some r → NoTimeout t →
          CoprocNoWrite (refillSpan s.cfg p c b.toNat o.toNat) s →
            (∀ a, span (s.cfg.leftBase + o.toNat) (refillBytes p c b.toNat) a → c = .stereo →
              ¬ span (s.cfg.rightBase + o.toNat) (refillBytes p c b.toNat) a) →
              HoldsBlock s.cfg p c b.toNat o.toNat q.toNat s.host t.sh

/-- R141, R142, R145: what START's two priming refills leave where. With every wait ready and the coprocessor
leaving the halves alone meanwhile, half 0 holds the first block of the buffer and half 1 the second one, or the first
again where the buffer is one block. The regions must not overlap each other or the PLAY and command slots. -/
def Obligations.StartLayout : Prop :=
  ∀ (s t : State) (p : Precision) (c : Channels) (bs be b sink arg : Word) (q : Nat), s.cfg.Valid → s.sh.wf = true →
    s.dev.precision = some p → s.dev.channels = some c → StartFits s.cfg c bs be b sink →
      q = (if be.toNat ≤ bs.toNat + b.toNat then bs.toNat else bs.toNat + b.toNat) →
        exec (.start bs be b sink arg) s = .next t → t.result = some ⟨.ok, []⟩ → NoTimeout t →
          CoprocNoWrite (halvesSpan s.cfg c b) s →
            (∀ a, c = .stereo → span s.cfg.leftBase (2 * halfSize b c) a →
              ¬ span s.cfg.rightBase (2 * halfSize b c) a) →
              (∀ a, halvesSpan s.cfg c b a → ¬ playSpan s.cfg a) →
                HoldsBlock s.cfg p c b.toNat 0 bs.toNat s.host t.sh ∧
                  HoldsBlock s.cfg p c b.toNat (b.toNat / c.toNat) q s.host t.sh

/-- R245, R144, R146: what the two double-buffer premises give. Under RegionFits the half a refill writes lies inside its
regions. Under RefillBeforeConsume no word that the coprocessor reads, from a buffer-boundary event until the REFILL after
it has ended or raised a fault, overlaps a word that this REFILL writes. -/
def Obligations.NoWordOfTheHalfBeingRefilledIsRead : Prop :=
  ∀ (r s : State) (p : Precision) (c : Channels) (b o q bs be : Word), RefillReads s.dev p c b o q bs be →
    b.toNat % (4 * c.toNat) = 0 →
      (RegionFits s → o.toNat = 0 ∨ o.toNat = b.toNat / c.toNat → ∀ a, halfSpan s.cfg c b o.toNat a →
        span s.cfg.leftBase s.cfg.regionSize a ∨ (c = .stereo ∧ span s.cfg.rightBase s.cfg.regionSize a)) ∧
      (RefillBeforeConsume r s → ∀ es off w v g, (refill s).state.events = es ++ s.events →
        Event.shWrite w v g ∈ es → SignalledBefore r s (refill s).state (.coprocRead off) → off + 4 ≤ w ∨ w + 4 ≤ off)

/-- R150, the toggle law: after a START that did not fault and N interrupts that did not fault, next_fill_offset is
(N mod 2) * (block_size / channels). -/
def Obligations.ToggleLaw : Prop :=
  ∀ (s t u : State) (bs be b sink arg : Word) (c : Channels) (n : Nat), s.dev.channels = some c →
    exec (.start bs be b sink arg) s = .next t → t.fault = none → Interrupts n t u →
      u.dev.nextFillOffset = some (BitVec.ofNat 32 (n % 2 * (b.toNat / c.toNat)))

/-- R151, the wrap law, and R29 (I1): with K blocks in the buffer, after a START, whose two priming refills count, and n
more refills, by INTERRUPT or by REFILL, none of which faulted, buffer_cursor is
buffer_start + ((2 + n) mod K) * block_size, which is below buffer_end. -/
def Obligations.WrapLaw : Prop :=
  ∀ (s t u : State) (bs be b sink arg : Word) (n k : Nat), exec (.start bs be b sink arg) s = .next t →
    t.fault = none → Refills n t u → k = (be.toNat - bs.toNat) / b.toNat →
      ∃ q, u.dev.bufferCursor = some q ∧ q.toNat = bs.toNat + (2 + n) % k * b.toNat ∧ q.toNat < be.toNat

/-- R147, R247: STOP completes from Idle and from Playing. It sends CMD_STOP and sets the callback to NULL; every other
Device State field, the buffer and the half offset among them, stays; shared memory changes in the command and serial
slots alone. -/
def Obligations.StopCompletes : Prop :=
  ∀ s : State, s.cfg.Valid → s.sh.wf = true → ∃ t, exec .stop s = .next t ∧
    BusRun .control .stop resultOk (commandSpan s.cfg) (s.setDev { s.dev with callback := some 0 }) t ∧
    (NoTimeout t → CoprocNoWrite (commandSpan s.cfg) s → t.sh.getWord s.cfg.offCmd = s.cfg.cmdStop ∧
      t.sh.getWord s.cfg.offSerial = s.sh.getWord s.cfg.offSerial + 1)

/-! ### Mixer (R148, R149) -/

/-- R148: MIXER_SET with a legal index, value count and volumes completes, in Idle and in Playing: it stores the levels and
sends them as the parameters of CMD_MVOL or CMD_VOL. For the master volume nothing is said of the right parameter, which
the spec leaves unspecified. -/
def Obligations.MixerSetCompletes : Prop :=
  ∀ (s : State) (v0 v1 : Word), s.cfg.Valid → s.sh.wf = true → v0.toNat ≤ 255 → v1.toNat ≤ 255 →
    (∃ t, exec (.mixerSet 0 1 v0 v1) s = .next t ∧
      BusRun .control (.mixerSet 0 1 v0 v1) resultOk (paramSpan s.cfg)
        (s.setDev { s.dev with outputMaster := some (v0.setWidth 8) }) t ∧
      (NoTimeout t → CoprocNoWrite (paramSpan s.cfg) s → t.sh.getWord s.cfg.offLparam = v0 ∧
        t.sh.getWord s.cfg.offCmd = s.cfg.cmdMvol ∧
        t.sh.getWord s.cfg.offSerial = s.sh.getWord s.cfg.offSerial + 1)) ∧
    (∃ t, exec (.mixerSet 1 2 v0 v1) s = .next t ∧
      BusRun .control (.mixerSet 1 2 v0 v1) resultOk (paramSpan s.cfg)
        (s.setDev { s.dev with outputGainLeft := some (v0.setWidth 8), outputGainRight := some (v1.setWidth 8) }) t ∧
      (NoTimeout t → CoprocNoWrite (paramSpan s.cfg) s → t.sh.getWord s.cfg.offLparam = v0 ∧
        t.sh.getWord s.cfg.offRparam = v1 ∧ t.sh.getWord s.cfg.offCmd = s.cfg.cmdVol ∧
        t.sh.getWord s.cfg.offSerial = s.sh.getWord s.cfg.offSerial + 1))

/-- R148, R203: an unknown mixer index, the class index and a wrong value count are answered INVALID by MIXER_SET, and no
state changes. -/
def Obligations.WrongMixerIndexIsInvalid : Prop :=
  ∀ (s : State) (x n v0 v1 : Word), ((x = 0 ∧ n ≠ 1) ∨ (x = 1 ∧ n ≠ 2) ∨ (x ≠ 0 ∧ x ≠ 1)) →
    exec (.mixerSet x n v0 v1) s = .next (answered (.mixerSet x n v0 v1) ⟨.invalid, []⟩ s)

/-- R149: MIXER_GET answers the level or the two levels with their count, INVALID for any other index, and touches
nothing. -/
def Obligations.MixerGet : Prop :=
  ∀ (s : State) (m l r : Byte), s.dev.outputMaster = some m → s.dev.outputGainLeft = some l →
    s.dev.outputGainRight = some r →
      (∀ i a, (i = .mixerGet 0 ∧ a = ⟨.ok, [.num 1, .num m.toNat]⟩) ∨
          (i = .mixerGet 1 ∧ a = ⟨.ok, [.num 2, .num l.toNat, .num r.toNat]⟩) ∨
          (∃ x, x ≠ 0 ∧ x ≠ 1 ∧ i = .mixerGet x ∧ a = ⟨.invalid, []⟩) →
        exec i s = .next (answered i a s))

/-! ### Interrupt Handler (44_interrupt_handler.md) -/

/-- R170, R172, R208: an INTERRUPT whose refill fits completes with HANDLED, in Playing and in Idle. It refills first,
then invokes the sink with its argument if a callback is registered, then acknowledges, which clears irq_pending; it is set
after it only by a signal made after the acknowledge (R175). It issues no command and changes no other Device State
field. Host memory changes only by what the host writes during the invocation of the sink (R174). -/
def Obligations.InterruptRefillsNotifiesAcknowledges : Prop :=
  ∀ (s : State) (p : Precision) (c : Channels) (b o q bs be cb arg : Word), s.cfg.Valid → s.sh.wf = true →
    RefillReads s.dev p c b o q bs be → RefillFits s.cfg p c b.toNat o.toNat q.toNat →
      s.dev.callback = some cb → s.dev.callbackArg = some arg →
        ∃ t es, exec .interrupt s = .next t ∧ EndsWith ⟨.handled, []⟩ s t ∧
          t.events = .opEnd .interrupt ⟨.handled, []⟩ :: .regWrite s.cfg.offIntrClear s.cfg.ackValue ::
            ((if cb = 0 then [] else [.callback cb arg]) ++ (es ++ .opBegin .interrupt .intr :: s.events)) ∧
          (∀ e ∈ es, e.onBus = true) ∧ (t.irqPending = true → (t.events.length - 1, EnvMove.raiseIrq) ∈ t.moved) ∧
          (NoIrqMoves s → t.irqPending = false) ∧ t.dev = s.dev.refilled c b o q bs be ∧
          t.cfg = s.cfg ∧ t.initialized = s.initialized ∧ t.dead = s.dead ∧ t.regIntrClear = s.cfg.ackValue ∧
          (s.cfg.offEnable ≠ s.cfg.offIntrClear → t.coprocEnabled = s.coprocEnabled ∧ t.regEnable = s.regEnable) ∧
          KeepsSh (refillSpan s.cfg p c b.toNat o.toNat) s t ∧
          t.host = (if cb = 0 then s.host else s.host.writes (s.inp.sink.headD [])) ∧ (s.host.wf = true → KeepsHost s t)

/-- R170, R209, R200: if INTERRUPT faults on an initialized block, its refill did: the sink is not invoked, the acknowledge
is not written, irq_pending stays true, and the cursor and the half offset stay. The premise Inv rules out states no run
reaches. -/
def Obligations.FaultedInterruptStaysPending : Prop :=
  ∀ (s t : State) (f : BlockFault), Inv s → s.cfg.Valid → s.initialized = true → s.fault = none → s.irqPending = true →
    exec .interrupt s = .next t → t.fault = some f →
      t.irqPending = true ∧ t.active = some (.intr, .interrupt) ∧ t.dev = s.dev ∧
        ∃ es, t.events = es ++ .opBegin .interrupt .intr :: s.events ∧ ∀ e ∈ es, e.onBus = true

/-! ### Host-interface queries (45_host_interface.md) -/

/-- R180, R181, R184, R185: the four queries that cannot fail, with their data; nothing else changes. -/
def Obligations.HostQueries : Prop :=
  ∀ (s : State) (i : Instr) (d : List Datum) (req : Word),
    (i = .queryFormat ∧ d = [.num 0, .num 16, .num 2, .num s.cfg.rateMin, .num 65536]) ∨
      (i = .roundBlocksize req ∧ d = [.num (s.cfg.dmabufSize / 4)]) ∨
      (i = .getDevice ∧ d = [.text s.cfg.deviceName]) ∨ (i = .getLocks ∧ d = [.num 0, .num 1]) →
      exec i s = .next (answered i ⟨.ok, d⟩ s)

/-- R182: ROUND_BUFFERSIZE caps the request at 65536 bytes for each channel, and raises FAULT_UNSET before a format is
set. -/
def Obligations.RoundBuffersize : Prop :=
  ∀ (s : State) (req : Word),
    (∀ c d, s.dev.channels = some c → d = [.num (min req.toNat (65536 * Channels.toNat c))] →
      exec (.roundBuffersize req) s = .next (answered (.roundBuffersize req) ⟨.ok, d⟩ s)) ∧
    (s.dev.channels = none →
      exec (.roundBuffersize req) s = .next (stopped (.roundBuffersize req) (.unset .channels) s))

/-- R183: MIXER_DEVINFO describes the two controls and their class, and is INVALID for any other index; nothing else
changes. -/
def Obligations.MixerDevinfo : Prop :=
  ∀ (s : State) (i : Instr) (a : Result),
    (i = .mixerDevinfo 0 ∧ a = ⟨.ok, [.num 0, .num 2, .num 1, .num 0, .num 255, .text s.cfg.nameMaster]⟩) ∨
      (i = .mixerDevinfo 1 ∧ a = ⟨.ok, [.num 0, .num 2, .num 2, .num 0, .num 255, .text s.cfg.nameGain]⟩) ∨
      (i = .mixerDevinfo 2 ∧ a = ⟨.ok, [.num 1, .num 2, .text s.cfg.nameClass]⟩) ∨
      (∃ x, x ≠ 0 ∧ x ≠ 1 ∧ x ≠ 2 ∧ i = .mixerDevinfo x ∧ a = ⟨.invalid, []⟩) →
      exec i s = .next (answered i a s)

/-! ### INIT (70_reset_and_hazards.md) -/

/-- R232: an INIT whose mapping draw is false ends FAILED with dead set, and makes no access. -/
def Obligations.FailedMappingKillsTheBlock : Prop :=
  ∀ (s : State) (j : Inputs), s.initialized = false → s.dead = false → s.inp.drawBool = (false, j) →
    exec .init s = .next (answered .init ⟨.failed, []⟩ { s with dead := true, inp := j })

/-- R233, R232: an INIT after INIT has run, with success or failure, raises FAULT_REINIT and does nothing else. -/
def Obligations.InitRunsOnce : Prop :=
  ∀ s : State, s.initialized = true ∨ s.dead = true →
    exec .init s = .next (stopped .init .reinit s)

/-- R233, R234, R69, R44: an INIT whose mapping succeeds completes. The disable write comes first, then the load and the
fill (bus events only), then the enable write, then, if they are configured, the volume commands CMD_MVOL (255, any) and CMD_VOL
(255, 255), which leave the serial two further and the parameter and command slots at CMD_VOL's. After it the block is
initialized, the coprocessor enabled, the volumes 255, the callback NULL, and the other Device State fields as before; the
pending bit is the environment's, and the status-clear register is not written. -/
def Obligations.InitCompletes : Prop :=
  ∀ (s : State) (j : Inputs), s.cfg.Valid → s.sh.wf = true → s.initialized = false →
    s.dead = false → s.inp.drawBool = (true, j) →
      ∃ t post load, exec .init s = .next t ∧ EndsWith ⟨.ok, []⟩ s t ∧
        t.events = .opEnd .init ⟨.ok, []⟩ :: (post ++ .regWrite s.cfg.offEnable s.cfg.enableValue ::
          (load ++ .regWrite s.cfg.offEnable s.cfg.disableValue :: .opBegin .init .control :: s.events)) ∧
        (∀ e ∈ load ++ post, e.onBus = true) ∧ (s.cfg.initVolumeCommands = false → post = []) ∧
        (s.cfg.initVolumeCommands = true → ∃ any n1 n2 g1 g2 g3 g4 g5 g6 g7 g8,
          post.filter Event.notPoll = paramEvents s.cfg s.cfg.cmdVol 255 255 n2 g5 g6 g7 g8 ++
            paramEvents s.cfg s.cfg.cmdMvol 255 any n1 g1 g2 g3 g4 ∧
          (NoTimeout t → CoprocNoWrite (paramSpan s.cfg) s → n2 = n1 + 1 ∧ t.sh.getWord s.cfg.offSerial = n1 + 2 ∧
            t.sh.getWord s.cfg.offCmd = s.cfg.cmdVol ∧ t.sh.getWord s.cfg.offLparam = 255 ∧
            t.sh.getWord s.cfg.offRparam = 255)) ∧
        t.initialized = true ∧ t.dead = false ∧ t.coprocEnabled = some true ∧ t.regEnable = s.cfg.enableValue ∧
        t.dev = { s.dev with
          outputMaster := some 255, outputGainLeft := some 255, outputGainRight := some 255, callback := some 0 } ∧
        t.cfg = s.cfg ∧ t.host = s.host ∧
        (s.cfg.offEnable ≠ s.cfg.offIntrClear → t.regIntrClear = s.regIntrClear ∧
          (s.irqPending = true → t.irqPending = true) ∧ (NoIrqMoves s → t.irqPending = s.irqPending))

/-- R233, R44, R62 (a): with every wait ready and shared memory left alone by the coprocessor, a successful INIT leaves
the firmware image at offset 0 and zero bytes from its word-rounded end on, but for the slots of the volume commands where
those are configured. -/
def Obligations.InitLoadsTheImage : Prop :=
  ∀ (s t : State) (a : Nat), s.cfg.Valid → s.sh.wf = true → exec .init s = .next t →
    t.result = some ⟨.ok, []⟩ → NoTimeout t → CoprocNoWrite (fun _ => True) s →
      (s.cfg.initVolumeCommands = true → ¬ paramSpan s.cfg a) →
        ((h : a < s.cfg.fwImage.length) → t.sh.get a = s.cfg.fwImage[a]) ∧
          (4 * ((s.cfg.fwImage.length + 3) / 4) ≤ a → a < s.cfg.shmemSize → t.sh.get a = 0)
end

