-- ==== Sys2Proof/Laws/Memory.lean ====
section
/-! SUPPORT. The laws of memory bytes: read after write, the canonical form kept by every write, and bytes and words of
several cells. -/

namespace Sys2Proof.Machine

/-! ### The sizes of R9 as numbers -/

theorem wordBytes_eq : Config.wordBytes = 4 := rfl
theorem byteBits_eq : Config.byteBits = 8 := rfl
theorem destAlign_eq : Config.destAlign = 4 := rfl

end Sys2Proof.Machine

namespace Sys2Proof.Machine.Memory

variable {m : Memory} {a x k : Nat} {b : Byte}

theorem get_of_le_of_above (h : above k m = true) (hx : x ≤ k) : m.get x = unlisted := by
  cases m with
  | nil => rfl
  | cons c m => simp only [above, decide_eq_true_eq] at h; rw [get, if_pos (by omega)]

theorem above_mono (h : above k m = true) (hx : x ≤ k) : above x m = true := by
  cases m with
  | nil => rfl
  | cons c m => simp only [above, decide_eq_true_eq] at h ⊢; omega

theorem wf_cons {c : Host.Cell} : wf (c :: m) = true ↔ c.2 ≠ unlisted ∧ above c.1 m = true ∧ wf m = true := by
  obtain ⟨k, v⟩ := c
  simp only [wf, Bool.and_eq_true, bne_iff_ne, ne_eq, and_assoc]

theorem wf_put (hm : wf m = true) (ha : above a m = true) : wf (put a b m) = true := by
  unfold put
  split
  · exact hm
  · exact wf_cons.mpr ⟨‹_›, ha, hm⟩

theorem above_put (hm : above k m = true) (ha : k < a) : above k (put a b m) = true := by
  unfold put
  split
  · exact hm
  · simpa [above] using ha

theorem above_set (hm : wf m = true) (h : above k m = true) (ha : k < a) : above k (m.set a b) = true := by
  cases m with
  | nil => exact above_put rfl ha
  | cons c m =>
    obtain ⟨j, v⟩ := c
    obtain ⟨-, hj, -⟩ := wf_cons.mp hm
    simp only [above, decide_eq_true_eq] at h
    rw [set]
    split
    · exact above_put (by simpa [above] using h) ha
    · split
      · exact above_put (above_mono hj (by omega)) ha
      · simpa [above] using h

/-- Every write keeps the canonical form. -/
theorem wf_set (hm : wf m = true) : wf (m.set a b) = true := by
  induction m with
  | nil => exact wf_put rfl rfl
  | cons c m ih =>
    obtain ⟨j, v⟩ := c
    obtain ⟨hv, hj, hw⟩ := wf_cons.mp hm
    rw [set]
    split
    · exact wf_put hm (by simpa [above])
    · split
      · subst_vars; exact wf_put hw hj
      · exact wf_cons.mpr ⟨hv, above_set hw hj (by show j < a; omega), ih hw⟩

theorem get_put_self (ha : above a m = true) : (put a b m).get a = b := by
  unfold put
  split
  · rw [get_of_le_of_above ha le_rfl]; exact Eq.symm ‹_›
  · rw [get, if_neg (lt_irrefl a), if_pos rfl]

theorem get_put_ne (ha : above a m = true) (hx : x ≠ a) : (put a b m).get x = m.get x := by
  unfold put
  split
  · rfl
  · rw [get]
    split
    · rw [get_of_le_of_above ha (by omega)]
    · rfl

theorem get_set_self (hm : wf m = true) : (m.set a b).get a = b := by
  induction m with
  | nil => exact get_put_self rfl
  | cons c m ih =>
    obtain ⟨j, v⟩ := c
    obtain ⟨hv, hj, hw⟩ := wf_cons.mp hm
    rw [set]
    split
    · exact get_put_self (by simpa [above])
    · split
      · subst_vars; exact get_put_self hj
      · rw [get, if_neg ‹_›, if_neg ‹_›, ih hw]

theorem get_set_ne (hm : wf m = true) (hx : x ≠ a) : (m.set a b).get x = m.get x := by
  induction m with
  | nil => exact get_put_ne rfl hx
  | cons c m ih =>
    obtain ⟨j, v⟩ := c
    obtain ⟨hv, hj, hw⟩ := wf_cons.mp hm
    rw [set]
    split
    · exact get_put_ne (by simpa [above]) hx
    · split
      · subst_vars
        rw [get_put_ne hj hx, get]
        split
        · exact get_of_le_of_above hj (by omega)
        · rfl
      · rw [get, get, ih hw]

/-- Read after write. -/
theorem get_set (hm : wf m = true) : (m.set a b).get x = if x = a then b else m.get x := by
  split
  · subst_vars; exact get_set_self hm
  · exact get_set_ne hm ‹_›

theorem mem_put {c : Host.Cell} (h : c ∈ put a b m) : c = (a, b) ∨ c ∈ m := by
  unfold put at h
  split at h
  · exact .inr h
  · exact List.mem_cons.mp h

/-- A write lists no address but its own. -/
theorem mem_set {c : Host.Cell} (h : c ∈ m.set a b) : c = (a, b) ∨ c ∈ m := by
  induction m with
  | nil => exact mem_put h
  | cons d m ih =>
    obtain ⟨j, v⟩ := d
    rw [set] at h
    split at h
    · exact mem_put h
    · split at h
      · exact (mem_put h).imp_right (List.mem_cons_of_mem _)
      · rcases List.mem_cons.mp h with h | h
        · exact .inr (h ▸ List.mem_cons_self)
        · exact (ih h).imp_right (List.mem_cons_of_mem _)

/-! ### The host's writes -/

theorem wf_writes (ws : List HostWrite) : ∀ {m : Memory}, wf m = true → wf (m.writes ws) = true := by
  induction ws with
  | nil => exact fun h => h
  | cons w ws ih => exact fun h => ih (wf_set h)

/-- The host's writes list no address outside the host's space. -/
theorem mem_writes {c : Host.Cell} (ws : List HostWrite) : ∀ {m : Memory}, c ∈ m.writes ws → c.1 < Config.hostSize ∨ c ∈ m := by
  induction ws with
  | nil => exact fun h => .inr h
  | cons w ws ih =>
    intro m h
    rcases ih h with h | h
    · exact .inl h
    · rcases mem_set h with rfl | h
      · exact .inl w.addr.isLt
      · exact .inr h

theorem writes_append (ws us : List HostWrite) : ∀ m : Memory, m.writes (ws ++ us) = (m.writes ws).writes us := by
  induction ws with
  | nil => exact fun _ => rfl
  | cons w ws ih => exact fun m => ih _

/-- A byte the host does not write stays. -/
theorem get_writes_of_not (ws : List HostWrite) : ∀ {m : Memory}, wf m = true → (∀ w ∈ ws, w.addr.toNat ≠ x) →
    (m.writes ws).get x = m.get x := by
  induction ws with
  | nil => exact fun _ _ => rfl
  | cons w ws ih =>
    intro m hm h
    rw [writes, ih (wf_set hm) fun w hw => h w (List.mem_cons_of_mem _ hw)]
    exact get_set_ne hm fun hx => h w List.mem_cons_self hx.symm

/-! ### Several bytes -/

theorem wf_setBytes (bs : List Byte) : ∀ {m : Memory} {a : Nat}, wf m = true → wf (m.setBytes a bs) = true := by
  induction bs with
  | nil => exact fun h => h
  | cons b bs ih => exact fun h => ih (wf_set h)

theorem mem_setBytes {c : Host.Cell} (bs : List Byte) :
    ∀ {m : Memory} {a : Nat}, c ∈ m.setBytes a bs → (a ≤ c.1 ∧ c.1 < a + bs.length) ∨ c ∈ m := by
  induction bs with
  | nil => exact fun h => .inr h
  | cons b bs ih =>
    intro m a h
    rcases ih h with h | h
    · exact .inl ⟨by omega, by simp only [List.length_cons]; omega⟩
    · rcases mem_set h with rfl | h
      · exact .inl ⟨le_rfl, by simp⟩
      · exact .inr h

theorem get_setBytes_of_not (bs : List Byte) : ∀ {m : Memory} {a : Nat}, wf m = true →
    ¬ (a ≤ x ∧ x < a + bs.length) → (m.setBytes a bs).get x = m.get x := by
  induction bs with
  | nil => exact fun _ _ => rfl
  | cons b bs ih =>
    intro m a hm hx
    simp only [List.length_cons] at hx
    rw [setBytes, ih (wf_set hm) (by omega), get_set_ne hm (by omega)]

theorem get_setBytes (bs : List Byte) : ∀ {m : Memory} {a : Nat} {i : Nat}, wf m = true → (hi : i < bs.length) →
    (m.setBytes a bs).get (a + i) = bs[i] := by
  induction bs with
  | nil => intro m a i hm hi; simp at hi
  | cons b bs ih =>
    intro m a i hm hi
    rw [setBytes]
    cases i with
    | zero => rw [get_setBytes_of_not bs (wf_set hm) (by omega), Nat.add_zero, get_set_self hm]; rfl
    | succ i =>
      have := ih (a := a + 1) (m := m.set a b) (i := i) (wf_set hm) (by simpa using hi)
      rw [show a + (i + 1) = a + 1 + i by omega, this]; rfl

@[simp] theorem length_getBytes (m : Memory) : ∀ (a n : Nat), (m.getBytes a n).length = n
  | _, 0 => rfl
  | a, n + 1 => by rw [getBytes, List.length_cons, length_getBytes m (a + 1) n]

theorem getElem_getBytes (m : Memory) : ∀ (a n i : Nat) (h : i < (m.getBytes a n).length),
    (m.getBytes a n)[i] = m.get (a + i)
  | _, 0, _, h => absurd h (by simp [getBytes])
  | a, n + 1, 0, _ => rfl
  | a, n + 1, i + 1, h => by
    have := getElem_getBytes m (a + 1) n i (by simpa [getBytes] using h)
    simp only [getBytes, List.getElem_cons_succ, this]
    congr 1; omega

/-! ### Words -/

/-- The word of four bytes, lowest address first. -/
def leWord (b0 b1 b2 b3 : Byte) : Word := b3 ++ b2 ++ b1 ++ b0

theorem leValue_eq (l : List Byte) : leValue l = leWord (l.getD 0 0) (l.getD 1 0) (l.getD 2 0) (l.getD 3 0) := by
  unfold leValue leWord
  rw [wordBytes_eq, byteBits_eq]
  ext i hi
  match l with
  | [] => simp
  | [a] => simp; grind
  | [a, b] => simp; grind
  | [a, b, c] => simp; grind
  | a :: b :: c :: d :: l => simp; grind

theorem leBytes_eq (v : Word) : leBytes v = [wordByte v 0, wordByte v 1, wordByte v 2, wordByte v 3] := rfl

theorem wordByte_leWord (b0 b1 b2 b3 : Byte) :
    wordByte (leWord b0 b1 b2 b3) 0 = b0 ∧ wordByte (leWord b0 b1 b2 b3) 1 = b1 ∧
      wordByte (leWord b0 b1 b2 b3) 2 = b2 ∧ wordByte (leWord b0 b1 b2 b3) 3 = b3 := by
  refine ⟨?_, ?_, ?_, ?_⟩ <;>
  · ext i hi
    have : i < 8 := hi
    simp [wordByte, leWord, byteBits_eq]
    grind

theorem leWord_wordByte (v : Word) : leWord (wordByte v 0) (wordByte v 1) (wordByte v 2) (wordByte v 3) = v := by
  ext i hi
  simp [wordByte, leWord, byteBits_eq]
  grind

theorem length_leBytes (v : Word) : (leBytes v).length = 4 := rfl

theorem wf_setWord {v : Word} (hm : wf m = true) : wf (m.setWord a v) = true := wf_setBytes _ hm

theorem get_setWord_of_not {v : Word} (hm : wf m = true) (hx : ¬ (a ≤ x ∧ x < a + 4)) :
    (m.setWord a v).get x = m.get x := get_setBytes_of_not _ hm hx

/-- A word read back where it was written. -/
theorem getWord_setWord {v : Word} (hm : wf m = true) : (m.setWord a v).getWord a = v := by
  have h := fun i (hi : i < 4) => get_setBytes (m := m) (a := a)
    [wordByte v 0, wordByte v 1, wordByte v 2, wordByte v 3] hm (i := i) hi
  have h0 := h 0 (by omega); have h1 := h 1 (by omega); have h2 := h 2 (by omega); have h3 := h 3 (by omega)
  simp only [Nat.add_zero] at h0
  simp only [getWord, setWord, leBytes_eq, leValue_eq, wordBytes_eq, getBytes, Nat.add_assoc, Nat.reduceAdd, h0, h1, h2, h3]
  exact leWord_wordByte v

theorem get_setWord {v : Word} (hm : wf m = true) {i : Nat} (hi : i < 4) :
    (m.setWord a v).get (a + i) = wordByte v i := by
  have h := get_setBytes (m := m) (a := a) [wordByte v 0, wordByte v 1, wordByte v 2, wordByte v 3] hm (i := i) hi
  rw [setWord, leBytes_eq, h]
  match i, hi with
  | 0, _ => rfl
  | 1, _ => rfl
  | 2, _ => rfl
  | 3, _ => rfl

/-- Byte i of a word made of at least four bytes. -/
theorem wordByte_leValue {l : List Byte} {i : Nat} (hi : i < 4) : wordByte (leValue l) i = l.getD i 0 := by
  rw [leValue_eq]
  have h := wordByte_leWord (l.getD 0 0) (l.getD 1 0) (l.getD 2 0) (l.getD 3 0)
  match i, hi with
  | 0, _ => exact h.1
  | 1, _ => exact h.2.1
  | 2, _ => exact h.2.2.1
  | 3, _ => exact h.2.2.2

/-- A word is a function of its four bytes. -/
theorem getWord_congr {m' : Memory} (h : ∀ i, i < 4 → m.get (a + i) = m'.get (a + i)) :
    m.getWord a = m'.getWord a := by
  have h0 := h 0 (by omega); have h1 := h 1 (by omega); have h2 := h 2 (by omega); have h3 := h 3 (by omega)
  simp only [Nat.add_zero] at h0
  simp only [getWord, leValue_eq, wordBytes_eq, getBytes, Nat.add_assoc, Nat.reduceAdd, h0, h1, h2, h3]

end Sys2Proof.Machine.Memory
end

