-- ==== Sys2Proof/Laws/State.lean ====
section
/-! SUPPORT. One lemma for each field of the state under each of its updates, so that no later proof unfolds a record
update; and the named values of R9, and R8's constraints, as numbers. -/

namespace Sys2Proof

/-- The volume range in numbers (R9, R82). -/
theorem fitsVolume_eq (v : Word) : fitsVolume v = decide (v.toNat ≤ 255) := by
  rw [fitsVolume, decide_eq_true (p := Config.volumeMin ≤ v.toNat) (Nat.zero_le _), Bool.true_and]
  rfl

/-! ### The constraints of R8 as numbers -/

variable {p : Params}

theorem Params.Valid.shmem_mod4 (h : p.Valid) : p.shmemSize % 4 = 0 := h.shmem_mod
theorem Params.Valid.regs_mod4 (h : p.Valid) : p.regsSize % 4 = 0 := h.regs_mod
theorem Params.Valid.slots_disjoint4 (h : p.Valid) : p.slots.Pairwise fun a b => a + 4 ≤ b ∨ b + 4 ≤ a :=
  h.slots_disjoint
theorem Params.Valid.left_aligned4 (h : p.Valid) : p.leftBase % 4 = 0 := h.left_aligned
theorem Params.Valid.right_aligned4 (h : p.Valid) : p.rightBase % 4 = 0 := h.right_aligned
theorem Params.Valid.enable_aligned4 (h : p.Valid) : p.offEnable % 4 = 0 := h.enable_aligned
theorem Params.Valid.clear_aligned4 (h : p.Valid) : p.offIntrClear % 4 = 0 := h.clear_aligned

end Sys2Proof

namespace Sys2Proof.Machine

/-! ### The named values of R9 as numbers -/

@[simp] theorem Precision.toNat_bits8 : Precision.bits8.toNat = 8 := rfl
@[simp] theorem Precision.toNat_bits16 : Precision.bits16.toNat = 16 := rfl
@[simp] theorem Channels.toNat_mono : Channels.mono.toNat = 1 := rfl
@[simp] theorem Channels.toNat_stereo : Channels.stereo.toNat = 2 := rfl
theorem precisionOf_eq (p : Word) :
    precisionOf p = if p = 8 then some .bits8 else if p = 16 then some .bits16 else none := rfl
theorem channelsOf_eq (c : Word) : channelsOf c = if c = 1 then some .mono else if c = 2 then some .stereo else none := rfl
theorem rightPointer16_eq (a : Nat) : rightPointer16 a = a + 2 := rfl
theorem rightPointer8_eq (a : Nat) : rightPointer8 a = a + 1 := rfl
theorem wordsFor_eq (n : Nat) : wordsFor n = (n + 3) / 4 := rfl

/-! ### Fields under updates -/

namespace State

variable (s : State)

@[simp] theorem emit_cfg (e : Event) : (s.emit e).cfg = s.cfg := rfl
@[simp] theorem emit_dev (e : Event) : (s.emit e).dev = s.dev := rfl
@[simp] theorem emit_initialized (e : Event) : (s.emit e).initialized = s.initialized := rfl
@[simp] theorem emit_dead (e : Event) : (s.emit e).dead = s.dead := rfl
@[simp] theorem emit_fault (e : Event) : (s.emit e).fault = s.fault := rfl
@[simp] theorem emit_active (e : Event) : (s.emit e).active = s.active := rfl
@[simp] theorem emit_position (e : Event) : (s.emit e).position = s.position + 1 := rfl
@[simp] theorem emit_coprocEnabled (e : Event) : (s.emit e).coprocEnabled = s.coprocEnabled := rfl
@[simp] theorem emit_gateOk (e : Event) : (s.emit e).gateOk = s.gateOk := rfl
@[simp] theorem emit_regEnable (e : Event) : (s.emit e).regEnable = s.regEnable := rfl
@[simp] theorem emit_regIntrClear (e : Event) : (s.emit e).regIntrClear = s.regIntrClear := rfl
@[simp] theorem emit_irqPending (e : Event) : (s.emit e).irqPending = s.irqPending := rfl
@[simp] theorem emit_sh (e : Event) : (s.emit e).sh = s.sh := rfl
@[simp] theorem emit_host (e : Event) : (s.emit e).host = s.host := rfl
@[simp] theorem emit_events (e : Event) : (s.emit e).events = e :: s.events := rfl
@[simp] theorem emit_moved (e : Event) : (s.emit e).moved = s.moved := rfl
@[simp] theorem emit_result (e : Event) : (s.emit e).result = s.result := rfl
@[simp] theorem emit_inp (e : Event) : (s.emit e).inp = s.inp := rfl

@[simp] theorem setDev_cfg (d : Device) : (s.setDev d).cfg = s.cfg := rfl
@[simp] theorem setDev_dev (d : Device) : (s.setDev d).dev = d := rfl
@[simp] theorem setDev_initialized (d : Device) : (s.setDev d).initialized = s.initialized := rfl
@[simp] theorem setDev_dead (d : Device) : (s.setDev d).dead = s.dead := rfl
@[simp] theorem setDev_fault (d : Device) : (s.setDev d).fault = s.fault := rfl
@[simp] theorem setDev_active (d : Device) : (s.setDev d).active = s.active := rfl
@[simp] theorem setDev_position (d : Device) : (s.setDev d).position = s.position := rfl
@[simp] theorem setDev_coprocEnabled (d : Device) : (s.setDev d).coprocEnabled = s.coprocEnabled := rfl
@[simp] theorem setDev_gateOk (d : Device) : (s.setDev d).gateOk = s.gateOk := rfl
@[simp] theorem setDev_regEnable (d : Device) : (s.setDev d).regEnable = s.regEnable := rfl
@[simp] theorem setDev_regIntrClear (d : Device) : (s.setDev d).regIntrClear = s.regIntrClear := rfl
@[simp] theorem setDev_irqPending (d : Device) : (s.setDev d).irqPending = s.irqPending := rfl
@[simp] theorem setDev_sh (d : Device) : (s.setDev d).sh = s.sh := rfl
@[simp] theorem setDev_host (d : Device) : (s.setDev d).host = s.host := rfl
@[simp] theorem setDev_events (d : Device) : (s.setDev d).events = s.events := rfl
@[simp] theorem setDev_moved (d : Device) : (s.setDev d).moved = s.moved := rfl
@[simp] theorem setDev_result (d : Device) : (s.setDev d).result = s.result := rfl
@[simp] theorem setDev_inp (d : Device) : (s.setDev d).inp = s.inp := rfl

@[simp] theorem setSh_cfg (m : Memory) : (s.setSh m).cfg = s.cfg := rfl
@[simp] theorem setSh_dev (m : Memory) : (s.setSh m).dev = s.dev := rfl
@[simp] theorem setSh_initialized (m : Memory) : (s.setSh m).initialized = s.initialized := rfl
@[simp] theorem setSh_dead (m : Memory) : (s.setSh m).dead = s.dead := rfl
@[simp] theorem setSh_fault (m : Memory) : (s.setSh m).fault = s.fault := rfl
@[simp] theorem setSh_active (m : Memory) : (s.setSh m).active = s.active := rfl
@[simp] theorem setSh_position (m : Memory) : (s.setSh m).position = s.position := rfl
@[simp] theorem setSh_coprocEnabled (m : Memory) : (s.setSh m).coprocEnabled = s.coprocEnabled := rfl
@[simp] theorem setSh_gateOk (m : Memory) : (s.setSh m).gateOk = s.gateOk := rfl
@[simp] theorem setSh_regEnable (m : Memory) : (s.setSh m).regEnable = s.regEnable := rfl
@[simp] theorem setSh_regIntrClear (m : Memory) : (s.setSh m).regIntrClear = s.regIntrClear := rfl
@[simp] theorem setSh_irqPending (m : Memory) : (s.setSh m).irqPending = s.irqPending := rfl
@[simp] theorem setSh_sh (m : Memory) : (s.setSh m).sh = m := rfl
@[simp] theorem setSh_host (m : Memory) : (s.setSh m).host = s.host := rfl
@[simp] theorem setSh_events (m : Memory) : (s.setSh m).events = s.events := rfl
@[simp] theorem setSh_moved (m : Memory) : (s.setSh m).moved = s.moved := rfl
@[simp] theorem setSh_result (m : Memory) : (s.setSh m).result = s.result := rfl
@[simp] theorem setSh_inp (m : Memory) : (s.setSh m).inp = s.inp := rfl

@[simp] theorem setHost_cfg (m : Memory) : (s.setHost m).cfg = s.cfg := rfl
@[simp] theorem setHost_dev (m : Memory) : (s.setHost m).dev = s.dev := rfl
@[simp] theorem setHost_initialized (m : Memory) : (s.setHost m).initialized = s.initialized := rfl
@[simp] theorem setHost_dead (m : Memory) : (s.setHost m).dead = s.dead := rfl
@[simp] theorem setHost_fault (m : Memory) : (s.setHost m).fault = s.fault := rfl
@[simp] theorem setHost_active (m : Memory) : (s.setHost m).active = s.active := rfl
@[simp] theorem setHost_position (m : Memory) : (s.setHost m).position = s.position := rfl
@[simp] theorem setHost_coprocEnabled (m : Memory) : (s.setHost m).coprocEnabled = s.coprocEnabled := rfl
@[simp] theorem setHost_gateOk (m : Memory) : (s.setHost m).gateOk = s.gateOk := rfl
@[simp] theorem setHost_regEnable (m : Memory) : (s.setHost m).regEnable = s.regEnable := rfl
@[simp] theorem setHost_regIntrClear (m : Memory) : (s.setHost m).regIntrClear = s.regIntrClear := rfl
@[simp] theorem setHost_irqPending (m : Memory) : (s.setHost m).irqPending = s.irqPending := rfl
@[simp] theorem setHost_sh (m : Memory) : (s.setHost m).sh = s.sh := rfl
@[simp] theorem setHost_host (m : Memory) : (s.setHost m).host = m := rfl
@[simp] theorem setHost_events (m : Memory) : (s.setHost m).events = s.events := rfl
@[simp] theorem setHost_moved (m : Memory) : (s.setHost m).moved = s.moved := rfl
@[simp] theorem setHost_result (m : Memory) : (s.setHost m).result = s.result := rfl
@[simp] theorem setHost_inp (m : Memory) : (s.setHost m).inp = s.inp := rfl

@[simp] theorem setInp_cfg (i : Inputs) : (s.setInp i).cfg = s.cfg := rfl
@[simp] theorem setInp_dev (i : Inputs) : (s.setInp i).dev = s.dev := rfl
@[simp] theorem setInp_initialized (i : Inputs) : (s.setInp i).initialized = s.initialized := rfl
@[simp] theorem setInp_dead (i : Inputs) : (s.setInp i).dead = s.dead := rfl
@[simp] theorem setInp_fault (i : Inputs) : (s.setInp i).fault = s.fault := rfl
@[simp] theorem setInp_active (i : Inputs) : (s.setInp i).active = s.active := rfl
@[simp] theorem setInp_position (i : Inputs) : (s.setInp i).position = s.position := rfl
@[simp] theorem setInp_coprocEnabled (i : Inputs) : (s.setInp i).coprocEnabled = s.coprocEnabled := rfl
@[simp] theorem setInp_gateOk (i : Inputs) : (s.setInp i).gateOk = s.gateOk := rfl
@[simp] theorem setInp_regEnable (i : Inputs) : (s.setInp i).regEnable = s.regEnable := rfl
@[simp] theorem setInp_regIntrClear (i : Inputs) : (s.setInp i).regIntrClear = s.regIntrClear := rfl
@[simp] theorem setInp_irqPending (i : Inputs) : (s.setInp i).irqPending = s.irqPending := rfl
@[simp] theorem setInp_sh (i : Inputs) : (s.setInp i).sh = s.sh := rfl
@[simp] theorem setInp_host (i : Inputs) : (s.setInp i).host = s.host := rfl
@[simp] theorem setInp_events (i : Inputs) : (s.setInp i).events = s.events := rfl
@[simp] theorem setInp_moved (i : Inputs) : (s.setInp i).moved = s.moved := rfl
@[simp] theorem setInp_result (i : Inputs) : (s.setInp i).result = s.result := rfl
@[simp] theorem setInp_inp (i : Inputs) : (s.setInp i).inp = i := rfl

@[simp] theorem setGate_cfg (b : Bool) : (s.setGate b).cfg = s.cfg := rfl
@[simp] theorem setGate_dev (b : Bool) : (s.setGate b).dev = s.dev := rfl
@[simp] theorem setGate_initialized (b : Bool) : (s.setGate b).initialized = s.initialized := rfl
@[simp] theorem setGate_dead (b : Bool) : (s.setGate b).dead = s.dead := rfl
@[simp] theorem setGate_fault (b : Bool) : (s.setGate b).fault = s.fault := rfl
@[simp] theorem setGate_active (b : Bool) : (s.setGate b).active = s.active := rfl
@[simp] theorem setGate_position (b : Bool) : (s.setGate b).position = s.position := rfl
@[simp] theorem setGate_coprocEnabled (b : Bool) : (s.setGate b).coprocEnabled = s.coprocEnabled := rfl
@[simp] theorem setGate_gateOk (b : Bool) : (s.setGate b).gateOk = some b := rfl
@[simp] theorem setGate_regEnable (b : Bool) : (s.setGate b).regEnable = s.regEnable := rfl
@[simp] theorem setGate_regIntrClear (b : Bool) : (s.setGate b).regIntrClear = s.regIntrClear := rfl
@[simp] theorem setGate_irqPending (b : Bool) : (s.setGate b).irqPending = s.irqPending := rfl
@[simp] theorem setGate_sh (b : Bool) : (s.setGate b).sh = s.sh := rfl
@[simp] theorem setGate_host (b : Bool) : (s.setGate b).host = s.host := rfl
@[simp] theorem setGate_events (b : Bool) : (s.setGate b).events = s.events := rfl
@[simp] theorem setGate_moved (b : Bool) : (s.setGate b).moved = s.moved := rfl
@[simp] theorem setGate_result (b : Bool) : (s.setGate b).result = s.result := rfl
@[simp] theorem setGate_inp (b : Bool) : (s.setGate b).inp = s.inp := rfl

@[simp] theorem setIrq_cfg (b : Bool) : (s.setIrq b).cfg = s.cfg := rfl
@[simp] theorem setIrq_dev (b : Bool) : (s.setIrq b).dev = s.dev := rfl
@[simp] theorem setIrq_initialized (b : Bool) : (s.setIrq b).initialized = s.initialized := rfl
@[simp] theorem setIrq_dead (b : Bool) : (s.setIrq b).dead = s.dead := rfl
@[simp] theorem setIrq_fault (b : Bool) : (s.setIrq b).fault = s.fault := rfl
@[simp] theorem setIrq_active (b : Bool) : (s.setIrq b).active = s.active := rfl
@[simp] theorem setIrq_position (b : Bool) : (s.setIrq b).position = s.position := rfl
@[simp] theorem setIrq_coprocEnabled (b : Bool) : (s.setIrq b).coprocEnabled = s.coprocEnabled := rfl
@[simp] theorem setIrq_gateOk (b : Bool) : (s.setIrq b).gateOk = s.gateOk := rfl
@[simp] theorem setIrq_regEnable (b : Bool) : (s.setIrq b).regEnable = s.regEnable := rfl
@[simp] theorem setIrq_regIntrClear (b : Bool) : (s.setIrq b).regIntrClear = s.regIntrClear := rfl
@[simp] theorem setIrq_irqPending (b : Bool) : (s.setIrq b).irqPending = b := rfl
@[simp] theorem setIrq_sh (b : Bool) : (s.setIrq b).sh = s.sh := rfl
@[simp] theorem setIrq_host (b : Bool) : (s.setIrq b).host = s.host := rfl
@[simp] theorem setIrq_events (b : Bool) : (s.setIrq b).events = s.events := rfl
@[simp] theorem setIrq_moved (b : Bool) : (s.setIrq b).moved = s.moved := rfl
@[simp] theorem setIrq_result (b : Bool) : (s.setIrq b).result = s.result := rfl
@[simp] theorem setIrq_inp (b : Bool) : (s.setIrq b).inp = s.inp := rfl

@[simp] theorem recordFault_cfg (f : BlockFault) : (s.recordFault f).cfg = s.cfg := rfl
@[simp] theorem recordFault_dev (f : BlockFault) : (s.recordFault f).dev = s.dev := rfl
@[simp] theorem recordFault_initialized (f : BlockFault) : (s.recordFault f).initialized = s.initialized := rfl
@[simp] theorem recordFault_dead (f : BlockFault) : (s.recordFault f).dead = s.dead := rfl
@[simp] theorem recordFault_fault (f : BlockFault) : (s.recordFault f).fault = some f := rfl
@[simp] theorem recordFault_active (f : BlockFault) : (s.recordFault f).active = s.active := rfl
@[simp] theorem recordFault_position (f : BlockFault) : (s.recordFault f).position = s.position := rfl
@[simp] theorem recordFault_coprocEnabled (f : BlockFault) : (s.recordFault f).coprocEnabled = s.coprocEnabled := rfl
@[simp] theorem recordFault_gateOk (f : BlockFault) : (s.recordFault f).gateOk = s.gateOk := rfl
@[simp] theorem recordFault_regEnable (f : BlockFault) : (s.recordFault f).regEnable = s.regEnable := rfl
@[simp] theorem recordFault_regIntrClear (f : BlockFault) : (s.recordFault f).regIntrClear = s.regIntrClear := rfl
@[simp] theorem recordFault_irqPending (f : BlockFault) : (s.recordFault f).irqPending = s.irqPending := rfl
@[simp] theorem recordFault_sh (f : BlockFault) : (s.recordFault f).sh = s.sh := rfl
@[simp] theorem recordFault_host (f : BlockFault) : (s.recordFault f).host = s.host := rfl
@[simp] theorem recordFault_events (f : BlockFault) : (s.recordFault f).events = .fault f :: s.events := rfl
@[simp] theorem recordFault_moved (f : BlockFault) : (s.recordFault f).moved = s.moved := rfl
@[simp] theorem recordFault_result (f : BlockFault) : (s.recordFault f).result = none := rfl
@[simp] theorem recordFault_inp (f : BlockFault) : (s.recordFault f).inp = s.inp := rfl

@[simp] theorem beginOp_cfg (c : Context) (i : Instr) : (s.beginOp c i).cfg = s.cfg := rfl
@[simp] theorem beginOp_dev (c : Context) (i : Instr) : (s.beginOp c i).dev = s.dev := rfl
@[simp] theorem beginOp_initialized (c : Context) (i : Instr) : (s.beginOp c i).initialized = s.initialized := rfl
@[simp] theorem beginOp_dead (c : Context) (i : Instr) : (s.beginOp c i).dead = s.dead := rfl
@[simp] theorem beginOp_fault (c : Context) (i : Instr) : (s.beginOp c i).fault = s.fault := rfl
@[simp] theorem beginOp_active (c : Context) (i : Instr) : (s.beginOp c i).active = some (c, i) := rfl
@[simp] theorem beginOp_position (c : Context) (i : Instr) : (s.beginOp c i).position = 0 := rfl
@[simp] theorem beginOp_coprocEnabled (c : Context) (i : Instr) : (s.beginOp c i).coprocEnabled = s.coprocEnabled := rfl
@[simp] theorem beginOp_gateOk (c : Context) (i : Instr) : (s.beginOp c i).gateOk = s.gateOk := rfl
@[simp] theorem beginOp_regEnable (c : Context) (i : Instr) : (s.beginOp c i).regEnable = s.regEnable := rfl
@[simp] theorem beginOp_regIntrClear (c : Context) (i : Instr) : (s.beginOp c i).regIntrClear = s.regIntrClear := rfl
@[simp] theorem beginOp_irqPending (c : Context) (i : Instr) : (s.beginOp c i).irqPending = s.irqPending := rfl
@[simp] theorem beginOp_sh (c : Context) (i : Instr) : (s.beginOp c i).sh = s.sh := rfl
@[simp] theorem beginOp_host (c : Context) (i : Instr) : (s.beginOp c i).host = s.host := rfl
@[simp] theorem beginOp_events (c : Context) (i : Instr) : (s.beginOp c i).events = .opBegin i c :: s.events := rfl
@[simp] theorem beginOp_moved (c : Context) (i : Instr) : (s.beginOp c i).moved = s.moved := rfl
@[simp] theorem beginOp_result (c : Context) (i : Instr) : (s.beginOp c i).result = none := rfl
@[simp] theorem beginOp_inp (c : Context) (i : Instr) : (s.beginOp c i).inp = s.inp := rfl

@[simp] theorem endOp_cfg (i : Instr) (r : Result) : (s.endOp i r).cfg = s.cfg := rfl
@[simp] theorem endOp_dev (i : Instr) (r : Result) : (s.endOp i r).dev = s.dev := rfl
@[simp] theorem endOp_initialized (i : Instr) (r : Result) : (s.endOp i r).initialized = s.initialized := rfl
@[simp] theorem endOp_dead (i : Instr) (r : Result) : (s.endOp i r).dead = s.dead := rfl
@[simp] theorem endOp_fault (i : Instr) (r : Result) : (s.endOp i r).fault = s.fault := rfl
@[simp] theorem endOp_active (i : Instr) (r : Result) : (s.endOp i r).active = none := rfl
@[simp] theorem endOp_position (i : Instr) (r : Result) : (s.endOp i r).position = 0 := rfl
@[simp] theorem endOp_coprocEnabled (i : Instr) (r : Result) : (s.endOp i r).coprocEnabled = s.coprocEnabled := rfl
@[simp] theorem endOp_gateOk (i : Instr) (r : Result) : (s.endOp i r).gateOk = s.gateOk := rfl
@[simp] theorem endOp_regEnable (i : Instr) (r : Result) : (s.endOp i r).regEnable = s.regEnable := rfl
@[simp] theorem endOp_regIntrClear (i : Instr) (r : Result) : (s.endOp i r).regIntrClear = s.regIntrClear := rfl
@[simp] theorem endOp_irqPending (i : Instr) (r : Result) : (s.endOp i r).irqPending = s.irqPending := rfl
@[simp] theorem endOp_sh (i : Instr) (r : Result) : (s.endOp i r).sh = s.sh := rfl
@[simp] theorem endOp_host (i : Instr) (r : Result) : (s.endOp i r).host = s.host := rfl
@[simp] theorem endOp_events (i : Instr) (r : Result) : (s.endOp i r).events = .opEnd i r :: s.events := rfl
@[simp] theorem endOp_moved (i : Instr) (r : Result) : (s.endOp i r).moved = s.moved := rfl
@[simp] theorem endOp_result (i : Instr) (r : Result) : (s.endOp i r).result = some r := rfl
@[simp] theorem endOp_inp (i : Instr) (r : Result) : (s.endOp i r).inp = s.inp := rfl

@[simp] theorem noteMove_cfg (m : EnvMove) : (s.noteMove m).cfg = s.cfg := rfl
@[simp] theorem noteMove_dev (m : EnvMove) : (s.noteMove m).dev = s.dev := rfl
@[simp] theorem noteMove_initialized (m : EnvMove) : (s.noteMove m).initialized = s.initialized := rfl
@[simp] theorem noteMove_dead (m : EnvMove) : (s.noteMove m).dead = s.dead := rfl
@[simp] theorem noteMove_fault (m : EnvMove) : (s.noteMove m).fault = s.fault := rfl
@[simp] theorem noteMove_active (m : EnvMove) : (s.noteMove m).active = s.active := rfl
@[simp] theorem noteMove_position (m : EnvMove) : (s.noteMove m).position = s.position := rfl
@[simp] theorem noteMove_coprocEnabled (m : EnvMove) : (s.noteMove m).coprocEnabled = s.coprocEnabled := rfl
@[simp] theorem noteMove_gateOk (m : EnvMove) : (s.noteMove m).gateOk = s.gateOk := rfl
@[simp] theorem noteMove_regEnable (m : EnvMove) : (s.noteMove m).regEnable = s.regEnable := rfl
@[simp] theorem noteMove_regIntrClear (m : EnvMove) : (s.noteMove m).regIntrClear = s.regIntrClear := rfl
@[simp] theorem noteMove_irqPending (m : EnvMove) : (s.noteMove m).irqPending = s.irqPending := rfl
@[simp] theorem noteMove_sh (m : EnvMove) : (s.noteMove m).sh = s.sh := rfl
@[simp] theorem noteMove_host (m : EnvMove) : (s.noteMove m).host = s.host := rfl
@[simp] theorem noteMove_events (m : EnvMove) : (s.noteMove m).events = s.events := rfl
@[simp] theorem noteMove_moved (m : EnvMove) : (s.noteMove m).moved = (s.events.length, m) :: s.moved := rfl
@[simp] theorem noteMove_result (m : EnvMove) : (s.noteMove m).result = s.result := rfl
@[simp] theorem noteMove_inp (m : EnvMove) : (s.noteMove m).inp = s.inp := rfl

@[simp] theorem sinkWrites_cfg : (s.sinkWrites).cfg = s.cfg := rfl
@[simp] theorem sinkWrites_dev : (s.sinkWrites).dev = s.dev := rfl
@[simp] theorem sinkWrites_initialized : (s.sinkWrites).initialized = s.initialized := rfl
@[simp] theorem sinkWrites_dead : (s.sinkWrites).dead = s.dead := rfl
@[simp] theorem sinkWrites_fault : (s.sinkWrites).fault = s.fault := rfl
@[simp] theorem sinkWrites_active : (s.sinkWrites).active = s.active := rfl
@[simp] theorem sinkWrites_position : (s.sinkWrites).position = s.position := rfl
@[simp] theorem sinkWrites_coprocEnabled : (s.sinkWrites).coprocEnabled = s.coprocEnabled := rfl
@[simp] theorem sinkWrites_gateOk : (s.sinkWrites).gateOk = s.gateOk := rfl
@[simp] theorem sinkWrites_regEnable : (s.sinkWrites).regEnable = s.regEnable := rfl
@[simp] theorem sinkWrites_regIntrClear : (s.sinkWrites).regIntrClear = s.regIntrClear := rfl
@[simp] theorem sinkWrites_irqPending : (s.sinkWrites).irqPending = s.irqPending := rfl
@[simp] theorem sinkWrites_sh : (s.sinkWrites).sh = s.sh := rfl
@[simp] theorem sinkWrites_events : (s.sinkWrites).events = s.events := rfl
@[simp] theorem sinkWrites_moved : (s.sinkWrites).moved = s.moved := rfl
@[simp] theorem sinkWrites_result : (s.sinkWrites).result = s.result := rfl
@[simp] theorem sinkWrites_host : (s.sinkWrites).host = s.host.writes (s.inp.sink.headD []) := rfl
@[simp] theorem sinkWrites_inp : (s.sinkWrites).inp = { s.inp with sink := s.inp.sink.tail } := rfl

@[simp] theorem becomeDead_cfg : (s.becomeDead).cfg = s.cfg := rfl
@[simp] theorem becomeDead_dev : (s.becomeDead).dev = s.dev := rfl
@[simp] theorem becomeDead_initialized : (s.becomeDead).initialized = s.initialized := rfl
@[simp] theorem becomeDead_dead : (s.becomeDead).dead = true := rfl
@[simp] theorem becomeDead_fault : (s.becomeDead).fault = s.fault := rfl
@[simp] theorem becomeDead_active : (s.becomeDead).active = s.active := rfl
@[simp] theorem becomeDead_position : (s.becomeDead).position = s.position := rfl
@[simp] theorem becomeDead_coprocEnabled : (s.becomeDead).coprocEnabled = s.coprocEnabled := rfl
@[simp] theorem becomeDead_gateOk : (s.becomeDead).gateOk = s.gateOk := rfl
@[simp] theorem becomeDead_regEnable : (s.becomeDead).regEnable = s.regEnable := rfl
@[simp] theorem becomeDead_regIntrClear : (s.becomeDead).regIntrClear = s.regIntrClear := rfl
@[simp] theorem becomeDead_irqPending : (s.becomeDead).irqPending = s.irqPending := rfl
@[simp] theorem becomeDead_sh : (s.becomeDead).sh = s.sh := rfl
@[simp] theorem becomeDead_host : (s.becomeDead).host = s.host := rfl
@[simp] theorem becomeDead_events : (s.becomeDead).events = s.events := rfl
@[simp] theorem becomeDead_moved : (s.becomeDead).moved = s.moved := rfl
@[simp] theorem becomeDead_result : (s.becomeDead).result = s.result := rfl
@[simp] theorem becomeDead_inp : (s.becomeDead).inp = s.inp := rfl

@[simp] theorem becomeUp_cfg : (s.becomeUp).cfg = s.cfg := rfl
@[simp] theorem becomeUp_initialized : (s.becomeUp).initialized = true := rfl
@[simp] theorem becomeUp_dead : (s.becomeUp).dead = s.dead := rfl
@[simp] theorem becomeUp_fault : (s.becomeUp).fault = s.fault := rfl
@[simp] theorem becomeUp_active : (s.becomeUp).active = s.active := rfl
@[simp] theorem becomeUp_position : (s.becomeUp).position = s.position := rfl
@[simp] theorem becomeUp_coprocEnabled : (s.becomeUp).coprocEnabled = s.coprocEnabled := rfl
@[simp] theorem becomeUp_gateOk : (s.becomeUp).gateOk = s.gateOk := rfl
@[simp] theorem becomeUp_regEnable : (s.becomeUp).regEnable = s.regEnable := rfl
@[simp] theorem becomeUp_regIntrClear : (s.becomeUp).regIntrClear = s.regIntrClear := rfl
@[simp] theorem becomeUp_irqPending : (s.becomeUp).irqPending = s.irqPending := rfl
@[simp] theorem becomeUp_sh : (s.becomeUp).sh = s.sh := rfl
@[simp] theorem becomeUp_host : (s.becomeUp).host = s.host := rfl
@[simp] theorem becomeUp_events : (s.becomeUp).events = s.events := rfl
@[simp] theorem becomeUp_moved : (s.becomeUp).moved = s.moved := rfl
@[simp] theorem becomeUp_result : (s.becomeUp).result = s.result := rfl
@[simp] theorem becomeUp_inp : (s.becomeUp).inp = s.inp := rfl

@[simp] theorem writeReg_cfg (o : Nat) (v : Word) : (s.writeReg o v).cfg = s.cfg := rfl
@[simp] theorem writeReg_dev (o : Nat) (v : Word) : (s.writeReg o v).dev = s.dev := rfl
@[simp] theorem writeReg_initialized (o : Nat) (v : Word) : (s.writeReg o v).initialized = s.initialized := rfl
@[simp] theorem writeReg_dead (o : Nat) (v : Word) : (s.writeReg o v).dead = s.dead := rfl
@[simp] theorem writeReg_fault (o : Nat) (v : Word) : (s.writeReg o v).fault = s.fault := rfl
@[simp] theorem writeReg_active (o : Nat) (v : Word) : (s.writeReg o v).active = s.active := rfl
@[simp] theorem writeReg_position (o : Nat) (v : Word) : (s.writeReg o v).position = s.position := rfl
@[simp] theorem writeReg_gateOk (o : Nat) (v : Word) : (s.writeReg o v).gateOk = s.gateOk := rfl
@[simp] theorem writeReg_sh (o : Nat) (v : Word) : (s.writeReg o v).sh = s.sh := rfl
@[simp] theorem writeReg_host (o : Nat) (v : Word) : (s.writeReg o v).host = s.host := rfl
@[simp] theorem writeReg_events (o : Nat) (v : Word) : (s.writeReg o v).events = s.events := rfl
@[simp] theorem writeReg_moved (o : Nat) (v : Word) : (s.writeReg o v).moved = s.moved := rfl
@[simp] theorem writeReg_result (o : Nat) (v : Word) : (s.writeReg o v).result = s.result := rfl
@[simp] theorem writeReg_inp (o : Nat) (v : Word) : (s.writeReg o v).inp = s.inp := rfl

end State

end Sys2Proof.Machine
end

