-- ==== Sys2Proof/Laws/Env.lean ====
section
/-! SUPPORT. What the environment's moves can do: one lemma for a list of moves, and what a tick leaves alone. -/

namespace Sys2Proof.Machine

variable {s t : State} {a : Nat}

/-- Everything a list of environment moves can do to the state. -/
theorem applyMoves_cases (ms : List EnvMove) : ∀ s : State, ∃ sh irq moved,
    State.applyMoves ms s = { s with sh := sh, irqPending := irq, moved := moved } ∧
    (s.irqPending = true → irq = true) ∧ (.raiseIrq ∉ ms → irq = s.irqPending) ∧
    (s.sh.wf = true → sh.wf = true ∧ ∀ a, (∀ m ∈ ms, ¬ m.WritesSh a) → sh.get a = s.sh.get a) ∧
    ((∀ c ∈ s.sh, c.1 < s.cfg.shmemSize) → ∀ c ∈ sh, c.1 < s.cfg.shmemSize) := by
  induction ms with
  | nil => exact fun s => ⟨s.sh, s.irqPending, s.moved, rfl, id, fun _ => rfl, fun h => ⟨h, fun _ _ => rfl⟩, id⟩
  | cons m ms ih =>
    intro s
    obtain ⟨sh, irq, moved, he, h1, h2, h3, h4⟩ := ih ((s.noteMove m).applyMove m)
    refine ⟨sh, irq, moved, ?_, ?_, ?_, ?_, ?_⟩
    · rw [State.applyMoves, he]
      cases m <;> simp only [State.applyMove] <;> (try split) <;> rfl
    · intro hq
      apply h1
      cases m <;> simp only [State.applyMove] <;> (try split) <;> simp [hq]
    · intro hn
      simp only [List.mem_cons, not_or] at hn
      rw [h2 hn.2]
      cases m <;> simp only [State.applyMove] <;> (try split) <;> simp at hn ⊢
    · intro hw
      have hw' : ((s.noteMove m).applyMove m).sh.wf = true := by
        cases m <;> simp only [State.applyMove] <;> (try split) <;> simp [hw, Memory.wf_set]
      refine ⟨(h3 hw').1, fun a ha => ?_⟩
      rw [(h3 hw').2 a fun m' hm' => ha m' (List.mem_cons_of_mem _ hm')]
      have hm := ha m List.mem_cons_self
      cases m <;> simp only [State.applyMove] <;> (try split) <;> simp only [State.noteMove_sh, State.setIrq_sh, State.setSh_sh]
      rename_i off b _
      exact Memory.get_set_ne hw fun h => hm ⟨b, by rw [h]⟩
    · intro hi
      have hc : ((s.noteMove m).applyMove m).cfg = s.cfg := by
        cases m <;> simp only [State.applyMove] <;> (try split) <;> rfl
      rw [hc] at h4
      apply h4
      cases m <;> simp only [State.applyMove] <;> (try split) <;> simp only [State.noteMove_sh, State.setIrq_sh, State.setSh_sh]
      iterate 1 exact hi
      · intro c hc
        rcases Memory.mem_set hc with rfl | hc
        · assumption
        · exact hi c hc
      all_goals exact hi

/-- Everything a tick of the environment can do to the state. -/
theorem envTick_cases (s : State) : ∃ sh irq moved moves,
    s.envTick = { s with sh := sh, irqPending := irq, moved := moved, inp := { s.inp with moves := moves } } ∧
    moves <:+ s.inp.moves ∧
    (s.irqPending = true → irq = true) ∧ (NoIrqMoves s → irq = s.irqPending) ∧
    (s.sh.wf = true → sh.wf = true ∧ ∀ a, ¬ s.inp.Moves (EnvMove.WritesSh a) → sh.get a = s.sh.get a) ∧
    ((∀ c ∈ s.sh, c.1 < s.cfg.shmemSize) → ∀ c ∈ sh, c.1 < s.cfg.shmemSize) := by
  unfold State.envTick
  split
  · rename_i hm
    exact ⟨s.sh, s.irqPending, s.moved, s.inp.moves, rfl, List.suffix_rfl, id, fun _ => rfl,
      fun h => ⟨h, fun _ _ => rfl⟩, id⟩
  · rename_i slot rest hm
    obtain ⟨sh, irq, moved, he, h1, h2, h3, h4⟩ := applyMoves_cases slot (s.setInp { s.inp with moves := rest })
    have hs : slot ∈ s.inp.moves := hm ▸ List.mem_cons_self
    refine ⟨sh, irq, moved, rest, he, hm ▸ List.suffix_cons _ _, h1, fun hn => ?_, fun hw => ?_, h4⟩
    · exact h2 fun h => hn ⟨slot, hs, _, h, rfl⟩
    · exact ⟨(h3 hw).1, fun a ha => (h3 hw).2 a fun m hm h => ha ⟨slot, hs, m, hm, h⟩⟩

section
variable (s : State)
theorem envTick_form : ∃ sh irq moved moves, s.envTick =
    { s with sh := sh, irqPending := irq, moved := moved, inp := { s.inp with moves := moves } } :=
  let ⟨a, b, c, d, h, _⟩ := envTick_cases s; ⟨a, b, c, d, h⟩
@[simp] theorem envTick_cfg : s.envTick.cfg = s.cfg := by obtain ⟨_, _, _, _, h⟩ := envTick_form s; rw [h]
@[simp] theorem envTick_dev : s.envTick.dev = s.dev := by obtain ⟨_, _, _, _, h⟩ := envTick_form s; rw [h]
@[simp] theorem envTick_initialized : s.envTick.initialized = s.initialized := by
  obtain ⟨_, _, _, _, h⟩ := envTick_form s; rw [h]
@[simp] theorem envTick_dead : s.envTick.dead = s.dead := by obtain ⟨_, _, _, _, h⟩ := envTick_form s; rw [h]
@[simp] theorem envTick_fault : s.envTick.fault = s.fault := by obtain ⟨_, _, _, _, h⟩ := envTick_form s; rw [h]
@[simp] theorem envTick_active : s.envTick.active = s.active := by obtain ⟨_, _, _, _, h⟩ := envTick_form s; rw [h]
@[simp] theorem envTick_position : s.envTick.position = s.position := by
  obtain ⟨_, _, _, _, h⟩ := envTick_form s; rw [h]
@[simp] theorem envTick_coprocEnabled : s.envTick.coprocEnabled = s.coprocEnabled := by
  obtain ⟨_, _, _, _, h⟩ := envTick_form s; rw [h]
@[simp] theorem envTick_gateOk : s.envTick.gateOk = s.gateOk := by obtain ⟨_, _, _, _, h⟩ := envTick_form s; rw [h]
@[simp] theorem envTick_regEnable : s.envTick.regEnable = s.regEnable := by
  obtain ⟨_, _, _, _, h⟩ := envTick_form s; rw [h]
@[simp] theorem envTick_regIntrClear : s.envTick.regIntrClear = s.regIntrClear := by
  obtain ⟨_, _, _, _, h⟩ := envTick_form s; rw [h]
@[simp] theorem envTick_host : s.envTick.host = s.host := by obtain ⟨_, _, _, _, h⟩ := envTick_form s; rw [h]
@[simp] theorem envTick_events : s.envTick.events = s.events := by obtain ⟨_, _, _, _, h⟩ := envTick_form s; rw [h]
@[simp] theorem envTick_result : s.envTick.result = s.result := by obtain ⟨_, _, _, _, h⟩ := envTick_form s; rw [h]
@[simp] theorem envTick_port : s.envTick.inp.port = s.inp.port := by obtain ⟨_, _, _, _, h⟩ := envTick_form s; rw [h]
@[simp] theorem envTick_sink : s.envTick.inp.sink = s.inp.sink := by obtain ⟨_, _, _, _, h⟩ := envTick_form s; rw [h]
@[simp] theorem envTick_turns : s.envTick.inp.turns = s.inp.turns := by
  obtain ⟨_, _, _, _, h⟩ := envTick_form s; rw [h]
end

/-- The moves already made stay noted. -/
theorem applyMoves_moved (ms : List EnvMove) : ∀ s : State, s.moved <:+ (State.applyMoves ms s).moved := by
  induction ms with
  | nil => exact fun _ => List.suffix_rfl
  | cons m ms ih =>
    intro s
    refine List.IsSuffix.trans ?_ (ih ((s.noteMove m).applyMove m))
    have : ((s.noteMove m).applyMove m).moved = (s.events.length, m) :: s.moved := by
      cases m <;> simp only [State.applyMove] <;> (try split) <;> rfl
    rw [this]
    exact List.suffix_cons _ _

/-- A pending bit that a list of moves has set was set by a signal, noted with the length of the history. -/
theorem applyMoves_irq (ms : List EnvMove) : ∀ s : State, s.irqPending = false →
    (State.applyMoves ms s).irqPending = true → (s.events.length, .raiseIrq) ∈ (State.applyMoves ms s).moved := by
  induction ms with
  | nil => intro s h h'; rw [State.applyMoves, h] at h'; cases h'
  | cons m ms ih =>
    intro s h h'
    rw [State.applyMoves] at h' ⊢
    have hm : ((s.noteMove m).applyMove m).moved = (s.events.length, m) :: s.moved := by
      cases m <;> simp only [State.applyMove] <;> (try split) <;> rfl
    have he : ((s.noteMove m).applyMove m).events = s.events := by
      cases m <;> simp only [State.applyMove] <;> (try split) <;> rfl
    by_cases hr : m = .raiseIrq
    · subst hr
      exact (applyMoves_moved ms _).subset (hm ▸ List.mem_cons_self)
    · have hq : ((s.noteMove m).applyMove m).irqPending = false := by
        cases m <;> simp only [State.applyMove] <;> (try split) <;> first | exact h | exact absurd rfl hr
      have := ih _ hq h'
      rwa [he] at this

/-- A pending bit that a tick has set was set by a signal of the tick. -/
theorem envTick_irq (h : s.irqPending = false) (h' : s.envTick.irqPending = true) :
    (s.events.length, .raiseIrq) ∈ s.envTick.moved := by
  unfold State.envTick at h' ⊢
  split at h' <;> rename_i hm
  · rw [h] at h'; cases h'
  · exact applyMoves_irq _ _ h h'

/-- A move in store after a part of the script has been used was in store before. -/
theorem Inputs.Moves.of_suffix {i j : Inputs} {P : EnvMove → Prop} (h : j.moves <:+ i.moves) (hj : j.Moves P) :
    i.Moves P := by
  obtain ⟨slot, hs, hm⟩ := hj
  exact ⟨slot, h.subset hs, hm⟩

end Sys2Proof.Machine
end

