-- ==== Sys2Proof/Laws/Bus.lean ====
section
/-! SUPPORT. What bus work can do: the relation `Bus W s t` says once what lies between two states of an operation whose
shared-memory writes stay inside W, and `Exit.OnBus` the same of a piece of an operation that may raise a fault. One
lemma for each shared operation. -/

namespace Sys2Proof.Machine

variable {α β : Type} {W W' : Nat → Prop} {s t u : State}

/-- Everything bus work can do between s and t when its shared-memory writes stay inside W. -/
structure Bus (W : Nat → Prop) (s t : State) : Prop where
  keeps : KeepsBlock s t
  active : t.active = s.active
  sh_wf : s.sh.wf = true → t.sh.wf = true
  sh : s.sh.wf = true → KeepsSh W s t
  host : t.host = s.host
  sh_inside : (∀ c ∈ s.sh, c.1 < s.cfg.shmemSize) → ∀ c ∈ t.sh, c.1 < s.cfg.shmemSize
  moves : t.inp.moves <:+ s.inp.moves
  events : ∃ es, t.events = es ++ s.events ∧ (∀ e ∈ es, e.onBus = true) ∧
    ∀ off v g, Event.shWrite off v g ∈ es → ∀ a, span off 4 a → W a

theorem KeepsBlock.refl (s : State) : KeepsBlock s s :=
  ⟨rfl, rfl, rfl, rfl, rfl, rfl, rfl, rfl, rfl, rfl, id, fun _ => rfl⟩

theorem KeepsBlock.trans (h : KeepsBlock s t) (h' : KeepsBlock t u) (hm : t.inp.moves <:+ s.inp.moves) :
    KeepsBlock s u :=
  ⟨h'.cfg.trans h.cfg, h'.dev.trans h.dev, h'.initialized.trans h.initialized, h'.dead.trans h.dead,
    h'.coprocEnabled.trans h.coprocEnabled, h'.regEnable.trans h.regEnable, h'.regIntrClear.trans h.regIntrClear,
    h'.port.trans h.port, h'.turns.trans h.turns, h'.sink.trans h.sink, fun q => h'.irq (h.irq q),
    fun n => (h'.irq_quiet fun hc => n (.of_suffix hm hc)).trans (h.irq_quiet n)⟩

theorem Bus.refl (W : Nat → Prop) (s : State) : Bus W s s :=
  ⟨.refl s, rfl, id, fun _ _ _ _ => rfl, rfl, id, List.suffix_rfl, [], rfl, by simp, by simp⟩

theorem Bus.trans (h : Bus W s t) (h' : Bus W t u) : Bus W s u where
  keeps := h.keeps.trans h'.keeps h.moves
  active := h'.active.trans h.active
  sh_wf w := h'.sh_wf (h.sh_wf w)
  sh w a ha hm := (h'.sh (h.sh_wf w) a ha fun hc => hm (.of_suffix h.moves hc)).trans (h.sh w a ha hm)
  host := h'.host.trans h.host
  sh_inside i := by have := h'.sh_inside; rw [h.keeps.cfg] at this; exact this (h.sh_inside i)
  moves := h'.moves.trans h.moves
  events := by
    obtain ⟨es, he, hb, hi⟩ := h.events
    obtain ⟨es', he', hb', hi'⟩ := h'.events
    exact ⟨es' ++ es, by rw [he', he, List.append_assoc], fun e hm => (List.mem_append.mp hm).elim (hb' e) (hb e),
      fun off v g hm => (List.mem_append.mp hm).elim (hi' off v g) (hi off v g)⟩

theorem Bus.mono (h : Bus W s t) (hW : ∀ a, W a → W' a) : Bus W' s t where
  keeps := h.keeps
  active := h.active
  sh_wf := h.sh_wf
  sh w a ha := h.sh w a fun hc => ha (hW a hc)
  host := h.host
  sh_inside := h.sh_inside
  moves := h.moves
  events := by
    obtain ⟨es, he, hb, hi⟩ := h.events
    exact ⟨es, he, hb, fun off v g hm a ha => hW a (hi off v g hm a ha)⟩

/-- A history without a timeout had none before. -/
theorem Bus.noTimeout (h : Bus W s t) (hn : NoTimeout t) : NoTimeout s := by
  obtain ⟨es, he, -, -⟩ := h.events
  exact fun hc => hn (he ▸ List.mem_append_right es hc)

theorem Bus.envTick (s : State) : Bus W s s.envTick := by
  obtain ⟨sh, irq, moved, moves, he, h0, h1, h2, h3, h4⟩ := envTick_cases s
  rw [he]
  exact ⟨⟨rfl, rfl, rfl, rfl, rfl, rfl, rfl, rfl, rfl, rfl, h1, h2⟩, rfl, fun w => (h3 w).1,
    fun w a _ hm => (h3 w).2 a hm, rfl, h4, h0, [], rfl, by simp, by simp⟩

theorem Bus.emit (e : Event) (he : e.onBus = true) (hi : ∀ off v g, e = .shWrite off v g → ∀ a, span off 4 a → W a) :
    Bus W s (s.emit e) :=
  ⟨⟨rfl, rfl, rfl, rfl, rfl, rfl, rfl, rfl, rfl, rfl, id, fun _ => rfl⟩, rfl, id, fun _ _ _ _ => rfl, rfl, id, List.suffix_rfl, [e], rfl, by simp [he],
    fun off v g hm => hi off v g (List.mem_singleton.mp hm).symm⟩

theorem Bus.setGate (b : Bool) : Bus W s (s.setGate b) :=
  ⟨⟨rfl, rfl, rfl, rfl, rfl, rfl, rfl, rfl, rfl, rfl, id, fun _ => rfl⟩, rfl, id, fun _ _ _ _ => rfl, rfl, id, List.suffix_rfl, [], rfl, by simp, by simp⟩

theorem Bus.recordFault (f : BlockFault) : Bus W s (s.recordFault f) :=
  ⟨⟨rfl, rfl, rfl, rfl, rfl, rfl, rfl, rfl, rfl, rfl, id, fun _ => rfl⟩, rfl, id, fun _ _ _ _ => rfl, rfl, id, List.suffix_rfl, [.fault f], rfl, by simp [Event.onBus], by simp⟩

/-- Inputs that differ only in draws. -/
structure SameScript (i j : Inputs) : Prop where
  port : j.port = i.port
  moves : j.moves = i.moves
  turns : j.turns = i.turns
  sink : j.sink = i.sink

theorem SameScript.refl (i : Inputs) : SameScript i i := ⟨rfl, rfl, rfl, rfl⟩

theorem SameScript.trans {i j k : Inputs} (h : SameScript i j) (h' : SameScript j k) : SameScript i k :=
  ⟨h'.port.trans h.port, h'.moves.trans h.moves, h'.turns.trans h.turns, h'.sink.trans h.sink⟩

theorem drawPoll_sameScript (i : Inputs) : SameScript i i.drawPoll.2 := by
  unfold Inputs.drawPoll; split <;> exact ⟨rfl, rfl, rfl, rfl⟩

theorem drawByte_sameScript (i : Inputs) : SameScript i i.drawByte.2 := by
  unfold Inputs.drawByte; split <;> exact ⟨rfl, rfl, rfl, rfl⟩

theorem drawWord_sameScript (i : Inputs) : SameScript i i.drawWord.2 := by
  unfold Inputs.drawWord; split <;> exact ⟨rfl, rfl, rfl, rfl⟩

theorem drawBool_sameScript (i : Inputs) : SameScript i i.drawBool.2 := by
  unfold Inputs.drawBool; split <;> exact ⟨rfl, rfl, rfl, rfl⟩

theorem drawBytes_sameScript (n : Nat) : ∀ i : Inputs, SameScript i (i.drawBytes n).2 := by
  induction n with
  | zero => exact fun i => .refl i
  | succ n ih => exact fun i => (drawByte_sameScript i).trans (ih _)

@[simp] theorem length_drawBytes (n : Nat) : ∀ i : Inputs, (i.drawBytes n).1.length = n := by
  induction n with
  | zero => exact fun _ => rfl
  | succ n ih => exact fun i => by rw [Inputs.drawBytes, List.length_cons, ih]

theorem Bus.setInp {i : Inputs} (h : SameScript s.inp i) : Bus W s (s.setInp i) :=
  ⟨⟨rfl, rfl, rfl, rfl, rfl, rfl, rfl, h.port, h.turns, h.sink, id, fun _ => rfl⟩, rfl, id, fun _ _ _ _ => rfl, rfl, id, by rw [State.setInp_inp, h.moves], [], rfl, by simp, by simp⟩

/-- Bytes written to shared memory. -/
theorem Bus.setBytes {off : Nat} {bs : List Byte} (hW : ∀ a, span off bs.length a → W a)
    (hin : off + bs.length ≤ s.cfg.shmemSize) : Bus W s (s.setSh (s.sh.setBytes off bs)) :=
  ⟨⟨rfl, rfl, rfl, rfl, rfl, rfl, rfl, rfl, rfl, rfl, id, fun _ => rfl⟩, rfl, Memory.wf_setBytes bs,
    fun w a ha _ => Memory.get_setBytes_of_not bs w fun hc => ha (hW a hc), rfl,
    fun h c hc => (Memory.mem_setBytes bs hc).elim (fun h => by omega) (h c), List.suffix_rfl, [], rfl, by simp, by simp⟩

/-! ### Pieces of an operation -/

/-- A piece of an operation, begun in s, did only bus work: it went on with the fault and the result as they were, or
raised a fault. -/
def Exit.OnBus (W : Nat → Prop) (s : State) : Exit α → Prop
  | .ok _ t => Bus W s t ∧ t.fault = s.fault ∧ t.result = s.result
  | .raised t => Bus W s t ∧ ∃ f, t.fault = some f ∧ t.result = none ∧ t.events.head? = some (.fault f)

@[simp] theorem Exit.bind_ok (a : α) (s : State) (k : α → State → Exit β) : (Exit.ok a s).bind k = k a s := rfl

@[simp] theorem Exit.bind_raised (s : State) (k : α → State → Exit β) : (Exit.raised s).bind k = .raised s := rfl

@[simp] theorem raise_bind (f : BlockFault) (s : State) (k : α → State → Exit β) :
    (raise f s : Exit α).bind k = raise f s := rfl

/-- The alignment check of the writers (R58 (a)). -/
theorem aligned_check {off : Nat} : (off % Config.destAlign == 0) = decide (off % 4 = 0) := by
  simp only [destAlign_eq]; by_cases h : off % 4 = 0 <;> simp [h]

/-- The even-length check of WRITE_DEINT16 (R115). -/
theorem even_check {len : Nat} : (len % 2 == 0) = decide (len % 2 = 0) := by
  by_cases h : len % 2 = 0 <;> simp [h]

theorem Exit.bind_eq_ok {x : Exit α} {k : α → State → Exit β} {b : β} {t : State} :
    x.bind k = .ok b t ↔ ∃ a s, x = .ok a s ∧ k a s = .ok b t := by
  cases x <;> simp [Exit.bind]

theorem Exit.bind_eq_raised {x : Exit α} {k : α → State → Exit β} {t : State} :
    x.bind k = .raised t ↔ x = .raised t ∨ ∃ a s, x = .ok a s ∧ k a s = .raised t := by
  cases x <;> simp [Exit.bind]

theorem Exit.OnBus.of_bus (a : α) (h : Bus W s t) (hf : t.fault = s.fault) (hr : t.result = s.result) :
    (Exit.ok a t).OnBus W s := ⟨h, hf, hr⟩

/-- Work done before a piece of bus work. -/
theorem Exit.OnBus.after {x : Exit α} (h : Bus W s t) (hf : t.fault = s.fault) (hr : t.result = s.result)
    (hx : x.OnBus W t) : x.OnBus W s := by
  cases x with
  | ok a u => exact ⟨h.trans hx.1, hx.2.1.trans hf, hx.2.2.trans hr⟩
  | raised u => exact ⟨h.trans hx.1, hx.2⟩

theorem Exit.OnBus.bind {x : Exit α} {k : α → State → Exit β} (hx : x.OnBus W s)
    (hk : ∀ a t, x = .ok a t → (k a t).OnBus W t) : (x.bind k).OnBus W s := by
  cases x with
  | ok a t => exact (hk a t rfl).after hx.1 hx.2.1 hx.2.2
  | raised t => exact hx

theorem Exit.OnBus.mono {x : Exit α} (h : x.OnBus W s) (hW : ∀ a, W a → W' a) : x.OnBus W' s := by
  cases x with
  | ok a t => exact ⟨h.1.mono hW, h.2⟩
  | raised t => exact ⟨h.1.mono hW, h.2⟩

theorem Exit.OnBus.state {x : Exit α} (h : x.OnBus W s) : Bus W s x.state := by
  cases x with
  | ok a t => exact h.1
  | raised t => exact h.1

theorem raise_onBus (f : BlockFault) : (raise f s : Exit α).OnBus W s :=
  ⟨(Bus.envTick s).trans (Bus.recordFault f), f, rfl, rfl, rfl⟩

theorem require_onBus (c : Bool) (f : BlockFault) : (require c f s).OnBus W s := by
  unfold require
  split
  · exact ⟨.refl W s, rfl, rfl⟩
  · exact raise_onBus f

@[simp] theorem require_true (f : BlockFault) : require true f s = .ok () s := rfl

@[simp] theorem require_false (f : BlockFault) : require false f s = raise f s := rfl

theorem require_eq_ok {c : Bool} {f : BlockFault} {t : State} : require c f s = .ok () t ↔ c = true ∧ s = t := by
  cases c <;> simp [require, raise]

theorem readField_onBus (name : Field) (v : Option α) : (readField name v s).OnBus W s := by
  unfold readField
  split
  · exact ⟨.refl W s, rfl, rfl⟩
  · exact raise_onBus _

@[simp] theorem readField_some (name : Field) (a : α) : readField name (some a) s = .ok a s := rfl

@[simp] theorem readField_none (name : Field) : readField name (none : Option α) s = raise (.unset name) s := rfl

theorem readField_bind {name : Field} {v : Option α} {a : α} {k : α → State → Exit β} (h : v = some a) :
    (readField name v s).bind k = k a s := by subst h; rfl

theorem readField_none_bind {name : Field} {v : Option α} {k : α → State → Exit β} (h : v = none) :
    (readField name v s).bind k = raise (.unset name) s := by subst h; rfl

theorem require_bind {c : Bool} {f : BlockFault} {k : Unit → State → Exit β} (h : c = true) :
    (require c f s).bind k = k () s := by subst h; rfl

theorem Exit.bind_assoc {γ : Type} (x : Exit α) (k : α → State → Exit β) (l : β → State → Exit γ) :
    (x.bind k).bind l = x.bind fun a s => (k a s).bind l := by cases x <;> rfl

theorem readField_eq_ok {name : Field} {v : Option α} {a : α} {t : State} :
    readField name v s = .ok a t ↔ v = some a ∧ s = t := by
  cases v <;> simp [readField, raise]

/-! ### The memory primitives -/

theorem memReadSh_onBus (off : Nat) : (memReadSh off s).OnBus W s := by
  unfold memReadSh
  refine (require_onBus _ _).bind fun _ t h => ?_
  obtain ⟨-, rfl⟩ := require_eq_ok.mp h
  refine (require_onBus _ _).bind fun _ t h => ?_
  obtain ⟨-, rfl⟩ := require_eq_ok.mp h
  exact ⟨(Bus.envTick s).trans (.emit _ rfl (by simp)), by simp, by simp⟩

theorem landed (off : Nat) (v : Word) (g : Bool) (off' : Nat) (v' : Word) (g' : Bool)
    (h : Event.shWrite off v g = .shWrite off' v' g') (a : Nat) (ha : span off' 4 a) : span off 4 a := by
  cases h; exact ha

theorem landWord_bus (off : Nat) (v : Word) (g : Bool) (hin : off + 4 ≤ s.cfg.shmemSize) :
    Bus (span off 4) s (landWord off v g s) := by
  unfold landWord
  cases g with
  | true => exact (Bus.setBytes (bs := [_, _, _, _]) (fun _ h => h) hin).trans (.emit _ rfl (landed off v true))
  | false =>
    refine ((Bus.setInp (drawBytes_sameScript 4 s.inp)).trans (Bus.setBytes ?_ ?_)).trans (.emit _ rfl (landed off v false))
    · intro a h; exact (length_drawBytes 4 s.inp) ▸ h
    · exact (length_drawBytes 4 s.inp).symm ▸ hin

@[simp] theorem landWord_fault (off : Nat) (v : Word) (g : Bool) : (landWord off v g s).fault = s.fault := by
  cases g <;> rfl

@[simp] theorem landWord_result (off : Nat) (v : Word) (g : Bool) : (landWord off v g s).result = s.result := by
  cases g <;> rfl

@[simp] theorem landWord_gateOk (off : Nat) (v : Word) (g : Bool) : (landWord off v g s).gateOk = s.gateOk := by
  cases g <;> rfl

theorem memWriteSh_onBus (off : Nat) (v : Word) : (memWriteSh off v s).OnBus (span off 4) s := by
  unfold memWriteSh
  refine (require_onBus _ _).bind fun _ t h => ?_
  obtain ⟨-, rfl⟩ := require_eq_ok.mp h
  refine (require_onBus _ _).bind fun _ t h => ?_
  obtain ⟨hin, rfl⟩ := require_eq_ok.mp h
  refine (readField_onBus _ _).bind fun g t h => ?_
  obtain ⟨-, rfl⟩ := readField_eq_ok.mp h
  refine ⟨(Bus.envTick _).trans (landWord_bus off v g ?_), by simp, by simp⟩
  rw [envTick_cfg]
  exact of_decide_eq_true hin

/-- A shared-memory write completes: aligned, in range, and some wait made before. -/
theorem memWriteSh_ok {off : Nat} {v : Word} {g : Bool} (ha : off % 4 = 0) (hin : off + 4 ≤ s.cfg.shmemSize)
    (hg : s.gateOk = some g) : memWriteSh off v s = .ok () (landWord off v g s.envTick) := by
  simp [memWriteSh, wordBytes_eq, destAlign_eq, ha, hin, hg]

/-- What a shared-memory write that completes has done. -/
theorem memWriteSh_eq_ok {off : Nat} {v : Word} (h : memWriteSh off v s = .ok () t) :
    off % 4 = 0 ∧ off + 4 ≤ s.cfg.shmemSize ∧ ∃ g, s.gateOk = some g ∧ t = landWord off v g s.envTick := by
  unfold memWriteSh at h
  obtain ⟨_, u, h1, h⟩ := Exit.bind_eq_ok.mp h
  obtain ⟨ha, rfl⟩ := require_eq_ok.mp h1
  obtain ⟨_, u, h1, h⟩ := Exit.bind_eq_ok.mp h
  obtain ⟨hin, rfl⟩ := require_eq_ok.mp h1
  obtain ⟨g, u, h1, h⟩ := Exit.bind_eq_ok.mp h
  obtain ⟨hg, rfl⟩ := readField_eq_ok.mp h1
  refine ⟨by simpa [destAlign_eq] using ha, of_decide_eq_true hin, g, hg, ?_⟩
  simpa using h.symm

theorem memReadSh_ok {off : Nat} (ha : off % 4 = 0) (hin : off + 4 ≤ s.cfg.shmemSize) :
    memReadSh off s = .ok (s.envTick.sh.getWord off) (s.envTick.emit (.shRead off (s.envTick.sh.getWord off))) := by
  simp [memReadSh, wordBytes_eq, destAlign_eq, ha, hin]

theorem memReadHost_onBus (addr n : Nat) : (memReadHost addr n s).OnBus W s := by
  unfold memReadHost
  refine (require_onBus _ _).bind fun _ t h => ?_
  obtain ⟨-, rfl⟩ := require_eq_ok.mp h
  exact ⟨(Bus.envTick s).trans (.emit _ rfl (by simp)), by simp, by simp⟩

theorem memReadHost_ok {addr n : Nat} (hin : addr + n ≤ 2 ^ 32) : memReadHost addr n s =
    .ok (s.host.getBytes addr n) (s.envTick.emit (.hostRead addr (s.host.getBytes addr n))) := by
  have : addr + n ≤ Config.hostSize := hin
  simp [memReadHost, this]

theorem memReadHost_eq_ok {addr n : Nat} {b : List Byte} (h : memReadHost addr n s = .ok b t) :
    addr + n ≤ 2 ^ 32 ∧ b = s.host.getBytes addr n ∧ t = s.envTick.emit (.hostRead addr (s.host.getBytes addr n)) := by
  unfold memReadHost at h
  obtain ⟨_, u, h1, h⟩ := Exit.bind_eq_ok.mp h
  obtain ⟨hin, rfl⟩ := require_eq_ok.mp h1
  simp only [Exit.ok.injEq, envTick_host] at h
  exact ⟨of_decide_eq_true hin, h.1.symm, h.2.symm⟩

/-- The range faults of the primitives (R55, R57). -/
theorem memWriteSh_range {off : Nat} {v : Word} (ha : off % 4 = 0) (hin : s.cfg.shmemSize < off + 4) :
    memWriteSh off v s = raise (.range .sh off) s := by
  have : ¬ (off + Config.wordBytes ≤ s.cfg.shmemSize) := by rw [wordBytes_eq]; omega
  rw [memWriteSh, aligned_check, decide_eq_true ha, require_true, Exit.bind_ok, decide_eq_false this]
  rfl

theorem memReadHost_range {addr n : Nat} (hin : 2 ^ 32 < addr + n) :
    memReadHost addr n s = raise (.range .host addr) s := by
  have : ¬ (addr + n ≤ Config.hostSize) := by simp only [Config.hostSize]; omega
  rw [memReadHost, decide_eq_false this]
  rfl

/-! ### The Bus Gate -/

theorem pollStatus_bus (s : State) : Bus W s (pollStatus s).2 :=
  ((Bus.envTick s).trans (.setInp (drawPoll_sameScript _))).trans (.emit _ rfl (by simp))

@[simp] theorem pollStatus_fault (s : State) : (pollStatus s).2.fault = s.fault := by simp [pollStatus]
@[simp] theorem pollStatus_result (s : State) : (pollStatus s).2.result = s.result := by simp [pollStatus]
@[simp] theorem pollStatus_cfg (s : State) : (pollStatus s).2.cfg = s.cfg := by simp [pollStatus]
@[simp] theorem pollStatus_sh (s : State) : (pollStatus s).2.sh = s.envTick.sh := rfl

theorem gateResult_bus (b : Bool) (s : State) : Bus W s (gateResult b s) :=
  ((Bus.envTick s).trans (.setGate b)).trans (.emit _ rfl (by simp))

@[simp] theorem gateResult_fault (b : Bool) (s : State) : (gateResult b s).fault = s.fault := by simp [gateResult]
@[simp] theorem gateResult_result (b : Bool) (s : State) : (gateResult b s).result = s.result := by simp [gateResult]
@[simp] theorem gateResult_events (b : Bool) (s : State) : (gateResult b s).events = .gate b :: s.events := by
  simp [gateResult]

/-- Everything a wait can do (R101): at most n polls, each but the last not ready; the gate says whether the last one
was; and the wait is recorded. -/
theorem waitLoop_spec (n : Nat) : ∀ s : State, Bus W s (waitLoop n s) ∧ (waitLoop n s).fault = s.fault ∧
    (waitLoop n s).result = s.result ∧ ∃ g polls, (waitLoop n s).gateOk = some g ∧
      (waitLoop n s).events = .gate g :: (polls.map Event.poll ++ s.events) ∧ polls.length ≤ n ∧
      (0 < n → polls ≠ []) ∧ (∀ v ∈ polls.tail, isReady s.cfg v = false) ∧
      (g = true → ∃ v, polls.head? = some v ∧ isReady s.cfg v = true) ∧
      (g = false → polls.length = n ∧ ∀ v ∈ polls, isReady s.cfg v = false) := by
  induction n with
  | zero => exact fun s => ⟨gateResult_bus _ s, by simp [waitLoop], by simp [waitLoop], false, [], rfl, by simp [waitLoop], by simp, by simp, by simp, by simp,
      by simp⟩
  | succ n ih =>
    intro s
    rw [waitLoop]
    split
    · rename_i hr
      refine ⟨(pollStatus_bus s).trans (gateResult_bus _ _), by simp [gateResult], by simp [gateResult], true,
        [(pollStatus s).1], rfl, by simp [gateResult, pollStatus], by simp, by simp, by simp, ?_, by simp⟩
      exact fun _ => ⟨_, rfl, by simpa using hr⟩
    · rename_i hr
      obtain ⟨hb, hf, hres, g, polls, hg, he, hl, hne, ht, hT, hF⟩ := ih (pollStatus s).2
      rw [pollStatus_cfg] at ht hT hF
      have hr' : isReady s.cfg (pollStatus s).1 = false := by simpa using hr
      refine ⟨(pollStatus_bus s).trans hb, by simp [hf], by simp [hres], g, polls ++ [(pollStatus s).1], hg, ?_, ?_,
        by simp, ?_, ?_, ?_⟩
      · rw [he]; simp [pollStatus]
      · simp; omega
      · intro v hv
        cases polls with
        | nil => simp at hv
        | cons p ps =>
          simp only [List.cons_append, List.tail_cons, List.mem_append, List.mem_singleton] at hv
          rcases hv with hv | rfl
          · exact ht v hv
          · exact hr'
      · intro h
        obtain ⟨v, hv, hr⟩ := hT h
        exact ⟨v, by cases polls <;> simp_all, hr⟩
      · intro h
        refine ⟨by simp [(hF h).1], fun v hv => ?_⟩
        rcases List.mem_append.mp hv with hv | hv
        · exact (hF h).2 v hv
        · rw [List.mem_singleton.mp hv]; exact hr'

theorem waitReady_bus (s : State) : Bus W s (waitReady s) := (waitLoop_spec _ s).1

@[simp] theorem waitReady_fault (s : State) : (waitReady s).fault = s.fault := (waitLoop_spec (W := fun _ => False) _ s).2.1

@[simp] theorem waitReady_result (s : State) : (waitReady s).result = s.result :=
  (waitLoop_spec (W := fun _ => False) _ s).2.2.1

theorem waitReady_gate (s : State) : ∃ g, (waitReady s).gateOk = some g ∧ Event.gate g ∈ (waitReady s).events := by
  obtain ⟨-, -, -, g, polls, hg, he, -⟩ := waitLoop_spec (W := fun _ => False) s.cfg.waitLimit s
  exact ⟨g, hg, by rw [waitReady, he]; exact List.mem_cons_self⟩

/-- A wait that left no timeout in the history was ready. -/
theorem waitReady_ready (h : NoTimeout (waitReady s)) : (waitReady s).gateOk = some true := by
  obtain ⟨g, hg, he⟩ := waitReady_gate s
  cases g with
  | true => exact hg
  | false => exact absurd he h

theorem waitReady_onBus (s : State) (a : α) : (Exit.ok a (waitReady s)).OnBus W s :=
  ⟨waitReady_bus s, by simp, by simp⟩

end Sys2Proof.Machine
end

