-- ==== Sys2Proof/Laws/BlockCopy.lean ====
section
/-! SUPPORT. WRITE_BLOCK and WRITE_BLOCK_SEQ (R110, R111): what they can do, when they complete, and the bytes they
leave. -/

namespace Sys2Proof.Machine

variable {W : Nat → Prop} {s t : State}

theorem span_left {a m n x : Nat} (hm : m ≤ n) (h : span a m x) : span a n x := ⟨h.1, by have := h.2; omega⟩

theorem span_right {a m n k x : Nat} (hm : k + m ≤ n) (h : span (a + k) m x) : span a n x :=
  ⟨by have := h.1; omega, by have := h.2; omega⟩

/-! ### The definitions with the word's size written out -/

theorem BlockSource.next_host (a : Nat) : (BlockSource.host a).next = .host (a + 4) := rfl

theorem BlockSource.next_seq (l : List Byte) : (BlockSource.seq l).next = .seq (l.drop 4) := rfl

theorem BlockSource.next_zeros : BlockSource.zeros.next = .zeros := rfl

theorem writeBlockWord_eq (dest len : Nat) (src : BlockSource) (s : State) : writeBlockWord dest len src s =
    (fetchBytes src (min 4 len) s).bind fun b u =>
      memWriteSh dest (leValue (b ++ (u.inp.drawBytes (4 - min 4 len)).1)) (u.setInp (u.inp.drawBytes (4 - min 4 len)).2) := rfl

theorem writeBlockLoop_succ (n j dest len : Nat) (src : BlockSource) (s : State) : writeBlockLoop (n + 1) j dest len src s =
    (writeBlockWord dest len src (waitAtBurst j s)).bind fun _ u => writeBlockLoop n (j + 1) (dest + 4) (len - 4) src.next u := rfl

/-! ### The source of a block -/

/-- Byte i of a source, as the state gives it. -/
def BlockSource.byteAt (src : BlockSource) (s : State) (i : Nat) : Byte :=
  match src with
  | .host addr => s.host.get (addr + i)
  | .seq bytes => bytes.getD i 0
  | .zeros => 0

/-- The source holds len bytes inside its space. -/
def BlockSource.Holds (src : BlockSource) (len : Nat) : Prop :=
  match src with
  | .host addr => addr + len ≤ 2 ^ 32
  | .seq bytes => bytes.length = len
  | .zeros => True

theorem BlockSource.Holds.next {src : BlockSource} {len : Nat} (h : src.Holds len) (hl : 4 ≤ len) :
    src.next.Holds (len - 4) := by
  cases src <;> simp only [Holds, next_host, next_seq, next_zeros, List.length_drop] at h ⊢ <;> omega

theorem BlockSource.byteAt_next (src : BlockSource) (i : Nat) : src.next.byteAt s i = src.byteAt s (4 + i) := by
  cases src <;> simp [byteAt, next_host, next_seq, next_zeros, Nat.add_assoc]

/-- Bus work leaves the source as it was. -/
theorem BlockSource.byteAt_bus {src : BlockSource} {i : Nat} (h : Bus W s t) : src.byteAt t i = src.byteAt s i := by
  cases src with
  | host a => simp [byteAt, h.host]
  | seq b => rfl
  | zeros => rfl

theorem fetchBytes_onBus (src : BlockSource) (k : Nat) : (fetchBytes src k s).OnBus W s := by
  cases src with
  | host a => exact memReadHost_onBus a k
  | seq b => exact ⟨.refl W s, rfl, rfl⟩
  | zeros => exact ⟨.refl W s, rfl, rfl⟩

theorem fetchBytes_ok {src : BlockSource} {k len : Nat} (h : src.Holds len) (hk : k ≤ len) :
    ∃ b t, fetchBytes src k s = .ok b t ∧ t.gateOk = s.gateOk := by
  cases src with
  | host a => exact ⟨_, _, memReadHost_ok (by simp only [BlockSource.Holds] at h; omega), by simp⟩
  | seq b => exact ⟨_, _, rfl, rfl⟩
  | zeros => exact ⟨_, _, rfl, rfl⟩

theorem fetchBytes_eq_ok {src : BlockSource} {k len : Nat} {b : List Byte} (h : src.Holds len) (hk : k ≤ len)
    (he : fetchBytes src k s = .ok b t) : t.gateOk = s.gateOk ∧ b.length = k ∧
      ∀ i, i < k → b.getD i 0 = src.byteAt s i := by
  cases src with
  | host a =>
    obtain ⟨-, rfl, rfl⟩ := memReadHost_eq_ok he
    refine ⟨by simp, by simp, fun i hi => ?_⟩
    rw [List.getD_eq_getElem _ _ (by simpa using hi), Memory.getElem_getBytes]
    rfl
  | seq l =>
    simp only [fetchBytes, Exit.ok.injEq] at he
    obtain ⟨rfl, rfl⟩ := he
    simp only [BlockSource.Holds] at h
    exact ⟨rfl, by simp; omega, fun i hi => by simp [BlockSource.byteAt, hi]⟩
  | zeros =>
    simp only [fetchBytes, Exit.ok.injEq] at he
    obtain ⟨rfl, rfl⟩ := he
    refine ⟨rfl, by simp, fun i hi => ?_⟩
    simp [BlockSource.byteAt, hi]

/-! ### The loop -/

theorem waitAtBurst_bus (j : Nat) (s : State) : Bus W s (waitAtBurst j s) := by
  unfold waitAtBurst
  split
  · exact waitReady_bus s
  · exact .refl W s

@[simp] theorem waitAtBurst_fault (j : Nat) (s : State) : (waitAtBurst j s).fault = s.fault := by
  unfold waitAtBurst; split <;> simp

@[simp] theorem waitAtBurst_result (j : Nat) (s : State) : (waitAtBurst j s).result = s.result := by
  unfold waitAtBurst; split <;> simp

theorem waitAtBurst_gate (j : Nat) (h : j % s.cfg.wbBurstWords = 0 ∨ ∃ g, s.gateOk = some g) :
    ∃ g, (waitAtBurst j s).gateOk = some g := by
  unfold waitAtBurst
  split
  · obtain ⟨g, hg, -⟩ := waitReady_gate s; exact ⟨g, hg⟩
  · exact h.resolve_left ‹_›

theorem waitAtBurst_ready (j : Nat) (h : j % s.cfg.wbBurstWords = 0 ∨ s.gateOk = some true)
    (hn : NoTimeout (waitAtBurst j s)) : (waitAtBurst j s).gateOk = some true := by
  unfold waitAtBurst at *
  split
  · exact waitReady_ready (by simpa [*] using hn)
  · exact h.resolve_left ‹_›

theorem writeBlockWord_onBus (dest len : Nat) (src : BlockSource) : (writeBlockWord dest len src s).OnBus (span dest 4) s := by
  rw [writeBlockWord_eq]
  refine (fetchBytes_onBus _ _).bind fun b t _ => ?_
  exact Exit.OnBus.after (Bus.setInp (drawBytes_sameScript _ _)) rfl rfl (memWriteSh_onBus _ _)

theorem writeBlockLoop_onBus (n : Nat) : ∀ (j dest len : Nat) (src : BlockSource) (s : State),
    (writeBlockLoop n j dest len src s).OnBus (span dest (4 * n)) s := by
  induction n with
  | zero => exact fun _ _ _ _ s => ⟨.refl _ s, rfl, rfl⟩
  | succ n ih =>
    intro j dest len src s
    rw [writeBlockLoop_succ]
    refine Exit.OnBus.after (waitAtBurst_bus j s) (by simp) (by simp) ?_
    refine ((writeBlockWord_onBus dest len src).mono fun a h => span_left (by omega) h).bind fun _ t _ => ?_
    exact (ih _ _ _ _ t).mono fun a h => span_right (by omega) h

/-- What one word of a block leaves when it completes. -/
theorem writeBlockWord_eq_ok {dest len : Nat} {src : BlockSource} (h : src.Holds len)
    (he : writeBlockWord dest len src s = .ok () t) : t.gateOk = s.gateOk ∧
      (s.gateOk = some true → s.sh.wf = true → ∀ i, i < 4 → i < len → t.sh.get (dest + i) = src.byteAt s i) := by
  rw [writeBlockWord_eq] at he
  obtain ⟨b, u, hf, he⟩ := Exit.bind_eq_ok.mp he
  have hb := (fetchBytes_onBus (W := fun _ => False) src (min 4 len) (s := s))
  rw [hf] at hb
  obtain ⟨hg, hlen, hv⟩ := fetchBytes_eq_ok h (by omega) hf
  obtain ⟨-, -, g, hgu, rfl⟩ := memWriteSh_eq_ok he
  have hgu' : u.gateOk = some g := hgu
  refine ⟨by simp [hg], fun hready hsh i hi hil => ?_⟩
  rw [hg, hready] at hgu'
  cases hgu'
  have hwf : (u.setInp (Inputs.drawBytes (4 - min 4 len) u.inp).2).envTick.sh.wf = true :=
    (Bus.envTick (W := fun _ => False) _).sh_wf (hb.1.sh_wf hsh)
  simp only [landWord, State.emit_sh, State.setSh_sh]
  rw [Memory.get_setWord hwf hi, Memory.wordByte_leValue hi, ← hv i (by omega)]
  simp only [List.getD_eq_getElem?_getD]
  rw [List.getElem?_append_left (by omega)]

theorem writeBlockLoop_ok (n : Nat) : ∀ (j dest len : Nat) (src : BlockSource) (s : State), n = wordsFor len →
    dest % 4 = 0 → dest + 4 * n ≤ s.cfg.shmemSize → src.Holds len →
    (j % s.cfg.wbBurstWords = 0 ∨ ∃ g, s.gateOk = some g) → ∃ t, writeBlockLoop n j dest len src s = .ok () t := by
  induction n with
  | zero => exact fun _ _ _ _ s _ _ _ _ _ => ⟨s, rfl⟩
  | succ n ih =>
    intro j dest len src s hn ha hin hs hg
    have hlen : 0 < len := by rw [wordsFor_eq] at hn; omega
    obtain ⟨g, hg1⟩ := waitAtBurst_gate j hg
    have hb := waitAtBurst_bus (W := fun _ => False) j s
    obtain ⟨b, u, hf, hgu⟩ := fetchBytes_ok (s := waitAtBurst j s) (k := min 4 len) hs (by omega)
    have hu := fetchBytes_onBus (W := fun _ => False) src (min 4 len) (s := waitAtBurst j s)
    rw [hf] at hu
    have hw : ∃ t, writeBlockWord dest len src (waitAtBurst j s) = .ok () t := by
      rw [writeBlockWord_eq, hf, Exit.bind_ok]
      refine ⟨_, memWriteSh_ok (g := g) ha (by rw [State.setInp_cfg, hu.1.keeps.cfg, hb.keeps.cfg]; omega)
        (by rw [State.setInp_gateOk, hgu, hg1])⟩
    obtain ⟨t, ht⟩ := hw
    have hbt := writeBlockWord_onBus dest len src (s := waitAtBurst j s)
    rw [ht] at hbt
    have hcfg : t.cfg = s.cfg := hbt.1.keeps.cfg.trans hb.keeps.cfg
    rw [writeBlockLoop_succ, ht, Exit.bind_ok]
    by_cases h4 : 4 ≤ len
    · exact ih _ _ _ _ t (by rw [wordsFor_eq] at hn ⊢; omega) (by omega) (by rw [hcfg]; omega) (hs.next h4)
        (.inr ⟨g, by rw [(writeBlockWord_eq_ok hs ht).1, hg1]⟩)
    · have : n = 0 := by rw [wordsFor_eq] at hn; omega
      subst this
      exact ⟨t, rfl⟩

/-- One word of a block completes where its bytes and its word lie inside their spaces. -/
theorem writeBlockWord_ok {dest len k : Nat} {src : BlockSource} {g : Bool} (ha : dest % 4 = 0)
    (hin : dest + 4 ≤ s.cfg.shmemSize) (hg : s.gateOk = some g) (hk : min 4 len ≤ k) (hs : src.Holds k) :
    ∃ t, writeBlockWord dest len src s = .ok () t ∧ t.gateOk = some g := by
  obtain ⟨b, u, hf, hgu⟩ := fetchBytes_ok (s := s) (k := min 4 len) hs hk
  have hu := fetchBytes_onBus (W := fun _ => False) src (min 4 len) (s := s)
  rw [hf] at hu
  rw [writeBlockWord_eq, hf, Exit.bind_ok]
  exact ⟨_, memWriteSh_ok (g := g) ha (by rw [State.setInp_cfg, hu.1.keeps.cfg]; exact hin)
    (by rw [State.setInp_gateOk, hgu, hg]), by simp [hgu, hg]⟩

/-- A block copy from host memory stops at its first word that crosses the end of a space (R110, R211 (b)). -/
theorem writeBlockLoop_stops (j : Nat) : ∀ (n i dest len addr : Nat) (s : State), dest % 4 = 0 → 4 * j < len → j < n →
    (∀ k, k < j → addr + 4 * k + min 4 (len - 4 * k) ≤ 2 ^ 32 ∧ dest + 4 * k + 4 ≤ s.cfg.shmemSize) →
    (i % s.cfg.wbBurstWords = 0 ∨ ∃ g, s.gateOk = some g) →
    (2 ^ 32 < addr + 4 * j + min 4 (len - 4 * j) → ∃ t, writeBlockLoop n i dest len (.host addr) s = .raised t ∧
      t.fault = some (.range .host (addr + 4 * j))) ∧
    (addr + 4 * j + min 4 (len - 4 * j) ≤ 2 ^ 32 → s.cfg.shmemSize < dest + 4 * j + 4 →
      ∃ t, writeBlockLoop n i dest len (.host addr) s = .raised t ∧ t.fault = some (.range .sh (dest + 4 * j))) := by
  induction j with
  | zero =>
    intro n i dest len addr s ha hl hn _ _
    obtain ⟨n, rfl⟩ : ∃ m, n = m + 1 := ⟨n - 1, by omega⟩
    have hb := waitAtBurst_bus (W := fun _ => False) i s
    simp only [Nat.mul_zero, Nat.add_zero, Nat.sub_zero, writeBlockLoop_succ, writeBlockWord_eq, fetchBytes]
    refine ⟨fun h => ⟨(waitAtBurst i s).envTick.recordFault (.range .host addr), ?_, rfl⟩, fun h h' => ?_⟩
    · rw [memReadHost_range h]; rfl
    · rw [memReadHost_ok h, Exit.bind_ok, memWriteSh_range ha (by
        simp only [State.setInp_cfg, State.emit_cfg, envTick_cfg, hb.keeps.cfg]; omega)]
      exact ⟨_, rfl, rfl⟩
  | succ j ih =>
    intro n i dest len addr s ha hl hn hfit hg
    obtain ⟨n, rfl⟩ : ∃ m, n = m + 1 := ⟨n - 1, by omega⟩
    have hb := waitAtBurst_bus (W := fun _ => False) i s
    obtain ⟨g, hg1⟩ := waitAtBurst_gate i hg
    obtain ⟨h0, h0'⟩ := hfit 0 (by omega)
    obtain ⟨t, ht, hgt⟩ := writeBlockWord_ok (s := waitAtBurst i s) (dest := dest) (len := len) (k := 4) (src := .host addr) ha
      (by rw [hb.keeps.cfg]; exact h0') hg1 (by omega) (by simp only [BlockSource.Holds]; omega)
    have hbt := writeBlockWord_onBus dest len (.host addr) (s := waitAtBurst i s)
    rw [ht] at hbt
    have hcfg : t.cfg = s.cfg := hbt.1.keeps.cfg.trans hb.keeps.cfg
    have := ih n (i + 1) (dest + 4) (len - 4) (addr + 4) t (by omega) (by omega) (by omega) (fun k hk => by
      obtain ⟨h1, h2⟩ := hfit (k + 1) (by omega); rw [hcfg]; omega) (.inr ⟨g, hgt⟩)
    rw [hcfg, show addr + 4 + 4 * j = addr + 4 * (j + 1) by omega, show dest + 4 + 4 * j = dest + 4 * (j + 1) by omega,
      show len - 4 - 4 * j = len - 4 * (j + 1) by omega] at this
    rw [writeBlockLoop_succ, ht, Exit.bind_ok]
    exact this

/-- The bytes a block copy leaves when no wait timed out. -/
theorem writeBlockLoop_copies (n : Nat) : ∀ (j dest len : Nat) (src : BlockSource) (s : State), n = wordsFor len →
    src.Holds len → (j % s.cfg.wbBurstWords = 0 ∨ s.gateOk = some true) →
    writeBlockLoop n j dest len src s = .ok () t → NoTimeout t → s.sh.wf = true →
    ∀ i, i < len → ¬ s.inp.Moves (EnvMove.WritesSh (dest + i)) → t.sh.get (dest + i) = src.byteAt s i := by
  induction n with
  | zero => intro j dest len src s hn; rw [wordsFor_eq] at hn; omega
  | succ n ih =>
    intro j dest len src s hn hs hg he hnt hsh i hi hq
    rw [writeBlockLoop_succ] at he
    obtain ⟨_, u, hw, he⟩ := Exit.bind_eq_ok.mp he
    have hb := waitAtBurst_bus (W := fun _ => False) j s
    have hbu := writeBlockWord_onBus dest len src (s := waitAtBurst j s)
    rw [hw] at hbu
    have hbt := writeBlockLoop_onBus n (j + 1) (dest + 4) (len - 4) src.next u
    rw [he] at hbt
    have hru := waitAtBurst_ready j hg (hbu.1.noTimeout (hbt.1.noTimeout hnt))
    obtain ⟨hgu, hv⟩ := writeBlockWord_eq_ok hs hw
    have hmu : u.inp.moves <:+ s.inp.moves := hbu.1.moves.trans hb.moves
    by_cases h4 : i < 4
    · rw [hbt.1.sh (hbu.1.sh_wf (hb.sh_wf hsh)) _ (fun h => by have := h.1; omega) (fun h => hq (.of_suffix hmu h))]
      rw [hv hru (hb.sh_wf hsh) i h4 hi, BlockSource.byteAt_bus hb]
    · obtain ⟨k, rfl⟩ : ∃ k, i = 4 + k := ⟨i - 4, by omega⟩
      have hs' := hs.next (show 4 ≤ len by omega)
      have := ih (j + 1) (dest + 4) (len - 4) src.next u (by rw [wordsFor_eq] at hn ⊢; omega) hs'
        (.inr (hgu.trans hru)) he hnt (hbu.1.sh_wf (hb.sh_wf hsh)) k (by omega) (fun h => hq (.of_suffix hmu (by rwa [show dest + 4 + k = dest + (4 + k) by omega] at h)))
      rw [show dest + (4 + k) = dest + 4 + k by omega, this, BlockSource.byteAt_next]
      have hbus : Bus (span dest 4) s u := (hb.mono fun _ h => h.elim).trans hbu.1
      exact BlockSource.byteAt_bus hbus

/-! ### The writer -/

theorem writeBlockFrom_onBus (offset len : Nat) (src : BlockSource) (s : State) :
    (writeBlockFrom offset len src s).OnBus (span offset (blockBytes len)) s := by
  unfold writeBlockFrom
  refine (require_onBus _ _).bind fun _ t h => ?_
  obtain ⟨-, rfl⟩ := require_eq_ok.mp h
  exact writeBlockLoop_onBus _ _ _ _ _ s

/-- A block copy completes when its offset is aligned and both ranges lie inside their spaces (R110). -/
theorem writeBlockFrom_ok {offset len : Nat} {src : BlockSource} (ha : offset % 4 = 0)
    (hin : offset + blockBytes len ≤ s.cfg.shmemSize) (hs : src.Holds len) :
    ∃ t, writeBlockFrom offset len src s = .ok () t := by
  obtain ⟨t, ht⟩ := writeBlockLoop_ok _ 0 offset len src s rfl ha hin hs (.inl (Nat.zero_mod _))
  exact ⟨t, by simpa [writeBlockFrom, destAlign_eq, ha] using ht⟩

/-- The bytes a block copy leaves when no wait timed out (R110). -/
theorem writeBlockFrom_copies {offset len : Nat} {src : BlockSource} (hs : src.Holds len)
    (he : writeBlockFrom offset len src s = .ok () t) (hn : NoTimeout t) (hsh : s.sh.wf = true) {i : Nat} (hi : i < len)
    (hq : ¬ s.inp.Moves (EnvMove.WritesSh (offset + i))) : t.sh.get (offset + i) = src.byteAt s i := by
  unfold writeBlockFrom at he
  obtain ⟨_, u, h1, he⟩ := Exit.bind_eq_ok.mp he
  obtain ⟨-, rfl⟩ := require_eq_ok.mp h1
  exact writeBlockLoop_copies _ 0 offset len src s rfl hs (.inl (Nat.zero_mod _)) he hn hsh i hi hq

/-- A misaligned offset faults before any wait (R58 (a), R110). -/
theorem writeBlockFrom_misaligned {offset len : Nat} {src : BlockSource} (ha : offset % 4 ≠ 0) :
    writeBlockFrom offset len src s = raise (.align offset) s := by
  simp [writeBlockFrom, aligned_check, ha]

end Sys2Proof.Machine
end

