-- ==== Sys2Proof/Laws/Operation.lean ====
section
/-! SUPPORT. The frame of an operation (R200, R202): what its end makes of a body that went on or raised a fault, said
once for every operation. -/

namespace Sys2Proof.Machine

variable {α β : Type} {W : Nat → Prop} {s t u : State} {ctx : Context} {i : Instr} {r : Result}

/-- Every operation takes a next state. -/
theorem runOp_eq (ctx : Context) (i : Instr) (body : State → Exit Result) (s : State) :
    runOp ctx i body s = .next (closeOp i (body (s.beginOp ctx i))) := rfl

@[simp] theorem finish_ok (r : Result) (s : State) : finish r (.ok () s) = .ok r s := rfl

@[simp] theorem finish_raised (r : Result) (s : State) : finish r (.raised s) = .raised s := rfl

theorem finish_eq_ok {x : Exit Unit} {r' : Result} : finish r x = .ok r' t ↔ r' = r ∧ x = .ok () t := by
  cases x <;> simp [finish, Exit.bind, eq_comm]

theorem finish_onBus {x : Exit Unit} (h : x.OnBus W s) : (finish r x).OnBus W s := by
  cases x with
  | ok a t => exact h
  | raised t => exact h

/-- An operation whose body did bus work and went on to its end. -/
theorem Bus.busRun (h : Bus W (s.beginOp ctx i) u) (hf : u.fault = s.fault) (hs : s.sh.wf = true) :
    BusRun ctx i r W s (u.envTick.endOp i r) := by
  have h := h.trans (Bus.envTick u)
  exact
    { ends := ⟨rfl, (envTick_fault u).trans hf, rfl⟩
      keeps := ⟨h.keeps.cfg, h.keeps.dev, h.keeps.initialized, h.keeps.dead, h.keeps.coprocEnabled, h.keeps.regEnable,
        h.keeps.regIntrClear, h.keeps.port, h.keeps.turns, h.keeps.sink, h.keeps.irq, h.keeps.irq_quiet⟩
      sh := h.sh hs
      host := h.host
      events := by
        obtain ⟨es, he, hb, -⟩ := h.events
        exact ⟨es, by rw [State.endOp_events, he]; rfl, hb⟩ }

/-- An operation whose body did bus work and completes. -/
theorem runOp_busRun {body : State → Exit Result} (hb : (body (s.beginOp ctx i)).OnBus W (s.beginOp ctx i))
    (hok : ∃ u, body (s.beginOp ctx i) = .ok r u) (hs : s.sh.wf = true) :
    ∃ t, runOp ctx i body s = .next t ∧ BusRun ctx i r W s t := by
  obtain ⟨u, hu⟩ := hok
  rw [hu] at hb
  exact ⟨_, by rw [runOp_eq, hu]; rfl, hb.1.busRun hb.2.1 hs⟩

/-- An operation whose body raised a fault. -/
theorem faults_of_onBus (h : (Exit.raised t : Exit α).OnBus W (s.beginOp ctx i)) : ∃ f, Faults ctx i f t := by
  obtain ⟨hb, f, hf, hr, he⟩ := h
  exact ⟨f, hf, hb.active, hr, he⟩

/-- A word of shared memory that nothing stored to and the coprocessor left alone. -/
theorem KeepsSh.getWord {off : Nat} (h : KeepsSh W s t) (hW : ∀ a, span off 4 a → ¬ W a)
    (hq : CoprocNoWrite (span off 4) s) : t.sh.getWord off = s.sh.getWord off :=
  Memory.getWord_congr fun i hi =>
    have hs : span off 4 (off + i) := ⟨by omega, by omega⟩
    h _ (hW _ hs) (hq _ hs)

theorem CoprocNoWrite.of_bus {S : Nat → Prop} (h : Bus W s t) (hq : CoprocNoWrite S s) : CoprocNoWrite S t :=
  fun a ha hc => hq a ha (.of_suffix h.moves hc)

theorem CoprocNoWrite.mono {S S' : Nat → Prop} (hq : CoprocNoWrite S s) (h : ∀ a, S' a → S a) : CoprocNoWrite S' s :=
  fun a ha => hq a (h a ha)

end Sys2Proof.Machine
end

