-- ==== Sys2Proof/Laws/CommandChannel.lean ====
section
/-! SUPPORT. The Command Channel (R130, R131): what a waited word, SEND_COMMAND and SEND_PARAM can do, when they
complete, and the events and slots they leave. -/

namespace Sys2Proof.Machine

variable {W : Nat → Prop} {s t : State}

theorem writeWaited_onBus (off : Nat) (v : Word) : (writeWaited off v s).OnBus (span off 4) s :=
  Exit.OnBus.after (waitReady_bus s) (by simp) (by simp) (memWriteSh_onBus off v)

/-- The polls aside, a wait is one event. -/
theorem waitReady_notPoll (s : State) : ∃ g, (waitReady s).gateOk = some g ∧
    (waitReady s).events.filter Event.notPoll = .gate g :: s.events.filter Event.notPoll := by
  obtain ⟨-, -, -, g, polls, hg, he, -⟩ := waitLoop_spec (W := fun _ => False) s.cfg.waitLimit s
  refine ⟨g, hg, ?_⟩
  have hp : (polls.map Event.poll).filter Event.notPoll = [] := by simp [Event.notPoll]
  rw [waitReady, he, List.filter_cons_of_pos rfl, List.filter_append, hp, List.nil_append]

theorem landWord_events (off : Nat) (v : Word) (g : Bool) : (landWord off v g s).events = .shWrite off v g :: s.events := by
  cases g <;> simp [landWord]

/-- A word with a wait of its own completes (R102, R103). -/
theorem writeWaited_ok {off : Nat} {v : Word} (ha : off % 4 = 0) (hin : off + 4 ≤ s.cfg.shmemSize) :
    ∃ g t, writeWaited off v s = .ok () t ∧
      t.events.filter Event.notPoll = .shWrite off v g :: .gate g :: s.events.filter Event.notPoll ∧
      (NoTimeout t → g = true) ∧ (g = true → s.sh.wf = true → t.sh.getWord off = v) := by
  obtain ⟨g, hg, he⟩ := waitReady_notPoll s
  have hb := waitReady_bus (W := fun _ => False) s
  refine ⟨g, _, memWriteSh_ok ha (by rw [hb.keeps.cfg]; exact hin) hg, ?_, fun hn => ?_, fun h hw => ?_⟩
  · rw [landWord_events, envTick_events, List.filter_cons_of_pos rfl, he]
  · have hn' : NoTimeout (waitReady s) := fun hc => hn (by rw [landWord_events, envTick_events]; exact List.mem_cons_of_mem _ hc)
    have := waitReady_ready hn'
    rw [hg] at this
    exact Option.some.inj this
  · subst h
    simp only [landWord, State.emit_sh, State.setSh_sh]
    exact Memory.getWord_setWord ((Bus.envTick (W := fun _ => False) _).sh_wf (hb.sh_wf hw))

theorem sendCommand_onBus (cmd : Word) : (sendCommand cmd s).OnBus (commandSpan s.cfg) s := by
  unfold sendCommand
  refine (require_onBus _ _).bind fun _ t h => ?_
  obtain ⟨-, rfl⟩ := require_eq_ok.mp h
  refine ((writeWaited_onBus _ _).mono fun _ h => .inl h).bind fun _ t h => ?_
  have hc : t.cfg = s.cfg := by have := writeWaited_onBus s.cfg.offCmd cmd (s := s); rw [h] at this; exact this.1.keeps.cfg
  refine (memReadSh_onBus _).bind fun _ u h => ?_
  have hu : u.cfg = s.cfg := by
    have := memReadSh_onBus (W := fun _ => False) t.cfg.offSerial (s := t); rw [h] at this
    exact this.1.keeps.cfg.trans hc
  rw [hu]
  exact (writeWaited_onBus _ _).mono fun _ h => .inr h

theorem sendParam_onBus (cmd l r : Word) : (sendParam cmd l r s).OnBus (paramSpan s.cfg) s := by
  unfold sendParam
  refine (require_onBus _ _).bind fun _ t h => ?_
  obtain ⟨-, rfl⟩ := require_eq_ok.mp h
  refine ((writeWaited_onBus _ _).mono fun _ h => .inl h).bind fun _ t h => ?_
  have hc : t.cfg = s.cfg := by have := writeWaited_onBus s.cfg.offLparam l (s := s); rw [h] at this; exact this.1.keeps.cfg
  rw [hc]
  refine ((writeWaited_onBus _ _).mono fun _ h => .inr (.inl h)).bind fun _ u h => ?_
  have hu : u.cfg = s.cfg := by
    have := writeWaited_onBus s.cfg.offRparam r (s := t); rw [h] at this; exact this.1.keeps.cfg.trans hc
  rw [← hu]
  exact (sendCommand_onBus _).mono fun _ h => .inr (.inr h)

/-- In the interrupt context both refuse to act (R130, R131, R133). -/
theorem sendCommand_inInterrupt {cmd : Word} (h : inInterrupt s = true) :
    sendCommand cmd s = raise (.cmdInInterrupt cmd) s := by
  simp [sendCommand, h]

theorem sendParam_inInterrupt {cmd l r : Word} (h : inInterrupt s = true) :
    sendParam cmd l r s = raise (.cmdInInterrupt cmd) s := by
  simp [sendParam, h]

/-- The command and serial slots do not overlap. -/
theorem cmd_serial_disjoint {p : Params} (h : p.Valid) : p.offCmd + 4 ≤ p.offSerial ∨ p.offSerial + 4 ≤ p.offCmd := by
  have := h.slots_disjoint4
  simp only [Params.slots, List.pairwise_cons, List.mem_cons] at this
  exact this.1 _ (.inl rfl)

/-- SEND_COMMAND completes from the control context (R130): its events but for the polls, and the slots it leaves. -/
theorem sendCommand_ok {cmd : Word} (hv : s.cfg.Valid) (hc : inInterrupt s = false) :
    ∃ g1 g2 n t, sendCommand cmd s = .ok () t ∧
      t.events.filter Event.notPoll =
        [.shWrite s.cfg.offSerial (n + 1) g2, .gate g2, .shRead s.cfg.offSerial n, .shWrite s.cfg.offCmd cmd g1, .gate g1]
          ++ s.events.filter Event.notPoll ∧
      (s.sh.wf = true → CoprocNoWrite (span s.cfg.offSerial 4) s → n = s.sh.getWord s.cfg.offSerial) ∧
      (s.sh.wf = true → NoTimeout t → t.sh.getWord s.cfg.offSerial = n + 1 ∧
        (CoprocNoWrite (span s.cfg.offCmd 4) s → t.sh.getWord s.cfg.offCmd = cmd)) := by
  have hdis := cmd_serial_disjoint hv
  have al : ∀ o ∈ s.cfg.slots, o % 4 = 0 ∧ o + 4 ≤ s.cfg.shmemSize := fun o h => ⟨hv.slots_aligned o h, hv.slots_inside o h⟩
  obtain ⟨ca, ci⟩ := al s.cfg.offCmd (by simp [Params.slots])
  obtain ⟨sa, si⟩ := al s.cfg.offSerial (by simp [Params.slots])
  obtain ⟨g1, t1, h1, e1, n1, v1⟩ := writeWaited_ok (v := cmd) ca ci
  have b1 := writeWaited_onBus s.cfg.offCmd cmd (s := s)
  rw [h1] at b1
  have c1 := b1.1.keeps.cfg
  have h2 := memReadSh_ok (s := t1) (off := s.cfg.offSerial) sa (by rw [c1]; exact si)
  have b2 := memReadSh_onBus (W := fun _ => False) s.cfg.offSerial (s := t1)
  rw [h2] at b2
  have b12 := b1.1.trans (b2.1.mono fun _ h => h.elim)
  obtain ⟨g2, t3, h3, e3, n3, v3⟩ := writeWaited_ok (s := t1.envTick.emit (.shRead s.cfg.offSerial (t1.envTick.sh.getWord s.cfg.offSerial)))
    (v := t1.envTick.sh.getWord s.cfg.offSerial + 1) sa (by rw [b12.keeps.cfg]; exact si)
  have b3 := writeWaited_onBus s.cfg.offSerial (t1.envTick.sh.getWord s.cfg.offSerial + 1)
    (s := t1.envTick.emit (.shRead s.cfg.offSerial (t1.envTick.sh.getWord s.cfg.offSerial)))
  rw [h3] at b3
  refine ⟨g1, g2, t1.envTick.sh.getWord s.cfg.offSerial, t3, ?_, ?_, fun hw hq => ?_, fun hw hn => ⟨?_, fun hq => ?_⟩⟩
  · simp only [sendCommand, hc, Bool.not_false, require_true, Exit.bind_ok, h1, c1, h2, State.emit_cfg, envTick_cfg, h3]
  · rw [e3, State.emit_events, envTick_events, List.filter_cons_of_pos rfl, e1]; rfl
  · have := (b12.sh hw).getWord (off := s.cfg.offSerial) (fun a h h' => by unfold span at h h'; omega) hq
    simpa using this
  · exact v3 (n3 hn) (b12.sh_wf hw)
  · rw [(b3.1.sh (b12.sh_wf hw)).getWord (off := s.cfg.offCmd) (fun a h h' => by unfold span at h h'; omega) (hq.of_bus b12)]
    have b2' := b2.1.sh (b1.1.sh_wf hw)
    rw [b2'.getWord (fun _ _ h => h) (hq.of_bus b1.1)]
    exact v1 (n1 (b2.1.noTimeout (b3.1.noTimeout hn))) hw

/-- The slot parameters are aligned and lie inside shared memory (R8). -/
theorem slot_ok {p : Params} (h : p.Valid) {o : Nat} (ho : o ∈ p.slots) : o % 4 = 0 ∧ o + 4 ≤ p.shmemSize :=
  ⟨h.slots_aligned o ho, h.slots_inside o ho⟩

/-- SEND_PARAM completes from the control context (R131): left before right, both before the command word. -/
theorem sendParam_ok {cmd l r : Word} (hv : s.cfg.Valid) (hc : inInterrupt s = false) :
    ∃ g1 g2 g3 g4 n t, sendParam cmd l r s = .ok () t ∧
      t.events.filter Event.notPoll =
        [.shWrite s.cfg.offSerial (n + 1) g4, .gate g4, .shRead s.cfg.offSerial n, .shWrite s.cfg.offCmd cmd g3,
          .gate g3, .shWrite s.cfg.offRparam r g2, .gate g2, .shWrite s.cfg.offLparam l g1, .gate g1]
          ++ s.events.filter Event.notPoll ∧
      (s.sh.wf = true → CoprocNoWrite (span s.cfg.offSerial 4) s → n = s.sh.getWord s.cfg.offSerial) ∧
      (s.sh.wf = true → NoTimeout t → t.sh.getWord s.cfg.offSerial = n + 1 ∧
        (CoprocNoWrite (paramSpan s.cfg) s → t.sh.getWord s.cfg.offCmd = cmd ∧ t.sh.getWord s.cfg.offLparam = l ∧
          t.sh.getWord s.cfg.offRparam = r)) := by
  have hd := hv.slots_disjoint4
  simp only [Params.slots, List.pairwise_cons, List.mem_cons, forall_eq_or_imp] at hd
  obtain ⟨⟨d1, d2, d3, -⟩, ⟨d4, d5, -⟩, ⟨d6, -⟩, -⟩ := hd
  obtain ⟨la, li⟩ := slot_ok hv (o := s.cfg.offLparam) (by simp [Params.slots])
  obtain ⟨ra, ri⟩ := slot_ok hv (o := s.cfg.offRparam) (by simp [Params.slots])
  obtain ⟨g1, t1, h1, e1, n1, v1⟩ := writeWaited_ok (v := l) la li
  have b1 := writeWaited_onBus s.cfg.offLparam l (s := s)
  rw [h1] at b1
  have c1 := b1.1.keeps.cfg
  obtain ⟨g2, t2, h2, e2, n2, v2⟩ := writeWaited_ok (s := t1) (v := r) ra (by rw [c1]; exact ri)
  have b2 := writeWaited_onBus s.cfg.offRparam r (s := t1)
  rw [h2] at b2
  have c2 := b2.1.keeps.cfg.trans c1
  have hc2 : inInterrupt t2 = false := by
    have : t2.active = s.active := b2.1.active.trans b1.1.active
    simpa [inInterrupt, this] using hc
  obtain ⟨g3, g4, n, t3, h3, e3, hn, v3⟩ := sendCommand_ok (s := t2) (cmd := cmd) (by rw [c2]; exact hv) hc2
  have b3 := sendCommand_onBus cmd (s := t2)
  rw [h3] at b3
  rw [c2] at e3 hn v3 b3
  have b12 : Bus (fun a => span s.cfg.offLparam 4 a ∨ span s.cfg.offRparam 4 a) s t2 :=
    (b1.1.mono fun _ => .inl).trans (b2.1.mono fun _ => .inr)
  refine ⟨g1, g2, g3, g4, n, t3, ?_, ?_, fun hw hq => ?_, fun hw ht => ?_⟩
  · simp only [sendParam, hc, Bool.not_false, require_true, Exit.bind_ok, h1, c1, h2, h3]
  · rw [e3, e2, e1]; rfl
  · rw [hn (b12.sh_wf hw) (hq.of_bus b12)]
    exact (b12.sh hw).getWord (fun a h h' => by unfold span at h h'; omega) hq
  · have w2 := b12.sh_wf hw
    obtain ⟨vs, vc⟩ := v3 w2 ht
    refine ⟨vs, fun hq => ⟨vc ((hq.mono fun _ h => .inr (.inr (.inl h))).of_bus b12), ?_, ?_⟩⟩
    · have hql : CoprocNoWrite (span s.cfg.offLparam 4) s := hq.mono fun _ h => .inl h
      rw [(b3.1.sh w2).getWord (fun a h h' => by unfold commandSpan span at *; omega) (hql.of_bus b12),
        (b2.1.sh (b1.1.sh_wf hw)).getWord (fun a h h' => by unfold span at h h'; omega) (hql.of_bus b1.1)]
      exact v1 (n1 (b2.1.noTimeout (b3.1.noTimeout ht))) hw
    · have hqr : CoprocNoWrite (span s.cfg.offRparam 4) s := hq.mono fun _ h => .inr (.inl h)
      rw [(b3.1.sh w2).getWord (fun a h h' => by unfold commandSpan span at *; omega) (hqr.of_bus b12)]
      exact v2 (n2 (b3.1.noTimeout ht)) (b1.1.sh_wf hw)

end Sys2Proof.Machine
end

