-- ==== Sys2Proof/Laws/Deinterleave.lean ====
section
/-! SUPPORT. WRITE_DEINT16 and WRITE_DEINT8 (R115, R120): what they can do, when they complete, and the samples they
leave (R125). Both are chunks of one shape: read r samples, wait, write words. -/

namespace Sys2Proof.Machine

variable {W : Nat → Prop} {s t : State}

/-! ### The definitions with the sizes written out -/

theorem writeWords_succ (n dest : Nat) (l : List Byte) (s : State) : writeWords (n + 1) dest l s =
    (memWriteSh dest (leValue l) s).bind fun _ u => writeWords n (dest + 4) (l.drop 4) u := rfl

theorem fullChunks16_succ (n dest src : Nat) (s : State) : fullChunks16 (n + 1) dest src s =
    (writeChunk16 Config.chunk16 dest src s).bind fun _ u =>
      fullChunks16 n (dest + 2 * Config.chunk16) (src + 4 * Config.chunk16) u := rfl

theorem fullChunks8_succ (n dest src : Nat) (s : State) : fullChunks8 (n + 1) dest src s =
    (writeChunk8 Config.chunk8 dest src s).bind fun _ u =>
      fullChunks8 n (dest + Config.chunk8) (src + 2 * Config.chunk8) u := rfl

theorem writeDeint16_def (offset src len : Nat) (s : State) : writeDeint16 offset src len s =
    (require (offset % Config.destAlign == 0) (.align offset) s).bind fun _ s =>
    (require (len % 2 == 0) (.badLen len) s).bind fun _ s =>
    (fullChunks16 (len / 2 / 16) offset src s).bind fun _ s =>
      if len / 2 % 16 = 0 then .ok () s
      else writeChunk16 (len / 2 % 16) (offset + 32 * (len / 2 / 16)) (src + 64 * (len / 2 / 16)) s := rfl

theorem writeDeint8_def (offset src len : Nat) (s : State) : writeDeint8 offset src len s =
    (require (offset % Config.destAlign == 0) (.align offset) s).bind fun _ s =>
    (fullChunks8 (len / 32) offset src s).bind fun _ s =>
      if len % 32 = 0 then .ok () s
      else writeChunk8 (len % 32) (offset + 32 * (len / 32)) (src + 64 * (len / 32)) s := rfl

/-! ### Reading samples -/

theorem readSamples_onBus (w d n : Nat) : ∀ (addr : Nat) (s : State), (readSamples w d n addr s).OnBus W s := by
  induction n with
  | zero => exact fun _ s => ⟨.refl W s, rfl, rfl⟩
  | succ n ih =>
    intro addr s
    refine (memReadHost_onBus _ _).bind fun b t _ => (ih _ t).bind fun bs u _ => ⟨.refl W u, rfl, rfl⟩

theorem readSamples_ok (w d n : Nat) : ∀ (addr : Nat) (s : State), (∀ k, k < n → addr + d * k + w ≤ 2 ^ 32) →
    ∃ b t, readSamples w d n addr s = .ok b t := by
  induction n with
  | zero => exact fun _ s _ => ⟨[], s, rfl⟩
  | succ n ih =>
    intro addr s h
    rw [readSamples, memReadHost_ok (by simpa using h 0 (by omega)), Exit.bind_ok]
    obtain ⟨b, t, hb⟩ := ih (addr + d) (s.envTick.emit (.hostRead addr (s.host.getBytes addr w)))
      fun k hk => by have := h (k + 1) (by omega); rw [Nat.mul_succ] at this; omega
    exact ⟨_, t, by rw [hb]; rfl⟩

theorem readSamples_eq_ok (w d n : Nat) : ∀ (addr : Nat) (s : State) {b : List Byte} {t : State},
    readSamples w d n addr s = .ok b t → t.gateOk = s.gateOk ∧ b.length = n * w ∧
      ∀ k j, k < n → j < w → b.getD (k * w + j) 0 = s.host.get (addr + d * k + j) := by
  induction n with
  | zero =>
    intro addr s b t h
    simp only [readSamples, Exit.ok.injEq] at h
    obtain ⟨rfl, rfl⟩ := h
    exact ⟨rfl, by simp, fun k j hk => absurd hk (by omega)⟩
  | succ n ih =>
    intro addr s b t h
    rw [readSamples] at h
    obtain ⟨b0, u, h0, h⟩ := Exit.bind_eq_ok.mp h
    obtain ⟨bs, v, h1, h⟩ := Exit.bind_eq_ok.mp h
    simp only [Exit.ok.injEq] at h
    obtain ⟨rfl, rfl⟩ := h
    have hu : Bus (fun _ => False) s u := by have := memReadHost_onBus (W := fun _ => False) addr w (s := s); rw [h0] at this; exact this.1
    obtain ⟨-, rfl, hu'⟩ := memReadHost_eq_ok h0
    obtain ⟨hg, hl, hv⟩ := ih (addr + d) u h1
    refine ⟨by rw [hg, hu']; simp, by rw [List.length_append, hl, Memory.length_getBytes, Nat.succ_mul]; omega, ?_⟩
    intro k j hk hj
    rw [List.getD_eq_getElem?_getD]
    cases k with
    | zero =>
      simp only [Nat.zero_mul, Nat.zero_add, Nat.mul_zero, Nat.add_zero]
      rw [List.getElem?_append_left (by simpa using hj), List.getElem?_eq_getElem (by simpa using hj), Option.getD_some,
        Memory.getElem_getBytes]
    | succ k =>
      rw [List.getElem?_append_right (by rw [Memory.length_getBytes, Nat.succ_mul]; omega), Memory.length_getBytes,
        show (k + 1) * w + j - w = k * w + j by rw [Nat.succ_mul]; omega, ← List.getD_eq_getElem?_getD]
      have he : addr + d * (k + 1) + j = addr + d + d * k + j := by rw [Nat.mul_succ]; omega
      rw [he, hv k j (by omega) hj, hu.host]

/-! ### Writing words -/

theorem writeWords_onBus (n : Nat) : ∀ (dest : Nat) (l : List Byte) (s : State),
    (writeWords n dest l s).OnBus (span dest (4 * n)) s := by
  induction n with
  | zero => exact fun _ _ s => ⟨.refl _ s, rfl, rfl⟩
  | succ n ih =>
    intro dest l s
    rw [writeWords_succ]
    refine ((memWriteSh_onBus _ _).mono fun a h => span_left (by omega) h).bind fun _ t _ => ?_
    exact (ih _ _ t).mono fun a h => span_right (by omega) h

theorem writeWords_ok (n : Nat) : ∀ (dest : Nat) (l : List Byte) (s : State), dest % 4 = 0 →
    (0 < n → dest + 4 * n ≤ s.cfg.shmemSize) → (∃ g, s.gateOk = some g) → ∃ t, writeWords n dest l s = .ok () t := by
  induction n with
  | zero => exact fun _ _ s _ _ _ => ⟨s, rfl⟩
  | succ n ih =>
    intro dest l s ha hin hg
    obtain ⟨g, hg⟩ := hg
    have hin := hin (by omega)
    have hb := memWriteSh_onBus dest (leValue l) (s := s)
    rw [memWriteSh_ok ha (by omega) hg] at hb
    rw [writeWords_succ, memWriteSh_ok ha (by omega) hg, Exit.bind_ok]
    exact ih _ _ _ (by omega) (fun _ => by rw [hb.1.keeps.cfg]; omega) ⟨g, by simpa using hg⟩

theorem writeWords_eq_ok (n : Nat) : ∀ (dest : Nat) (l : List Byte) (s : State) {t : State},
    writeWords n dest l s = .ok () t → t.gateOk = s.gateOk ∧ (s.gateOk = some true → s.sh.wf = true →
      ∀ i, i < 4 * n → ¬ s.inp.Moves (EnvMove.WritesSh (dest + i)) → t.sh.get (dest + i) = l.getD i 0) := by
  induction n with
  | zero =>
    intro dest l s t h
    simp only [writeWords, Exit.ok.injEq, true_and] at h
    subst h
    exact ⟨rfl, fun _ _ i hi => absurd hi (by omega)⟩
  | succ n ih =>
    intro dest l s t h
    rw [writeWords_succ] at h
    obtain ⟨_, u, h1, h⟩ := Exit.bind_eq_ok.mp h
    have hbu := memWriteSh_onBus dest (leValue l) (s := s)
    rw [h1] at hbu
    have hbt := writeWords_onBus n (dest + 4) (l.drop 4) u
    rw [h] at hbt
    obtain ⟨-, -, g, hg, hu⟩ := memWriteSh_eq_ok h1
    obtain ⟨hgt, hv⟩ := ih _ _ _ h
    have hgu : u.gateOk = s.gateOk := by rw [hu]; simp
    refine ⟨hgt.trans hgu, fun hr hw i hi hq => ?_⟩
    by_cases h4 : i < 4
    · rw [hbt.1.sh (hbu.1.sh_wf hw) _ (fun hc => by have := hc.1; omega) fun hc => hq (.of_suffix hbu.1.moves hc), hu]
      rw [hr] at hg; cases hg
      simp only [landWord, State.emit_sh, State.setSh_sh]
      rw [Memory.get_setWord ((Bus.envTick (W := fun _ => False) s).sh_wf hw) h4, Memory.wordByte_leValue h4]
    · obtain ⟨k, rfl⟩ : ∃ k, i = 4 + k := ⟨i - 4, by omega⟩
      rw [show dest + (4 + k) = dest + 4 + k by omega] at hq ⊢
      rw [hv (hgu.trans hr) (hbu.1.sh_wf hw) k (by omega) fun hc => hq (.of_suffix hbu.1.moves hc)]
      simp

/-! ### A chunk -/

/-- The shape of a chunk: r samples read, the pad drawn, the wait, nw words written. -/
def chunk (w d r nw dest src : Nat) (pad : State → List Byte × Inputs) (s : State) : Exit Unit :=
  (readSamples w d r src s).bind fun bytes s => writeWords nw dest (bytes ++ (pad s).1) (waitReady (s.setInp (pad s).2))

theorem writeChunk16_eq (r dest src : Nat) (s : State) :
    writeChunk16 r dest src s = chunk 2 4 r ((r + 1) / 2) dest src (fun s => s.inp.drawBytes (2 * (r % 2))) s := by
  have h : wordsFor (2 * r) = (r + 1) / 2 := by rw [wordsFor_eq]; omega
  show chunk 2 4 r (wordsFor (2 * r)) dest src (fun s => s.inp.drawBytes (4 * wordsFor (2 * r) - 2 * r)) s = _
  rw [h, show 4 * ((r + 1) / 2) - 2 * r = 2 * (r % 2) by omega]

theorem writeChunk8_eq (r dest src : Nat) (s : State) :
    writeChunk8 r dest src s = chunk 1 2 r (r / 4) dest src (fun s => ([], s.inp)) s := by
  have h : Config.sample8 * r / Config.wordBytes = r / 4 := by rw [show Config.sample8 = 1 from rfl, wordBytes_eq]; omega
  simp only [writeChunk8, chunk, List.append_nil, h]; rfl

variable {w d r nw dest src : Nat} {pad : State → List Byte × Inputs}

theorem chunk_onBus (hp : ∀ s, SameScript s.inp (pad s).2) :
    (chunk w d r nw dest src pad s).OnBus (span dest (4 * nw)) s := by
  refine (readSamples_onBus w d r src s).bind fun b t _ => ?_
  exact Exit.OnBus.after ((Bus.setInp (hp t)).trans (waitReady_bus _)) (by simp) (by simp) (writeWords_onBus _ _ _ _)

theorem chunk_ok (ha : dest % 4 = 0)
    (hin : 0 < nw → dest + 4 * nw ≤ s.cfg.shmemSize)
    (hh : ∀ k, k < r → src + d * k + w ≤ 2 ^ 32) : ∃ t, chunk w d r nw dest src pad s = .ok () t := by
  obtain ⟨b, u, hb⟩ := readSamples_ok w d r src s hh
  have hu := readSamples_onBus (W := fun _ => False) w d r src s
  rw [hb] at hu
  obtain ⟨g, hg, -⟩ := waitReady_gate (u.setInp (pad u).2)
  rw [chunk, hb, Exit.bind_ok]
  refine writeWords_ok _ _ _ _ ha (fun h => ?_) ⟨g, hg⟩
  rw [(waitReady_bus (W := fun _ => False) _).keeps.cfg, State.setInp_cfg, hu.1.keeps.cfg]
  exact hin h

/-- The sample bytes a chunk leaves when no wait timed out: byte j of sample k. -/
theorem chunk_copies (hp : ∀ s, SameScript s.inp (pad s).2) (he : chunk w d r nw dest src pad s = .ok () t)
    (hn : NoTimeout t) (hsh : s.sh.wf = true) {k j : Nat} (hk : k < r) (hj : j < w)
    (hi : k * w + j < 4 * nw) (hq : ¬ s.inp.Moves (EnvMove.WritesSh (dest + (k * w + j)))) :
    t.sh.get (dest + (k * w + j)) = s.host.get (src + d * k + j) := by
  rw [chunk] at he
  obtain ⟨b, u, hb, he⟩ := Exit.bind_eq_ok.mp he
  have hu := readSamples_onBus (W := fun _ => False) w d r src s
  rw [hb] at hu
  obtain ⟨-, hl, hv⟩ := readSamples_eq_ok w d r src s hb
  have hwait := waitReady_bus (W := fun _ => False) (u.setInp (pad u).2)
  have hset := Bus.setInp (W := fun _ => False) (hp u)
  have hbt := writeWords_onBus nw dest (b ++ (pad u).1) (waitReady (u.setInp (pad u).2))
  rw [he] at hbt
  obtain ⟨-, hw⟩ := writeWords_eq_ok _ _ _ _ he
  have hm : (waitReady (u.setInp (pad u).2)).inp.moves <:+ s.inp.moves := (hwait.moves.trans hset.moves).trans hu.1.moves
  rw [hw (waitReady_ready (hbt.1.noTimeout hn)) (hwait.sh_wf (hset.sh_wf (hu.1.sh_wf hsh))) _ hi
    fun hc => hq (.of_suffix hm hc)]
  have hlt : k * w + j < b.length := by
    rw [hl]
    calc k * w + j < k * w + w := by omega
      _ = (k + 1) * w := (Nat.succ_mul k w).symm
      _ ≤ r * w := Nat.mul_le_mul_right w hk
  rw [List.getD_eq_getElem?_getD, List.getElem?_append_left hlt, ← List.getD_eq_getElem?_getD]
  exact hv k j hk hj

/-! ### Full chunks and the writers -/

theorem drawBytes_pad (n : Nat) : ∀ s : State, SameScript s.inp (s.inp.drawBytes n).2 := fun s => drawBytes_sameScript n s.inp

theorem noPad : ∀ s : State, SameScript s.inp (([], s.inp) : List Byte × Inputs).2 := fun s => .refl s.inp

theorem writeChunk16_onBus (r dest src : Nat) (s : State) : (writeChunk16 r dest src s).OnBus (span dest (4 * ((r + 1) / 2))) s :=
  writeChunk16_eq r dest src s ▸ chunk_onBus (drawBytes_pad _)

theorem writeChunk8_onBus (r dest src : Nat) (s : State) : (writeChunk8 r dest src s).OnBus (span dest (4 * (r / 4))) s :=
  writeChunk8_eq r dest src s ▸ chunk_onBus noPad

theorem fullChunks16_onBus (n : Nat) : ∀ (dest src : Nat) (s : State), (fullChunks16 n dest src s).OnBus (span dest (32 * n)) s := by
  induction n with
  | zero => exact fun _ _ s => ⟨.refl _ s, rfl, rfl⟩
  | succ n ih =>
    intro dest src s
    rw [fullChunks16_succ]
    refine ((writeChunk16_onBus _ _ _ s).mono fun a h => span_left (by simp only [Config.chunk16]; omega) h).bind fun _ t _ => ?_
    exact (ih _ _ t).mono fun a h => span_right (by simp only [Config.chunk16]; omega) h

theorem fullChunks8_onBus (n : Nat) : ∀ (dest src : Nat) (s : State), (fullChunks8 n dest src s).OnBus (span dest (32 * n)) s := by
  induction n with
  | zero => exact fun _ _ s => ⟨.refl _ s, rfl, rfl⟩
  | succ n ih =>
    intro dest src s
    rw [fullChunks8_succ]
    refine ((writeChunk8_onBus _ _ _ s).mono fun a h => span_left (by simp only [Config.chunk8]; omega) h).bind fun _ t _ => ?_
    exact (ih _ _ t).mono fun a h => span_right (by simp only [Config.chunk8]; omega) h

theorem fullChunks16_ok (n : Nat) : ∀ (dest src : Nat) (s : State), dest % 4 = 0 → dest + 32 * n ≤ s.cfg.shmemSize →
    (∀ k, k < 16 * n → src + 4 * k + 2 ≤ 2 ^ 32) → ∃ t, fullChunks16 n dest src s = .ok () t := by
  induction n with
  | zero => exact fun _ _ s _ _ _ => ⟨s, rfl⟩
  | succ n ih =>
    intro dest src s ha hin hh
    obtain ⟨t, ht⟩ : ∃ t, writeChunk16 Config.chunk16 dest src s = .ok () t := by
      rw [writeChunk16_eq]
      exact chunk_ok ha (fun _ => by simp only [Config.chunk16]; omega)
        fun k hk => hh k (by simp only [Config.chunk16] at hk; omega)
    have hb := writeChunk16_onBus Config.chunk16 dest src s
    rw [ht] at hb
    rw [fullChunks16_succ, ht, Exit.bind_ok]
    exact ih _ _ t (by simp only [Config.chunk16]; omega) (by rw [hb.1.keeps.cfg]; simp only [Config.chunk16]; omega)
      fun k hk => by have := hh (16 + k) (by omega); simp only [Config.chunk16]; omega

theorem fullChunks8_ok (n : Nat) : ∀ (dest src : Nat) (s : State), dest % 4 = 0 → dest + 32 * n ≤ s.cfg.shmemSize →
    (∀ k, k < 32 * n → src + 2 * k + 1 ≤ 2 ^ 32) → ∃ t, fullChunks8 n dest src s = .ok () t := by
  induction n with
  | zero => exact fun _ _ s _ _ _ => ⟨s, rfl⟩
  | succ n ih =>
    intro dest src s ha hin hh
    obtain ⟨t, ht⟩ : ∃ t, writeChunk8 Config.chunk8 dest src s = .ok () t := by
      rw [writeChunk8_eq]
      exact chunk_ok ha (fun _ => by simp only [Config.chunk8]; omega)
        fun k hk => hh k (by simp only [Config.chunk8] at hk; omega)
    have hb := writeChunk8_onBus Config.chunk8 dest src s
    rw [ht] at hb
    rw [fullChunks8_succ, ht, Exit.bind_ok]
    exact ih _ _ t (by simp only [Config.chunk8]; omega) (by rw [hb.1.keeps.cfg]; simp only [Config.chunk8]; omega)
      fun k hk => by have := hh (32 + k) (by omega); simp only [Config.chunk8]; omega

/-- The sample bytes n full chunks of 16-bit samples leave. -/
theorem fullChunks16_copies (n : Nat) : ∀ (dest src : Nat) (s : State) {t : State}, fullChunks16 n dest src s = .ok () t →
    NoTimeout t → s.sh.wf = true → ∀ k j, k < 16 * n → j < 2 → ¬ s.inp.Moves (EnvMove.WritesSh (dest + 2 * k + j)) →
    t.sh.get (dest + 2 * k + j) = s.host.get (src + 4 * k + j) := by
  induction n with
  | zero => intro _ _ _ _ _ _ _ k j hk; omega
  | succ n ih =>
    intro dest src s t he hn hsh k j hk hj hq
    rw [fullChunks16_succ] at he
    obtain ⟨_, u, h1, he⟩ := Exit.bind_eq_ok.mp he
    have hb := writeChunk16_onBus Config.chunk16 dest src s
    rw [h1] at hb
    have hbt := fullChunks16_onBus n (dest + 2 * Config.chunk16) (src + 4 * Config.chunk16) u
    rw [he] at hbt
    by_cases hk16 : k < 16
    · rw [hbt.1.sh (hb.1.sh_wf hsh) _ (fun hc => by have := hc.1; simp only [Config.chunk16] at this; omega)
        fun hc => hq (.of_suffix hb.1.moves hc)]
      rw [writeChunk16_eq] at h1
      have := chunk_copies (drawBytes_pad _) h1 (hbt.1.noTimeout hn) hsh (k := k) (j := j) hk16 hj
        (by simp only [Config.chunk16]; omega) (by rwa [show dest + (k * 2 + j) = dest + 2 * k + j by omega])
      rwa [show dest + (k * 2 + j) = dest + 2 * k + j by omega] at this
    · obtain ⟨m, rfl⟩ : ∃ m, k = 16 + m := ⟨k - 16, by omega⟩
      have e1 : dest + 2 * (16 + m) + j = dest + 2 * Config.chunk16 + 2 * m + j := by simp only [Config.chunk16]; omega
      have e2 : src + 4 * (16 + m) + j = src + 4 * Config.chunk16 + 4 * m + j := by simp only [Config.chunk16]; omega
      rw [e1] at hq ⊢
      rw [e2, ih _ _ u he hn (hb.1.sh_wf hsh) m j (by omega) hj fun hc => hq (.of_suffix hb.1.moves hc), hb.1.host]

/-- The samples n full chunks of 8-bit samples leave. -/
theorem fullChunks8_copies (n : Nat) : ∀ (dest src : Nat) (s : State) {t : State}, fullChunks8 n dest src s = .ok () t →
    NoTimeout t → s.sh.wf = true → ∀ k, k < 32 * n → ¬ s.inp.Moves (EnvMove.WritesSh (dest + k)) →
    t.sh.get (dest + k) = s.host.get (src + 2 * k) := by
  induction n with
  | zero => intro _ _ _ _ _ _ _ k hk; omega
  | succ n ih =>
    intro dest src s t he hn hsh k hk hq
    rw [fullChunks8_succ] at he
    obtain ⟨_, u, h1, he⟩ := Exit.bind_eq_ok.mp he
    have hb := writeChunk8_onBus Config.chunk8 dest src s
    rw [h1] at hb
    have hbt := fullChunks8_onBus n (dest + Config.chunk8) (src + 2 * Config.chunk8) u
    rw [he] at hbt
    by_cases hk32 : k < 32
    · rw [hbt.1.sh (hb.1.sh_wf hsh) _ (fun hc => by have := hc.1; simp only [Config.chunk8] at this; omega)
        fun hc => hq (.of_suffix hb.1.moves hc)]
      rw [writeChunk8_eq] at h1
      have := chunk_copies noPad h1 (hbt.1.noTimeout hn) hsh (k := k) (j := 0) hk32 (by omega)
        (by simp only [Config.chunk8]; omega) (by simpa using hq)
      simpa using this
    · obtain ⟨m, rfl⟩ : ∃ m, k = 32 + m := ⟨k - 32, by omega⟩
      have e1 : dest + (32 + m) = dest + Config.chunk8 + m := by simp only [Config.chunk8]; omega
      have e2 : src + 2 * (32 + m) = src + 2 * Config.chunk8 + 2 * m := by simp only [Config.chunk8]; omega
      rw [e1] at hq ⊢
      rw [e2, ih _ _ u he hn (hb.1.sh_wf hsh) m (by omega) fun hc => hq (.of_suffix hb.1.moves hc), hb.1.host]

theorem writeDeint16_onBus (offset src len : Nat) (s : State) :
    (writeDeint16 offset src len s).OnBus (span offset (deint16Bytes len)) s := by
  rw [writeDeint16_def]
  unfold deint16Bytes
  refine (require_onBus _ _).bind fun _ t h => ?_
  obtain ⟨-, rfl⟩ := require_eq_ok.mp h
  refine (require_onBus _ _).bind fun _ t h => ?_
  obtain ⟨-, rfl⟩ := require_eq_ok.mp h
  refine ((fullChunks16_onBus _ _ _ s).mono fun a h => span_left (by omega) h).bind fun _ t _ => ?_
  split
  · exact ⟨.refl _ t, rfl, rfl⟩
  · exact (writeChunk16_onBus _ _ _ t).mono fun a h => span_right (by omega) h

theorem writeDeint8_onBus (offset src len : Nat) (s : State) :
    (writeDeint8 offset src len s).OnBus (span offset (deint8Bytes len)) s := by
  rw [writeDeint8_def]
  unfold deint8Bytes
  refine (require_onBus _ _).bind fun _ t h => ?_
  obtain ⟨-, rfl⟩ := require_eq_ok.mp h
  refine ((fullChunks8_onBus _ _ _ s).mono fun a h => span_left (by omega) h).bind fun _ t _ => ?_
  split
  · exact ⟨.refl _ t, rfl, rfl⟩
  · exact (writeChunk8_onBus _ _ _ t).mono fun a h => span_right (by omega) h

/-- WRITE_DEINT16 once its checks pass: full chunks and a final chunk. -/
theorem writeDeint16_eq {offset src len : Nat} (ha : offset % 4 = 0) (hl : len % 2 = 0) :
    writeDeint16 offset src len s = (fullChunks16 (len / 2 / 16) offset src s).bind fun _ s =>
      if len / 2 % 16 = 0 then .ok () s
      else writeChunk16 (len / 2 % 16) (offset + 32 * (len / 2 / 16)) (src + 64 * (len / 2 / 16)) s := by
  rw [writeDeint16_def]
  rw [aligned_check, even_check, decide_eq_true ha, decide_eq_true hl]
  rfl

/-- WRITE_DEINT8 once its check passes: full chunks and a final chunk. -/
theorem writeDeint8_eq {offset src len : Nat} (ha : offset % 4 = 0) :
    writeDeint8 offset src len s = (fullChunks8 (len / 32) offset src s).bind fun _ s =>
      if len % 32 = 0 then .ok () s
      else writeChunk8 (len % 32) (offset + 32 * (len / 32)) (src + 64 * (len / 32)) s := by
  rw [writeDeint8_def]
  rw [aligned_check, decide_eq_true ha]
  rfl

/-- A misaligned offset faults before anything else (R58 (a), R115). -/
theorem writeDeint16_misaligned {offset src len : Nat} (ha : offset % 4 ≠ 0) :
    writeDeint16 offset src len s = raise (.align offset) s := by
  rw [writeDeint16_def]
  rw [aligned_check, decide_eq_false ha]
  rfl

theorem writeDeint8_misaligned {offset src len : Nat} (ha : offset % 4 ≠ 0) :
    writeDeint8 offset src len s = raise (.align offset) s := by
  rw [writeDeint8_def]
  rw [aligned_check, decide_eq_false ha]
  rfl

/-- An odd length faults (R115, 92 D11). -/
theorem writeDeint16_odd {offset src len : Nat} (ha : offset % 4 = 0) (hl : len % 2 ≠ 0) :
    writeDeint16 offset src len s = raise (.badLen len) s := by
  rw [writeDeint16_def]
  rw [aligned_check, even_check, decide_eq_true ha, decide_eq_false hl]
  rfl

/-- WRITE_DEINT16 completes: aligned, even length, both ranges inside their spaces (R115). -/
theorem writeDeint16_ok {offset src len : Nat} (ha : offset % 4 = 0) (hl : len % 2 = 0)
    (hin : offset + deint16Bytes len ≤ s.cfg.shmemSize) (hh : ∀ k, k < len / 2 → src + 4 * k + 2 ≤ 2 ^ 32) :
    ∃ t, writeDeint16 offset src len s = .ok () t := by
  unfold deint16Bytes at hin
  obtain ⟨u, hu⟩ := fullChunks16_ok (len / 2 / 16) offset src s ha (by omega) fun k hk => hh k (by omega)
  have hb := fullChunks16_onBus (len / 2 / 16) offset src s
  rw [hu] at hb
  rw [writeDeint16_eq ha hl, hu, Exit.bind_ok]
  split
  · exact ⟨u, rfl⟩
  · rw [writeChunk16_eq]
    exact chunk_ok (by omega) (fun _ => by rw [hb.1.keeps.cfg]; omega)
      fun k hk => by have := hh (16 * (len / 2 / 16) + k) (by omega); omega

/-- WRITE_DEINT8 completes: aligned, both ranges inside their spaces (R120). -/
theorem writeDeint8_ok {offset src len : Nat} (ha : offset % 4 = 0)
    (hin : offset + deint8Bytes len ≤ s.cfg.shmemSize) (hh : ∀ k, k < len → src + 2 * k + 1 ≤ 2 ^ 32) :
    ∃ t, writeDeint8 offset src len s = .ok () t := by
  unfold deint8Bytes at hin
  obtain ⟨u, hu⟩ := fullChunks8_ok (len / 32) offset src s ha (by omega) fun k hk => hh k (by omega)
  have hb := fullChunks8_onBus (len / 32) offset src s
  rw [hu] at hb
  rw [writeDeint8_eq ha, hu, Exit.bind_ok]
  split
  · exact ⟨u, rfl⟩
  · rw [writeChunk8_eq]
    exact chunk_ok (by omega) (fun _ => by rw [hb.1.keeps.cfg]; omega)
      fun k hk => by have := hh (32 * (len / 32) + k) (by omega); omega

/-- The sample bytes WRITE_DEINT16 leaves when no wait timed out (R125). -/
theorem writeDeint16_copies {offset src len : Nat} (he : writeDeint16 offset src len s = .ok () t) (hn : NoTimeout t)
    (hsh : s.sh.wf = true) {k j : Nat} (hk : k < len / 2) (hj : j < 2)
    (hq : ¬ s.inp.Moves (EnvMove.WritesSh (offset + 2 * k + j))) :
    t.sh.get (offset + 2 * k + j) = s.host.get (src + 4 * k + j) := by
  have ha : offset % 4 = 0 := by by_contra h; rw [writeDeint16_misaligned h] at he; simp [raise] at he
  have hl : len % 2 = 0 := by by_contra h; rw [writeDeint16_odd ha h] at he; simp [raise] at he
  rw [writeDeint16_eq ha hl] at he
  obtain ⟨_, u, h1, he⟩ := Exit.bind_eq_ok.mp he
  have hb := fullChunks16_onBus (len / 2 / 16) offset src s
  rw [h1] at hb
  split at he
  · cases he
    exact fullChunks16_copies _ _ _ s h1 hn hsh k j (by omega) hj hq
  · have hbt := writeChunk16_onBus (len / 2 % 16) (offset + 32 * (len / 2 / 16)) (src + 64 * (len / 2 / 16)) u
    rw [he] at hbt
    by_cases hk' : k < 16 * (len / 2 / 16)
    · rw [hbt.1.sh (hb.1.sh_wf hsh) _ (fun hc => by have := hc.1; omega) fun hc => hq (.of_suffix hb.1.moves hc)]
      exact fullChunks16_copies _ _ _ s h1 (hbt.1.noTimeout hn) hsh k j hk' hj hq
    · obtain ⟨m, rfl⟩ : ∃ m, k = 16 * (len / 2 / 16) + m := ⟨k - 16 * (len / 2 / 16), by omega⟩
      have e1 : offset + 2 * (16 * (len / 2 / 16) + m) + j = offset + 32 * (len / 2 / 16) + (m * 2 + j) := by omega
      have e2 : src + 4 * (16 * (len / 2 / 16) + m) + j = src + 64 * (len / 2 / 16) + 4 * m + j := by omega
      rw [e1] at hq ⊢
      rw [writeChunk16_eq] at he
      rw [e2, chunk_copies (drawBytes_pad _) he hn (hb.1.sh_wf hsh) (k := m) (j := j) (by omega) hj
        (by omega) fun hc => hq (.of_suffix hb.1.moves hc), hb.1.host]

/-- The samples WRITE_DEINT8 leaves when no wait timed out: the first 4 * (len / 4) of them (R125). -/
theorem writeDeint8_copies {offset src len : Nat} (he : writeDeint8 offset src len s = .ok () t) (hn : NoTimeout t)
    (hsh : s.sh.wf = true) {k : Nat} (hk : k < deint8Bytes len)
    (hq : ¬ s.inp.Moves (EnvMove.WritesSh (offset + k))) : t.sh.get (offset + k) = s.host.get (src + 2 * k) := by
  unfold deint8Bytes at hk
  have ha : offset % 4 = 0 := by by_contra h; rw [writeDeint8_misaligned h] at he; simp [raise] at he
  rw [writeDeint8_eq ha] at he
  obtain ⟨_, u, h1, he⟩ := Exit.bind_eq_ok.mp he
  have hb := fullChunks8_onBus (len / 32) offset src s
  rw [h1] at hb
  split at he
  · cases he
    exact fullChunks8_copies _ _ _ s h1 hn hsh k (by omega) hq
  · have hbt := writeChunk8_onBus (len % 32) (offset + 32 * (len / 32)) (src + 64 * (len / 32)) u
    rw [he] at hbt
    by_cases hk' : k < 32 * (len / 32)
    · rw [hbt.1.sh (hb.1.sh_wf hsh) _ (fun hc => by have := hc.1; omega) fun hc => hq (.of_suffix hb.1.moves hc)]
      exact fullChunks8_copies _ _ _ s h1 (hbt.1.noTimeout hn) hsh k hk' hq
    · obtain ⟨m, rfl⟩ : ∃ m, k = 32 * (len / 32) + m := ⟨k - 32 * (len / 32), by omega⟩
      have e1 : offset + (32 * (len / 32) + m) = offset + 32 * (len / 32) + (m * 1 + 0) := by omega
      have e2 : src + 2 * (32 * (len / 32) + m) = src + 64 * (len / 32) + 2 * m + 0 := by omega
      rw [e1] at hq ⊢
      rw [writeChunk8_eq] at he
      rw [e2, chunk_copies noPad he hn (hb.1.sh_wf hsh) (k := m) (j := 0) (by omega) (by omega)
        (by omega) fun hc => hq (.of_suffix hb.1.moves hc), hb.1.host]

end Sys2Proof.Machine
end

