-- ==== Sys2Proof/Laws/Bodies.lean ====
section
/-! SUPPORT. What the body of each operation can do, said once for any relation R between states: if R is closed under
the shared operations and allows the operation's own updates, R holds between the state in which the body begins and the
one in which it ends or raises a fault. A claim about every operation picks its R and cites these. -/

namespace Sys2Proof.Machine

variable {α β : Type} {R : State → State → Prop} {s t : State}

/-- A piece of an operation begun in s keeps R, and says of the fault and the result what it is entitled to say. -/
def Exit.Rel (R : State → State → Prop) (s : State) : Exit α → Prop
  | .ok _ t => R s t ∧ t.fault = s.fault ∧ t.result = s.result
  | .raised t => R s t ∧ ∃ f, t.fault = some f ∧ t.result = none ∧ t.events.head? = some (.fault f)

/-- R is closed under the shared operations. Pieces follow one another only while no fault is raised. -/
structure Closed (R : State → State → Prop) : Prop where
  refl (s : State) : R s s
  trans {s t u : State} : R s t → t.fault = s.fault → R t u → R s u
  fault (s : State) (f : BlockFault) : R s (s.recordFault f)
  tick (s : State) : R s s.envTick
  inp (s : State) (i : Inputs) : SameScript s.inp i → R s (s.setInp i)
  wait (s : State) : R s (waitReady s)
  waited (s : State) (off : Nat) (v : Word) : (writeWaited off v s).Rel R s
  readSh (s : State) (off : Nat) : (memReadSh off s).Rel R s
  block (s : State) (off len : Nat) (src : BlockSource) : (writeBlockFrom off len src s).Rel R s
  deint16 (s : State) (off src len : Nat) : (writeDeint16 off src len s).Rel R s
  deint8 (s : State) (off src len : Nat) : (writeDeint8 off src len s).Rel R s

theorem Exit.OnBus.rel {W : Nat → Prop} {x : Exit α} (h : x.OnBus W s) (hR : ∀ t, Bus W s t → R s t) : x.Rel R s := by
  cases x with
  | ok a t => exact ⟨hR _ h.1, h.2⟩
  | raised t => exact ⟨hR _ h.1, h.2⟩

/-- A relation that holds across all bus work is closed. -/
theorem Closed.of_bus (hb : ∀ {W : Nat → Prop} {s t : State}, Bus W s t → R s t)
    (ht : ∀ {s t u}, R s t → R t u → R s u) : Closed R where
  refl s := hb (.refl (fun _ => False) s)
  trans a _ b := ht a b
  fault _ f := hb (W := fun _ => False) (.recordFault f)
  tick s := hb (W := fun _ => False) (.envTick s)
  inp _ _ h := hb (W := fun _ => False) (.setInp h)
  wait s := hb (W := fun _ => False) (waitReady_bus s)
  waited _ off v := (writeWaited_onBus off v).rel fun _ => hb
  readSh _ off := (memReadSh_onBus (W := fun _ => False) off).rel fun _ => hb
  block s off len src := (writeBlockFrom_onBus off len src s).rel fun _ => hb
  deint16 s off src len := (writeDeint16_onBus off src len s).rel fun _ => hb
  deint8 s off src len := (writeDeint8_onBus off src len s).rel fun _ => hb

/-- The Device State after START's bounds are written (R141). -/
def Device.bounded (d : Device) (bs be b : Word) : Device :=
  { d with
    bufferStart := some bs, bufferEnd := some be, blockSize := some b, nextFillOffset := some 0
    bufferCursor := some bs }

/-- R allows the update a refill makes at its end. -/
def AllowsRefill (R : State → State → Prop) : Prop :=
  ∀ s p c b o q bs be, RefillReads s.dev p c b o q bs be → R s (s.setDev (s.dev.refilled c b o q bs be))

/-- The copies of a refill with the channel count written out. -/
theorem refillCopy_def (p : Precision) (c : Channels) (b o q : Nat) (s : State) : refillCopy p c b o q s =
    match c, p with
    | .stereo, .bits16 =>
      (writeDeint16 (s.cfg.leftBase + o) q (b / 2) s).bind fun _ s =>
        writeDeint16 (s.cfg.rightBase + o) (rightPointer16 q) (b / 2) s
    | .stereo, .bits8 =>
      (writeDeint8 (s.cfg.leftBase + o) q (b / 2) s).bind fun _ s =>
        writeDeint8 (s.cfg.rightBase + o) (rightPointer8 q) (b / 2) s
    | .mono, _ => writeBlock (s.cfg.leftBase + o) q b s := by
  cases c <;> cases p <;> rfl

theorem refillCopy_onBus (p : Precision) (c : Channels) (b o q : Nat) (s : State) :
    (refillCopy p c b o q s).OnBus (refillSpan s.cfg p c b o) s := by
  rw [refillCopy_def]
  unfold refillSpan refillBytes
  split
  · refine ((writeDeint16_onBus _ _ _ s).mono fun _ => .inl).bind fun _ t ht => ?_
    have hc : t.cfg = s.cfg := by
      have := writeDeint16_onBus (s.cfg.leftBase + o) q (b / 2) s; rw [ht] at this; exact this.1.keeps.cfg
    rw [hc]
    exact (writeDeint16_onBus _ _ _ t).mono fun _ h => .inr ⟨rfl, h⟩
  · refine ((writeDeint8_onBus _ _ _ s).mono fun _ => .inl).bind fun _ t ht => ?_
    have hc : t.cfg = s.cfg := by
      have := writeDeint8_onBus (s.cfg.leftBase + o) q (b / 2) s; rw [ht] at this; exact this.1.keeps.cfg
    rw [hc]
    exact (writeDeint8_onBus _ _ _ t).mono fun _ h => .inr ⟨rfl, h⟩
  · exact (writeBlockFrom_onBus _ _ _ s).mono fun _ => .inl

/-- REFILL with its seven fields read (R144). -/
theorem refill_eq {p : Precision} {c : Channels} {b o q bs be : Word} (h : RefillReads s.dev p c b o q bs be) :
    refill s = (refillCopy p c b.toNat o.toNat q.toNat s).bind fun _ t =>
      .ok () (t.setDev (t.dev.refilled c b o q bs be)) := by
  simp only [refill, h.precision, h.channels, h.blockSize, h.nextFillOffset, h.bufferCursor, h.bufferStart,
    h.bufferEnd, readField_some, Exit.bind_ok]
  rfl

/-- What a REFILL that goes on has done (R144). -/
theorem refill_eq_ok (he : refill s = .ok () t) : ∃ p c b o q bs be u, RefillReads s.dev p c b o q bs be ∧
    refillCopy p c b.toNat o.toNat q.toNat s = .ok () u ∧ t = u.setDev (u.dev.refilled c b o q bs be) ∧ u.dev = s.dev := by
  have he' := he
  unfold refill at he'
  obtain ⟨p, _, h, he'⟩ := Exit.bind_eq_ok.mp he'
  obtain ⟨hp, rfl⟩ := readField_eq_ok.mp h
  obtain ⟨c, _, h, he'⟩ := Exit.bind_eq_ok.mp he'
  obtain ⟨hc, rfl⟩ := readField_eq_ok.mp h
  obtain ⟨b, _, h, he'⟩ := Exit.bind_eq_ok.mp he'
  obtain ⟨hb, rfl⟩ := readField_eq_ok.mp h
  obtain ⟨o, _, h, he'⟩ := Exit.bind_eq_ok.mp he'
  obtain ⟨ho, rfl⟩ := readField_eq_ok.mp h
  obtain ⟨q, _, h, he'⟩ := Exit.bind_eq_ok.mp he'
  obtain ⟨hq, rfl⟩ := readField_eq_ok.mp h
  obtain ⟨bs, _, h, he'⟩ := Exit.bind_eq_ok.mp he'
  obtain ⟨hbs, rfl⟩ := readField_eq_ok.mp h
  obtain ⟨be, _, h, he'⟩ := Exit.bind_eq_ok.mp he'
  obtain ⟨hbe, rfl⟩ := readField_eq_ok.mp h
  have hr : RefillReads s.dev p c b o q bs be := ⟨hp, hc, hb, ho, hq, hbs, hbe⟩
  rw [refill_eq hr] at he
  obtain ⟨_, u, h, he⟩ := Exit.bind_eq_ok.mp he
  simp only [Exit.ok.injEq, true_and] at he
  have hu := refillCopy_onBus p c b.toNat o.toNat q.toNat s
  rw [h] at hu
  exact ⟨p, c, b, o, q, bs, be, u, hr, h, he.symm, hu.1.keeps.dev⟩

theorem playParams_onBus (b : Word) (c : Channels) (r : Word) (p : Precision) (s : State) :
    (playParams b c r p s).OnBus (fun a => span s.cfg.offBlocksize 4 a ∨ span s.cfg.offChannel 4 a ∨
      span s.cfg.offRate 4 a ∨ span s.cfg.offPrecision 4 a) s := by
  unfold playParams
  refine ((writeWaited_onBus _ _).mono fun _ => .inl).bind fun _ t h => ?_
  have c1 : t.cfg = s.cfg := by
    have := writeWaited_onBus s.cfg.offBlocksize (word (halfSize b c)) (s := s); rw [h] at this; exact this.1.keeps.cfg
  rw [c1]
  refine ((writeWaited_onBus _ _).mono fun _ h => .inr (.inl h)).bind fun _ u h => ?_
  have c2 : u.cfg = s.cfg := by
    have := writeWaited_onBus s.cfg.offChannel (word c.toNat) (s := t); rw [h] at this; exact this.1.keeps.cfg.trans c1
  rw [c2]
  refine ((writeWaited_onBus _ _).mono fun _ h => .inr (.inr (.inl h))).bind fun _ v h => ?_
  have c3 : v.cfg = s.cfg := by
    have := writeWaited_onBus s.cfg.offRate r (s := u); rw [h] at this; exact this.1.keeps.cfg.trans c2
  rw [c3]
  exact (writeWaited_onBus _ _).mono fun _ h => .inr (.inr (.inr h))

namespace Closed

variable (h : Closed R)
include h

theorem ok (a : α) : (Exit.ok a s).Rel R s := ⟨h.refl s, rfl, rfl⟩

theorem raise (f : BlockFault) : (Machine.raise f s : Exit α).Rel R s := 
  ⟨h.trans (h.tick s) (envTick_fault s) (h.fault _ f), f, rfl, rfl, rfl⟩

theorem after {x : Exit α} (hst : R s t) (hf : t.fault = s.fault) (hr : t.result = s.result) (hx : x.Rel R t) :
    x.Rel R s := by
  cases x with
  | ok a u => exact ⟨h.trans hst hf hx.1, hx.2.1.trans hf, hx.2.2.trans hr⟩
  | raised u => exact ⟨h.trans hst hf hx.1, hx.2⟩

theorem bind {x : Exit α} {k : α → State → Exit β} (hx : x.Rel R s) (hk : ∀ a t, x = .ok a t → (k a t).Rel R t) :
    (x.bind k).Rel R s := by
  cases x with
  | ok a t => exact h.after hx.1 hx.2.1 hx.2.2 (hk a t rfl)
  | raised t => exact hx

omit h in
theorem finish {r : Result} {x : Exit Unit} (hx : x.Rel R s) : (Machine.finish r x).Rel R s := by
  cases x with
  | ok a t => exact hx
  | raised t => exact hx

/-- After a check that passed. -/
theorem require {c : Bool} {f : BlockFault} {k : Unit → State → Exit β} (hk : c = true → (k () s).Rel R s) :
    ((Machine.require c f s).bind k).Rel R s := by
  cases c with
  | true => exact hk rfl
  | false => exact h.raise f

/-- After a field that is set. -/
theorem read {n : Field} {v : Option α} {k : α → State → Exit β} (hk : ∀ a, v = some a → (k a s).Rel R s) :
    ((readField n v s).bind k).Rel R s := by
  cases v with
  | some a => exact hk a rfl
  | none => exact h.raise _

/-- An update of the operation's own. -/
theorem update {x : Exit α} (hst : R s t) (hf : t.fault = s.fault) (hr : t.result = s.result) (hx : x.Rel R t) :
    x.Rel R s := h.after hst hf hr hx

/-! ### Command Channel -/

theorem sendCommand (cmd : Word) : (Machine.sendCommand cmd s).Rel R s :=
  h.require fun _ => h.bind (h.waited _ _ _) fun _ _ _ => h.bind (h.readSh _ _) fun _ _ _ => h.waited _ _ _

theorem sendParam (cmd l r : Word) : (Machine.sendParam cmd l r s).Rel R s :=
  h.require fun _ => h.bind (h.waited _ _ _) fun _ _ _ => h.bind (h.waited _ _ _) fun _ _ _ => h.sendCommand cmd

/-! ### Playback Engine -/

theorem setFormat {p c r : Word} (hu : ∀ prec chan, s.dev.callback = some 0 → precisionOf p = some prec →
    channelsOf c = some chan → rateLegal s.cfg r = true →
    R s (s.setDev { s.dev with precision := some prec, channels := some chan, rate := some r })) :
    (Machine.setFormat p c r s).Rel R s := by
  refine h.read fun cb hcb => h.require fun hp => ?_
  have : cb = 0 := by simpa [isPlaying] using hp
  subst this
  split
  · exact ⟨hu _ _ hcb ‹_› ‹_› ‹_›, rfl, rfl⟩
  · exact h.raise _

theorem refillCopy (p : Precision) (c : Channels) (b o q : Nat) : (Machine.refillCopy p c b o q s).Rel R s := by
  unfold Machine.refillCopy
  split
  · exact h.bind (h.deint16 _ _ _ _) fun _ _ _ => h.deint16 _ _ _ _
  · exact h.bind (h.deint8 _ _ _ _) fun _ _ _ => h.deint8 _ _ _ _
  · exact h.block _ _ _ _

theorem refill (hu : AllowsRefill R) : (Machine.refill s).Rel R s := by
  refine h.read fun p hp => h.read fun c hc => h.read fun b hb => h.read fun o ho => h.read fun q hq =>
    h.read fun bs hbs => h.read fun be hbe => h.bind (h.refillCopy p c _ _ _) fun _ t ht => ?_
  have hd : t.dev = s.dev := by
    have := refillCopy_onBus p c b.toNat o.toNat q.toNat s
    rw [ht] at this
    exact this.1.keeps.dev
  refine ⟨hu t p c b o q bs be ?_, rfl, rfl⟩
  rw [hd]
  exact ⟨hp, hc, hb, ho, hq, hbs, hbe⟩

theorem playParams (b : Word) (c : Channels) (r : Word) (p : Precision) : (Machine.playParams b c r p s).Rel R s :=
  h.bind (h.waited _ _ _) fun _ _ _ => h.bind (h.waited _ _ _) fun _ _ _ => h.bind (h.waited _ _ _) fun _ _ _ =>
    h.waited _ _ _

theorem start {bs be b sink arg : Word} (hu : AllowsRefill R)
    (hbuf : ∀ s c, s.dev.callback = some 0 → s.dev.channels = some c → bufferLegal bs be b c = true →
      R s (s.setDev (s.dev.bounded bs be b)))
    (hcb : ∀ s, s.dev.precision ≠ none → s.dev.bufferCursor ≠ none → sink ≠ 0 →
      R s (s.setDev { s.dev with callback := some sink, callbackArg := some arg })) :
    (Machine.start bs be b sink arg s).Rel R s := by
  refine h.read fun cb hc => h.require fun hp => h.read fun p hpr => h.read fun c hch => h.read fun r hr =>
    h.require fun hs => h.require fun hl => ?_
  have : cb = 0 := by simpa [isPlaying] using hp
  subst this
  refine h.after (hbuf s c hc hch hl) rfl rfl (h.bind (h.refill hu) fun _ t1 e1 => h.bind (h.refill hu) fun _ t2 e2 =>
    h.bind (h.playParams _ _ _ _) fun _ t3 e3 => h.bind (h.sendCommand _) fun _ t4 e4 => ?_)
  have d4 : t4.dev = t3.dev := by have := sendCommand_onBus t3.cfg.cmdPlay (s := t3); rw [e4] at this; exact this.1.keeps.dev
  have d3 : t3.dev = t2.dev := by
    have := playParams_onBus b c r p t2; rw [e3] at this; exact this.1.keeps.dev
  obtain ⟨_, _, _, _, _, _, _, u, hr2, -, rfl, hu2⟩ := refill_eq_ok e2
  refine ⟨hcb t4 ?_ ?_ (by simpa using hs), rfl, rfl⟩
  · rw [d4, d3, State.setDev_dev, Device.refilled, hu2, hr2.precision]; simp
  · rw [d4, d3, State.setDev_dev, Device.refilled]; simp

theorem stop (hcb : ∀ s, R s (s.setDev { s.dev with callback := some 0 })) : (Machine.stop s).Rel R s :=
  h.bind (h.sendCommand _) fun _ t _ => ⟨hcb t, rfl, rfl⟩

/-! ### Mixer -/

theorem mixerSet {index nvals v0 v1 : Word} (hm : ∀ s v, R s (s.setDev { s.dev with outputMaster := some v }))
    (hg : ∀ s l r, R s (s.setDev { s.dev with outputGainLeft := some l, outputGainRight := some r })) :
    (Machine.mixerSet index nvals v0 v1 s).Rel R s := by
  unfold Machine.mixerSet
  split
  · split
    · exact Closed.finish (h.after (hm s _) rfl rfl (h.after (h.inp _ _ (drawWord_sameScript _)) rfl rfl (h.sendParam _ _ _)))
    · exact h.ok _
  · split
    · exact Closed.finish (h.after (hg s _ _) rfl rfl (h.sendParam _ _ _))
    · exact h.ok _
  · exact h.ok _
  · exact h.ok _

theorem mixerGet {index : Word} : (Machine.mixerGet index s).Rel R s := by
  unfold Machine.mixerGet
  split
  · exact h.read fun _ _ => h.ok _
  · exact h.read fun _ _ => h.read fun _ _ => h.ok _
  · exact h.ok _
  · exact h.ok _

theorem mixerDevinfo {index : Word} : (Machine.mixerDevinfo index s).Rel R s := by
  unfold Machine.mixerDevinfo
  split <;> exact h.ok _

/-! ### Interrupt Handler -/

theorem notifySink (hc : ∀ s cb arg, R s ((s.emit (.callback cb arg)).sinkWrites)) : (Machine.notifySink s).Rel R s := by
  refine h.read fun cb _ => ?_
  split
  · exact h.read fun arg _ => ⟨h.trans (h.tick s) (envTick_fault s) (hc _ _ _), by simp [callSink], by simp [callSink]⟩
  · exact h.ok _

theorem writeReg {off : Nat} {v : Word} (hr : ∀ s, R s ((s.emit (.regWrite off v)).writeReg off v)) :
    (memWriteReg off v s).Rel R s :=
  h.require fun _ => ⟨h.trans (h.tick s) (envTick_fault s) (hr _), by simp, by simp⟩

theorem interruptBody (hu : AllowsRefill R) (hc : ∀ s cb arg, R s ((s.emit (.callback cb arg)).sinkWrites))
    (hr : ∀ s, R s ((s.emit (.regWrite s.cfg.offIntrClear s.cfg.ackValue)).writeReg s.cfg.offIntrClear s.cfg.ackValue)) :
    (Machine.interruptBody s).Rel R s := by
  refine h.bind (h.refill hu) fun _ t _ => h.bind (h.notifySink hc) fun _ u _ => Closed.finish ?_
  refine h.require fun _ => ⟨h.trans (h.tick u) (envTick_fault u) ?_, by simp, by simp⟩
  have := hr u.envTick
  rwa [envTick_cfg] at this

/-! ### Initialisation -/

theorem loadCoprocessor
    (hoff : ∀ s, R s ((s.emit (.regWrite s.cfg.offEnable s.cfg.disableValue)).writeReg s.cfg.offEnable s.cfg.disableValue))
    (hon : ∀ s, R s ((s.emit (.regWrite s.cfg.offEnable s.cfg.enableValue)).writeReg s.cfg.offEnable s.cfg.enableValue)) :
    (Machine.loadCoprocessor s).Rel R s := by
  refine h.bind (h.require fun _ => ⟨h.trans (h.tick s) (envTick_fault s) ?_, by simp, by simp⟩) fun _ _ _ =>
    h.bind (h.block _ _ _ _) fun _ _ _ => h.bind (h.block _ _ _ _) fun _ w _ =>
      h.require fun _ => ⟨h.trans (h.tick w) (envTick_fault w) ?_, by simp, by simp⟩
  · have := hoff s.envTick
    rwa [envTick_cfg] at this
  · have := hon w.envTick
    rwa [envTick_cfg] at this

theorem sendDefaults : (Machine.sendDefaults s).Rel R s := by
  unfold Machine.sendDefaults
  split
  · exact h.after (h.inp _ _ (drawWord_sameScript _)) rfl rfl (h.bind (h.sendParam _ _ _) fun _ _ _ => h.sendParam _ _ _)
  · exact h.ok _

theorem initBody (hdead : ∀ s, s.initialized = false → R s s.becomeDead)
    (hoff : ∀ s, R s ((s.emit (.regWrite s.cfg.offEnable s.cfg.disableValue)).writeReg s.cfg.offEnable s.cfg.disableValue))
    (hon : ∀ s, R s ((s.emit (.regWrite s.cfg.offEnable s.cfg.enableValue)).writeReg s.cfg.offEnable s.cfg.enableValue))
    (hup : ∀ s, s.dead = false → R s s.becomeUp) : (Machine.initBody s).Rel R s := by
  refine h.require fun hc => ?_
  simp only [Bool.and_eq_true, Bool.not_eq_true'] at hc
  refine h.after (t := s.setInp s.inp.drawBool.2) (h.inp _ _ (drawBool_sameScript _)) rfl rfl ?_
  dsimp only
  split
  · exact ⟨hdead _ hc.1, rfl, rfl⟩
  · refine h.bind (h.loadCoprocessor hoff hon) fun _ t ht => Closed.finish (h.after (hup t ?_) rfl rfl h.sendDefaults)
    have hd : Closed fun s t => t.dead = s.dead := .of_bus (fun hb => hb.keeps.dead) fun a b => b.trans a
    have := hd.loadCoprocessor (s := s.setInp s.inp.drawBool.2) (fun _ => rfl) fun _ => rfl
    rw [ht] at this
    exact this.1.trans hc.2

end Closed

/-! ### All operations -/

/-- The body of an operation, as its meaning runs it. -/
def bodyOf : Instr → State → Exit Result
  | .init => initBody
  | .setFormat p c r => fun s => finish resultOk (setFormat p c r s)
  | .start bs be b sink arg => fun s => finish resultOk (start bs be b sink arg s)
  | .stop => fun s => finish resultOk (stop s)
  | .refill => fun s => finish resultOk (refill s)
  | .interrupt => interruptBody
  | .mixerSet index nvals v0 v1 => mixerSet index nvals v0 v1
  | .mixerGet index => mixerGet index
  | .waitReady => fun s => .ok resultOk (waitReady s)
  | .writeBlock offset src len => fun s => finish resultOk (writeBlock offset.toNat src.toNat len.toNat s)
  | .writeDeint16 offset src len => fun s => finish resultOk (writeDeint16 offset.toNat src.toNat len.toNat s)
  | .writeDeint8 offset src len => fun s => finish resultOk (writeDeint8 offset.toNat src.toNat len.toNat s)
  | .sendCommand cmd => fun s => finish resultOk (sendCommand cmd s)
  | .sendParam cmd left right => fun s => finish resultOk (sendParam cmd left right s)
  | .queryFormat => queryFormat
  | .roundBlocksize _ => roundBlocksize
  | .roundBuffersize req => roundBuffersize req
  | .mixerDevinfo index => mixerDevinfo index
  | .getDevice => getDevice
  | .getLocks => getLocks

/-- Every meaning is its body in the operation frame. -/
theorem exec_eq (i : Instr) (s : State) : exec i s = runOp (contextOf i) i (bodyOf i) s := by cases i <;> rfl

/-- The two ways an operation ends: with a result, or with a fault. -/
theorem exec_cases {i : Instr} (h : exec i s = .next t) :
    (∃ r u, bodyOf i (s.beginOp (contextOf i) i) = .ok r u ∧ t = u.envTick.endOp i r) ∨
      bodyOf i (s.beginOp (contextOf i) i) = .raised t := by
  rw [exec_eq, runOp_eq, Host.Outcome.next.injEq] at h
  cases hb : bodyOf i (s.beginOp (contextOf i) i) with
  | ok r u => rw [hb] at h; exact .inl ⟨r, u, rfl, h.symm⟩
  | raised u => rw [hb] at h; exact .inr (congrArg _ h)

/-- The updates an operation makes beside the shared operations are allowed by R. -/
def OwnUpdates (R : State → State → Prop) : Instr → Prop
  | .init => (∀ s, s.initialized = false → R s s.becomeDead) ∧
    (∀ s, R s ((s.emit (.regWrite s.cfg.offEnable s.cfg.disableValue)).writeReg s.cfg.offEnable s.cfg.disableValue)) ∧
    (∀ s, R s ((s.emit (.regWrite s.cfg.offEnable s.cfg.enableValue)).writeReg s.cfg.offEnable s.cfg.enableValue)) ∧
    ∀ s, s.dead = false → R s s.becomeUp
  | .setFormat p c r => ∀ s prec chan, s.dev.callback = some 0 → precisionOf p = some prec → channelsOf c = some chan →
    rateLegal s.cfg r = true →
      R s (s.setDev { s.dev with precision := some prec, channels := some chan, rate := some r })
  | .start bs be b sink arg => AllowsRefill R ∧
    (∀ s c, s.dev.callback = some 0 → s.dev.channels = some c → bufferLegal bs be b c = true →
      R s (s.setDev (s.dev.bounded bs be b))) ∧
    ∀ s, s.dev.precision ≠ none → s.dev.bufferCursor ≠ none → sink ≠ 0 →
      R s (s.setDev { s.dev with callback := some sink, callbackArg := some arg })
  | .stop => ∀ s, R s (s.setDev { s.dev with callback := some 0 })
  | .refill => AllowsRefill R
  | .interrupt => AllowsRefill R ∧ (∀ s cb arg, R s ((s.emit (.callback cb arg)).sinkWrites)) ∧
    ∀ s, R s ((s.emit (.regWrite s.cfg.offIntrClear s.cfg.ackValue)).writeReg s.cfg.offIntrClear s.cfg.ackValue)
  | .mixerSet _ _ _ _ => (∀ s v, R s (s.setDev { s.dev with outputMaster := some v })) ∧
    ∀ s l r, R s (s.setDev { s.dev with outputGainLeft := some l, outputGainRight := some r })
  | .mixerGet _ => True
  | .waitReady => True
  | .writeBlock _ _ _ => True
  | .writeDeint16 _ _ _ => True
  | .writeDeint8 _ _ _ => True
  | .sendCommand _ => True
  | .sendParam _ _ _ => True
  | .queryFormat => True
  | .roundBlocksize _ => True
  | .roundBuffersize _ => True
  | .mixerDevinfo _ => True
  | .getDevice => True
  | .getLocks => True

/-- What the body of any operation can do. -/
theorem bodyOf_rel (h : Closed R) (i : Instr) (hu : OwnUpdates R i) (s : State) : (bodyOf i s).Rel R s := by
  cases i with
  | init => exact h.initBody hu.1 hu.2.1 hu.2.2.1 hu.2.2.2
  | setFormat p c r => exact Closed.finish (h.setFormat (hu s))
  | start bs be b sink arg => exact Closed.finish (h.start hu.1 hu.2.1 hu.2.2)
  | stop => exact Closed.finish (h.stop hu)
  | refill => exact Closed.finish (h.refill hu)
  | interrupt => exact h.interruptBody hu.1 hu.2.1 hu.2.2
  | mixerSet index nvals v0 v1 => exact h.mixerSet hu.1 hu.2
  | mixerGet index => exact h.mixerGet
  | waitReady => exact ⟨h.wait s, by simp, by simp⟩
  | writeBlock offset src len => exact Closed.finish (h.block _ _ _ _)
  | writeDeint16 offset src len => exact Closed.finish (h.deint16 _ _ _ _)
  | writeDeint8 offset src len => exact Closed.finish (h.deint8 _ _ _ _)
  | sendCommand cmd => exact Closed.finish (h.sendCommand cmd)
  | sendParam cmd left right => exact Closed.finish (h.sendParam cmd left right)
  | queryFormat => exact h.ok _
  | roundBlocksize req => exact h.ok _
  | roundBuffersize req => exact h.read fun _ _ => h.ok _
  | mixerDevinfo index => exact h.mixerDevinfo
  | getDevice => exact h.ok _
  | getLocks => exact h.ok _

/-- What any operation can do: R holds from its beginning to u, the state in which it ends with a result or has raised a
fault. -/
theorem exec_rel {i : Instr} (h : Closed R) (hu : OwnUpdates R i) (he : exec i s = .next t) :
    ∃ u, R (s.beginOp (contextOf i) i) u ∧ ((∃ r, t = u.endOp i r ∧ u.fault = s.fault) ∨
      (t = u ∧ ∃ f, t.fault = some f ∧ t.result = none ∧ t.events.head? = some (.fault f))) := by
  have hb := bodyOf_rel h i hu (s.beginOp (contextOf i) i)
  rcases exec_cases he with ⟨r, u, hr, rfl⟩ | hr
  · rw [hr] at hb
    exact ⟨_, h.trans hb.1 hb.2.1 (h.tick u), .inl ⟨r, rfl, (envTick_fault u).trans hb.2.1⟩⟩
  · rw [hr] at hb
    exact ⟨t, hb.1, .inr ⟨rfl, hb.2⟩⟩

/-- A body that raises a fault leaves no result. -/
theorem bodyOf_raised {i : Instr} (h : bodyOf i s = .raised t) : ∃ f, t.fault = some f ∧ t.result = none := by
  have hc : Closed fun _ _ => True := ⟨fun _ => trivial, fun _ _ _ => trivial, fun _ _ => trivial, fun _ => trivial,
    fun _ _ _ => trivial, fun _ => trivial, fun _ off v => (writeWaited_onBus off v).rel fun _ _ => trivial,
    fun _ off => (memReadSh_onBus (W := fun _ => False) off).rel fun _ _ => trivial,
    fun s off len src => (writeBlockFrom_onBus off len src s).rel fun _ _ => trivial,
    fun s off src len => (writeDeint16_onBus off src len s).rel fun _ _ => trivial,
    fun s off src len => (writeDeint8_onBus off src len s).rel fun _ _ => trivial⟩
  have hu : OwnUpdates (fun _ _ => True) i := by cases i <;> simp [OwnUpdates, AllowsRefill]
  have hb := bodyOf_rel hc i hu s
  rw [h] at hb
  obtain ⟨-, f, hf, hr, -⟩ := hb
  exact ⟨f, hf, hr⟩

/-- An operation that ended with a result: its body went on to its end. -/
theorem exec_of_result {i : Instr} {r : Result} (h : exec i s = .next t) (hr : t.result = some r) :
    ∃ u, bodyOf i (s.beginOp (contextOf i) i) = .ok r u ∧ t = u.envTick.endOp i r := by
  rcases exec_cases h with ⟨r', u, hb, rfl⟩ | hb
  · obtain rfl : r' = r := Option.some.inj hr
    exact ⟨u, hb, rfl⟩
  · obtain ⟨f, -, hn⟩ := bodyOf_raised hb
    rw [hn] at hr
    cases hr

/-- An operation after which no fault is recorded: its body went on to its end. -/
theorem exec_of_noFault {i : Instr} (h : exec i s = .next t) (hf : t.fault = none) :
    ∃ r u, bodyOf i (s.beginOp (contextOf i) i) = .ok r u ∧ t = u.envTick.endOp i r := by
  rcases exec_cases h with ⟨r, u, hb, rfl⟩ | hb
  · exact ⟨r, u, hb, rfl⟩
  · obtain ⟨f, hn, -⟩ := bodyOf_raised hb
    rw [hn] at hf
    cases hf

end Sys2Proof.Machine
end

