-- ==== Sys2Proof/Laws/Step.lean ====
section
/-! SUPPORT. What a step can do before an operation runs (R202, R171), said once. -/

namespace Sys2Proof.Machine

variable {s t : State}

/-- Everything an admission can do: the operation is admitted and nothing changes, or a fault is recorded. -/
theorem admit_cases (r : Record) (s : State) : (∃ i, admission r s = .ok i s) ∨ ∃ f, admission r s = .raised (s.envTick.recordFault f) := by
  unfold admission
  split
  · exact .inr ⟨_, rfl⟩
  · exact .inr ⟨_, rfl⟩
  · exact .inl ⟨_, rfl⟩
  · split
    · exact .inl ⟨_, rfl⟩
    · exact .inr ⟨_, rfl⟩

theorem drawTurn_moves (i : Inputs) : i.drawTurn.2.moves = i.moves := by
  unfold Inputs.drawTurn; split <;> rfl

/-- Everything a boundary can do: the environment moves and inputs are used up; then an operation begins, if nothing is
active; or none does; or a fault is recorded. -/
theorem boundary_cases (s : State) : ∃ j : Inputs, j.moves = s.envTick.inp.moves ∧
    ((∃ i, boundary s = (some i, s.envTick.setInp j) ∧ s.active = none) ∨ boundary s = (none, s.envTick.setInp j) ∨
      ∃ f, boundary s = (none, (s.envTick.setInp j).envTick.recordFault f)) := by
  unfold boundary
  simp only [envTick_active]
  split
  · exact ⟨s.envTick.inp, rfl, .inr (.inl rfl)⟩
  · rename_i ha
    have hm := drawTurn_moves s.envTick.inp
    split <;> rename_i j hj <;> rw [hj] at hm
    · unfold controlTurn
      split
      · exact ⟨j, hm, .inr (.inl rfl)⟩
      · rename_i r rest hp
        refine ⟨{ j with port := rest }, hm, ?_⟩
        rcases admit_cases r ((s.envTick.setInp j).setInp { (s.envTick.setInp j).inp with port := rest }) with
          ⟨i, h⟩ | ⟨f, h⟩ <;> simp only [h]
        · exact .inl ⟨i, rfl, ha⟩
        · exact .inr (.inr ⟨f, rfl⟩)
    · unfold interruptTurn
      split
      · exact ⟨j, hm, .inl ⟨_, rfl, ha⟩⟩
      · exact ⟨j, hm, .inr (.inl rfl)⟩

/-- Everything a step can do: only a block without a fault takes one; it begins with a boundary, and an operation may
run after it. -/
theorem step_cases (h : step s = .next t) : s.fault = none ∧ ∃ j : Inputs, j.moves = s.envTick.inp.moves ∧
    ((∃ i, exec i (s.envTick.setInp j) = .next t ∧ s.active = none) ∨ t = s.envTick.setInp j ∨
      ∃ f, t = (s.envTick.setInp j).envTick.recordFault f) := by
  unfold step at h
  cases hf : s.fault with
  | some f => simp [haltedFault, hf] at h
  | none =>
    simp only [haltedFault, hf] at h
    obtain ⟨j, hm, ⟨i, hb, ha⟩ | hb | ⟨f, hb⟩⟩ := boundary_cases s <;> rw [hb] at h
    · exact ⟨rfl, j, hm, .inl ⟨i, h, ha⟩⟩
    · exact ⟨rfl, j, hm, .inr (.inl (Host.Outcome.next.inj h).symm)⟩
    · exact ⟨rfl, j, hm, .inr (.inr ⟨f, (Host.Outcome.next.inj h).symm⟩)⟩

end Sys2Proof.Machine
end

