-- ==== Sys2Proof/Laws/Playback.lean ====
section
/-! SUPPORT. The Playback Engine (R141 to R145): when a refill and a START complete, the events they leave, and the bytes
a refill copies. -/

namespace Sys2Proof.Machine

variable {W W' : Nat → Prop} {s t u : State}

/-- Bus work does not depend on the Device State. -/
theorem Bus.setDev (h : Bus W s t) (d : Device) : Bus W (s.setDev d) (t.setDev d) :=
  ⟨⟨h.keeps.cfg, rfl, h.keeps.initialized, h.keeps.dead, h.keeps.coprocEnabled, h.keeps.regEnable,
    h.keeps.regIntrClear, h.keeps.port, h.keeps.turns, h.keeps.sink, h.keeps.irq, h.keeps.irq_quiet⟩, h.active, h.sh_wf,
    h.sh, h.host, h.sh_inside, h.moves, h.events⟩

/-- Bus work on either side of an update of the Device State. -/
theorem Bus.trans_setDev {d d' : Device} (h : Bus W (s.setDev d) t) (h' : Bus W (t.setDev d') u) :
    Bus W (s.setDev d') u := (h.setDev d').trans h'

/-- The copies of a refill complete where its addresses fit (R144). -/
theorem refillCopy_ok {p : Precision} {c : Channels} {b o q : Nat} (h : RefillFits s.cfg p c b o q) :
    ∃ t, refillCopy p c b o q s = .ok () t := by
  have hh := h.host_inside
  rw [refillCopy_def]
  split
  · have hl := h.left_inside
    have hr := h.right_inside rfl
    simp only [refillBytes] at hl hr
    obtain ⟨t, ht⟩ := writeDeint16_ok (src := q) h.left_aligned (h.even rfl rfl) hl fun k hk => by omega
    have hb := writeDeint16_onBus (s.cfg.leftBase + o) q (b / 2) s
    rw [ht] at hb
    rw [ht, Exit.bind_ok, hb.1.keeps.cfg]
    exact writeDeint16_ok (h.right_aligned rfl) (h.even rfl rfl) (by rw [hb.1.keeps.cfg]; exact hr)
      fun k hk => by simp only [rightPointer16_eq]; omega
  · have hl := h.left_inside
    have hr := h.right_inside rfl
    simp only [refillBytes] at hl hr
    obtain ⟨t, ht⟩ := writeDeint8_ok (src := q) h.left_aligned hl fun k hk => by omega
    have hb := writeDeint8_onBus (s.cfg.leftBase + o) q (b / 2) s
    rw [ht] at hb
    rw [ht, Exit.bind_ok, hb.1.keeps.cfg]
    exact writeDeint8_ok (h.right_aligned rfl) (by rw [hb.1.keeps.cfg]; exact hr)
      fun k hk => by simp only [rightPointer8_eq]; omega
  · have hl := h.left_inside
    simp only [refillBytes] at hl
    exact writeBlockFrom_ok (src := .host q) h.left_aligned hl hh

/-- A refill completes where its fields are set and its addresses fit (R144). -/
theorem refill_ok {p : Precision} {c : Channels} {b o q bs be : Word} (h : RefillReads s.dev p c b o q bs be)
    (hf : RefillFits s.cfg p c b.toNat o.toNat q.toNat) :
    ∃ u, refill s = .ok () (u.setDev (s.dev.refilled c b o q bs be)) ∧ refillCopy p c b.toNat o.toNat q.toNat s = .ok () u ∧
      Bus (refillSpan s.cfg p c b.toNat o.toNat) s u ∧ u.fault = s.fault ∧ u.result = s.result := by
  obtain ⟨u, hu⟩ := refillCopy_ok hf
  have hb := refillCopy_onBus p c b.toNat o.toNat q.toNat s
  rw [hu] at hb
  exact ⟨u, by rw [refill_eq h, hu, Exit.bind_ok, hb.1.keeps.dev], hu, hb.1, hb.2⟩

/-! ### The addresses of START's two refills -/

/-- What a REFILL that goes on has done, from fields that are known (R144). -/
theorem refill_bus {p : Precision} {c : Channels} {b o q bs be : Word} (h : RefillReads s.dev p c b o q bs be)
    (he : refill s = .ok () t) : ∃ u, refillCopy p c b.toNat o.toNat q.toNat s = .ok () u ∧
      t = u.setDev (s.dev.refilled c b o q bs be) ∧ Bus (refillSpan s.cfg p c b.toNat o.toNat) s u ∧ u.fault = s.fault := by
  rw [refill_eq h] at he
  obtain ⟨_, u, hu, he⟩ := Exit.bind_eq_ok.mp he
  have hb := refillCopy_onBus p c b.toNat o.toNat q.toNat s
  rw [hu] at hb
  refine ⟨u, hu, ?_, hb.1, hb.2.1⟩
  simp only [Exit.ok.injEq, true_and] at he
  rw [← he, hb.1.keeps.dev]

/-- A REFILL from fields that are known, if it raises a fault, has done bus work and nothing else (R144, R200). -/
theorem refill_raised {p : Precision} {c : Channels} {b o q bs be : Word} (h : RefillReads s.dev p c b o q bs be)
    (he : refill s = .raised t) : refillCopy p c b.toNat o.toNat q.toNat s = .raised t := by
  rw [refill_eq h] at he
  rcases Exit.bind_eq_raised.mp he with he | ⟨_, u, -, he⟩
  · exact he
  · cases he

theorem halfSize_toNat (b : Word) (c : Channels) : (word (halfSize b c)).toNat = halfSize b c := by
  have := b.isLt
  have : halfSize b c ≤ b.toNat := Nat.div_le_self _ _
  simp only [word, BitVec.toNat_ofNat]
  exact Nat.mod_eq_of_lt (by omega)

/-- Under R236's constraint a refill stores exactly a half (R142, R145). -/
theorem refillBytes_eq {p : Precision} {c : Channels} {b : Word} (h : b.toNat % (4 * c.toNat) = 0) :
    refillBytes p c b.toNat = halfSize b c := by
  cases c <;> cases p <;>
    simp only [refillBytes, halfSize, Channels.toNat_mono, Channels.toNat_stereo, deint16Bytes, deint8Bytes, blockBytes, wordsFor_eq] at h ⊢ <;> omega

/-- A refill at either half fits under START's constraints (R142, R236). -/
theorem StartFits.refillFits {cfg : Params} {p : Precision} {c : Channels} {bs be b sink : Word} {o q : Nat}
    (hv : cfg.Valid) (h : StartFits cfg c bs be b sink) (ho : o = 0 ∨ o = halfSize b c)
    (hq : q + b.toNat ≤ 2 ^ 32) : RefillFits cfg p c b.toNat o q := by
  have hs := h.size
  have hl := h.left_inside
  have hb := refillBytes_eq (p := p) hs
  have hm : halfSize b c % 4 = 0 := by
    cases c <;> simp only [halfSize, Channels.toNat_mono, Channels.toNat_stereo] at hs ⊢ <;> omega
  have h1 := hv.left_aligned4
  have h2 := hv.right_aligned4
  refine ⟨by rcases ho with rfl | rfl <;> omega, by rw [hb]; rcases ho with rfl | rfl <;> omega,
    fun _ => by rcases ho with rfl | rfl <;> omega, fun hc => ?_, fun hc hp => ?_, hq⟩
  · have hr := h.right_inside hc
    rw [hb]; rcases ho with rfl | rfl <;> omega
  · subst hc; simp only [Channels.toNat_stereo] at hs; omega

theorem refillSpan_halves {cfg : Params} {p : Precision} {c : Channels} {b : Word} {o a : Nat}
    (h : b.toNat % (4 * c.toNat) = 0) (ho : o = 0 ∨ o = halfSize b c) (ha : refillSpan cfg p c b.toNat o a) :
    halvesSpan cfg c b a := by
  unfold refillSpan halvesSpan at *
  rw [refillBytes_eq h] at ha
  unfold span at *
  rcases ho with rfl | rfl <;> rcases ha with ha | ⟨hc, ha⟩
  · left; omega
  · right; exact ⟨hc, by omega, by omega⟩
  · left; omega
  · right; exact ⟨hc, by omega, by omega⟩

/-- The cursor after two refills of a buffer of whole blocks (R151). -/
theorem nextCursor_nextCursor {bs be b : Word} (h0 : 0 < b.toNat) (h1 : bs.toNat < be.toNat)
    (h2 : (be.toNat - bs.toNat) % b.toNat = 0) :
    nextCursor bs be (nextCursor bs be bs b) b = word (bs.toNat + 2 * b.toNat % (be.toNat - bs.toNat)) := by
  have hl := be.isLt
  obtain ⟨k, hk⟩ : ∃ k, be.toNat - bs.toNat = b.toNat * k := (Nat.dvd_of_mod_eq_zero h2)
  have hk0 : 0 < k := Nat.pos_of_ne_zero fun h => by subst h; omega
  rw [hk]
  have hw : word bs.toNat = bs := by simp [word]
  by_cases k1 : k = 1
  · subst k1
    have : nextCursor bs be bs b = bs := by unfold nextCursor; rw [if_pos (by omega)]
    rw [this, this, Nat.mul_one, Nat.mul_mod_left, Nat.add_zero, hw]
  · have hb : b.toNat * 2 ≤ b.toNat * k := Nat.mul_le_mul_left _ (by omega)
    have e1 : nextCursor bs be bs b = word (bs.toNat + b.toNat) := by unfold nextCursor; rw [if_neg (by omega)]
    have e2 : (word (bs.toNat + b.toNat)).toNat = bs.toNat + b.toNat := by simp [word]; omega
    rw [e1]
    unfold nextCursor
    rw [e2]
    by_cases k2 : k = 2
    · subst k2
      rw [if_pos (by omega), show 2 * b.toNat = b.toNat * 2 by omega, Nat.mod_self, Nat.add_zero, hw]
    · have : b.toNat * 3 ≤ b.toNat * k := Nat.mul_le_mul_left _ (by omega)
      rw [if_neg (by omega), Nat.mod_eq_of_lt (by omega)]
      congr 1; omega

theorem nextHalf_nextHalf (o b : Word) (c : Channels) : nextHalf (nextHalf o b c) b c = o := by
  simp [nextHalf]

/-- The host addresses of START's two refills fit. -/
theorem nextCursor_fits {bs be b : Word} (h0 : 0 < b.toNat) (h1 : bs.toNat < be.toNat)
    (h2 : (be.toNat - bs.toNat) % b.toNat = 0) : (nextCursor bs be bs b).toNat + b.toNat ≤ 2 ^ 32 := by
  have hl := be.isLt
  have : b.toNat ≤ be.toNat - bs.toNat := Nat.le_of_dvd (by omega) (Nat.dvd_of_mod_eq_zero h2)
  unfold nextCursor
  split
  · omega
  · rename_i h
    have : (word (bs.toNat + b.toNat)).toNat = bs.toNat + b.toNat := by simp [word]; omega
    rw [this]
    obtain ⟨k, hk⟩ : ∃ k, be.toNat - bs.toNat = b.toNat * k := (Nat.dvd_of_mod_eq_zero h2)
    have : k ≠ 0 ∧ k ≠ 1 := ⟨fun h => by subst h; omega, fun h => by subst h; omega⟩
    have : b.toNat * 2 ≤ b.toNat * k := Nat.mul_le_mul_left _ (by omega)
    omega

/-! ### START -/

/-- The PLAY parameters complete (R141, R143): their events but for the polls, and the slots they leave. -/
theorem playParams_ok {b r : Word} {c : Channels} {p : Precision} (hv : s.cfg.Valid) :
    ∃ g1 g2 g3 g4 t, playParams b c r p s = .ok () t ∧
      t.events.filter Event.notPoll =
        [.shWrite s.cfg.offPrecision (word p.toNat) g4, .gate g4, .shWrite s.cfg.offRate r g3, .gate g3,
          .shWrite s.cfg.offChannel (word c.toNat) g2, .gate g2,
          .shWrite s.cfg.offBlocksize (word (halfSize b c)) g1, .gate g1] ++ s.events.filter Event.notPoll ∧
      (s.sh.wf = true → NoTimeout t → CoprocNoWrite (playSpan s.cfg) s →
        t.sh.getWord s.cfg.offBlocksize = word (halfSize b c) ∧ t.sh.getWord s.cfg.offChannel = word c.toNat ∧
          t.sh.getWord s.cfg.offRate = r ∧ t.sh.getWord s.cfg.offPrecision = word p.toNat) := by
  have hd := hv.slots_disjoint4
  simp only [Params.slots, List.pairwise_cons, List.mem_cons, forall_eq_or_imp] at hd
  obtain ⟨-, -, -, -, ⟨d1, d2, d3, -⟩, ⟨d4, d5, -⟩, ⟨d6, -⟩, -⟩ := hd
  obtain ⟨a1, i1⟩ := slot_ok hv (o := s.cfg.offBlocksize) (by simp [Params.slots])
  obtain ⟨a2, i2⟩ := slot_ok hv (o := s.cfg.offChannel) (by simp [Params.slots])
  obtain ⟨a3, i3⟩ := slot_ok hv (o := s.cfg.offRate) (by simp [Params.slots])
  obtain ⟨a4, i4⟩ := slot_ok hv (o := s.cfg.offPrecision) (by simp [Params.slots])
  obtain ⟨g1, t1, h1, e1, n1, v1⟩ := writeWaited_ok (v := word (halfSize b c)) a1 i1
  have b1 := writeWaited_onBus s.cfg.offBlocksize (word (halfSize b c)) (s := s)
  rw [h1] at b1
  have c1 := b1.1.keeps.cfg
  obtain ⟨g2, t2, h2, e2, n2, v2⟩ := writeWaited_ok (s := t1) (v := word c.toNat) a2 (by rw [c1]; exact i2)
  have b2 := writeWaited_onBus s.cfg.offChannel (word c.toNat) (s := t1)
  rw [h2] at b2
  have c2 := b2.1.keeps.cfg.trans c1
  obtain ⟨g3, t3, h3, e3, n3, v3⟩ := writeWaited_ok (s := t2) (v := r) a3 (by rw [c2]; exact i3)
  have b3 := writeWaited_onBus s.cfg.offRate r (s := t2)
  rw [h3] at b3
  have c3 := b3.1.keeps.cfg.trans c2
  obtain ⟨g4, t4, h4, e4, n4, v4⟩ := writeWaited_ok (s := t3) (v := word p.toNat) a4 (by rw [c3]; exact i4)
  have b4 := writeWaited_onBus s.cfg.offPrecision (word p.toNat) (s := t3)
  rw [h4] at b4
  refine ⟨g1, g2, g3, g4, t4, ?_, ?_, fun hw hn hq => ?_⟩
  · simp only [playParams, h1, Exit.bind_ok, c1, h2, c2, h3, c3, h4]
  · rw [e4, e3, e2, e1]; rfl
  · have w1 := b1.1.sh_wf hw
    have w2 := b2.1.sh_wf w1
    have w3 := b3.1.sh_wf w2
    have q1 : CoprocNoWrite (playSpan s.cfg) t1 := hq.of_bus b1.1
    have q2 : CoprocNoWrite (playSpan s.cfg) t2 := q1.of_bus b2.1
    have q3 : CoprocNoWrite (playSpan s.cfg) t3 := q2.of_bus b3.1
    have m3 := b4.1.noTimeout hn
    have m2 := b3.1.noTimeout m3
    refine ⟨?_, ?_, ?_, v4 (n4 hn) w3⟩
    · rw [(b4.1.sh w3).getWord (fun a h h' => by unfold span at h h'; omega) (q3.mono fun _ => .inl),
        (b3.1.sh w2).getWord (fun a h h' => by unfold span at h h'; omega) (q2.mono fun _ => .inl),
        (b2.1.sh w1).getWord (fun a h h' => by unfold span at h h'; omega) (q1.mono fun _ => .inl)]
      exact v1 (n1 (b2.1.noTimeout m2)) hw
    · rw [(b4.1.sh w3).getWord (fun a h h' => by unfold span at h h'; omega) (q3.mono fun _ h => .inr (.inl h)),
        (b3.1.sh w2).getWord (fun a h h' => by unfold span at h h'; omega) (q2.mono fun _ h => .inr (.inl h))]
      exact v2 (n2 m2) w1
    · rw [(b4.1.sh w3).getWord (fun a h h' => by unfold span at h h'; omega) (q3.mono fun _ h => .inr (.inr (.inl h)))]
      exact v3 (n3 m3) w2

/-- What START does between its checks and its last update: the two refills from the bounds it stored, the PLAY
parameters and the PLAY command, in the state s in which the bounds are stored. -/
def startWork (b : Word) (c : Channels) (r : Word) (p : Precision) (s : State) : Exit Unit :=
  (refill s).bind fun _ s =>
  (refill s).bind fun _ s =>
  (playParams b c r p s).bind fun _ s => sendCommand s.cfg.cmdPlay s

/-- A START whose checks pass (R141). -/
theorem start_eq {p : Precision} {c : Channels} {r bs be b sink arg : Word} (h0 : s.dev.callback = some 0)
    (hp : s.dev.precision = some p) (hc : s.dev.channels = some c) (hr : s.dev.rate = some r) (hs : sink ≠ 0)
    (hl : bufferLegal bs be b c = true) : start bs be b sink arg s =
      (startWork b c r p (s.setDev (s.dev.bounded bs be b))).bind fun _ t =>
        .ok () (t.setDev { t.dev with callback := some sink, callbackArg := some arg }) := by
  unfold start startWork
  rw [readField_bind h0, require_bind (by simp [isPlaying]), readField_bind hp, readField_bind hc, readField_bind hr,
    require_bind (by simpa using hs), require_bind hl]
  simp only [Exit.bind_assoc]
  rfl

/-- What a START that goes on has found and done (R141). -/
theorem start_eq_ok {bs be b sink arg : Word} (he : start bs be b sink arg s = .ok () t) :
    s.dev.callback = some 0 ∧ sink ≠ 0 ∧ ∃ p c r, s.dev.precision = some p ∧ s.dev.channels = some c ∧
      s.dev.rate = some r ∧ bufferLegal bs be b c = true ∧
      ∃ u, startWork b c r p (s.setDev (s.dev.bounded bs be b)) = .ok () u ∧
        t = u.setDev { u.dev with callback := some sink, callbackArg := some arg } := by
  have he' := he
  unfold start at he'
  obtain ⟨cb, _, h, he'⟩ := Exit.bind_eq_ok.mp he'
  obtain ⟨hcb, rfl⟩ := readField_eq_ok.mp h
  obtain ⟨_, _, h, he'⟩ := Exit.bind_eq_ok.mp he'
  obtain ⟨hpl, rfl⟩ := require_eq_ok.mp h
  obtain ⟨p, _, h, he'⟩ := Exit.bind_eq_ok.mp he'
  obtain ⟨hp, rfl⟩ := readField_eq_ok.mp h
  obtain ⟨c, _, h, he'⟩ := Exit.bind_eq_ok.mp he'
  obtain ⟨hc, rfl⟩ := readField_eq_ok.mp h
  obtain ⟨r, _, h, he'⟩ := Exit.bind_eq_ok.mp he'
  obtain ⟨hr, rfl⟩ := readField_eq_ok.mp h
  obtain ⟨_, _, h, he'⟩ := Exit.bind_eq_ok.mp he'
  obtain ⟨hs, rfl⟩ := require_eq_ok.mp h
  obtain ⟨_, _, h, he'⟩ := Exit.bind_eq_ok.mp he'
  obtain ⟨hl, rfl⟩ := require_eq_ok.mp h
  have hcb0 : cb = 0 := by simpa [isPlaying] using hpl
  have hs' : sink ≠ 0 := by simpa using hs
  subst hcb0
  refine ⟨hcb, hs', p, c, r, hp, hc, hr, hl, ?_⟩
  rw [start_eq hcb hp hc hr hs' hl] at he
  obtain ⟨_, u, h, he⟩ := Exit.bind_eq_ok.mp he
  simp only [Exit.ok.injEq, true_and] at he
  exact ⟨u, h, he.symm⟩

/-- The parts of START's work that goes on (R141). -/
theorem startWork_eq_ok {b r bs be : Word} {c : Channels} {p : Precision} (hd : RefillReads s.dev p c b 0 bs bs be)
    (he : startWork b c r p s = .ok () t) : ∃ t1 t2 t3, refill s = .ok () t1 ∧ refill t1 = .ok () t2 ∧
      playParams b c r p t2 = .ok () t3 ∧ sendCommand t3.cfg.cmdPlay t3 = .ok () t ∧
      RefillReads t1.dev p c b (nextHalf 0 b c) (nextCursor bs be bs b) bs be := by
  unfold startWork at he
  obtain ⟨_, t1, h1, he⟩ := Exit.bind_eq_ok.mp he
  obtain ⟨_, t2, h2, he⟩ := Exit.bind_eq_ok.mp he
  obtain ⟨_, t3, h3, h4⟩ := Exit.bind_eq_ok.mp he
  obtain ⟨u, -, rfl, -⟩ := refill_bus hd h1
  exact ⟨_, t2, t3, h1, h2, h3, h4, hd.precision, hd.channels, hd.blockSize, rfl, rfl, hd.bufferStart, hd.bufferEnd⟩

end Sys2Proof.Machine
end

