-- ==== Sys2Proof/Laws/History.lean ====
section
/-! SUPPORT. What the history says of an operation: how many shared-memory words the writers and a refill write, that every
word they write is guarded by a wait (R102, R103), and that the position counts the events (R21). -/

namespace Sys2Proof.Machine

variable {α β : Type} {s t u : State} {m n d : Nat}

/-! ### How many words -/

/-- How many shared-memory words a history has seen written. -/
def shWords (h : List Event) : Nat := (h.filter Event.isShWrite).length

theorem shWords_cons (e : Event) (h : List Event) : shWords (e :: h) = shWords h + if e.isShWrite then 1 else 0 := by
  unfold shWords
  cases he : e.isShWrite <;> simp [he]

theorem shWords_append (h h' : List Event) : shWords (h ++ h') = shWords h + shWords h' := by simp [shWords]

/-- A piece of an operation that goes on writes n words. -/
def Exit.Adds (n : Nat) (s : State) : Exit α → Prop
  | .ok _ t => shWords t.events = shWords s.events + n
  | .raised _ => True

theorem Exit.Adds.bind {x : Exit α} {k : α → State → Exit β} (hx : x.Adds m s)
    (hk : ∀ a t, x = .ok a t → (k a t).Adds n t) : (x.bind k).Adds (m + n) s := by
  cases x with
  | raised t => trivial
  | ok a t =>
    have hk := hk a t rfl
    show Exit.Adds _ _ (k a t)
    cases h : k a t with
    | raised u => trivial
    | ok b u =>
      rw [h] at hk
      have h1 : shWords t.events = shWords s.events + m := hx
      have h2 : shWords u.events = shWords t.events + n := hk
      show shWords u.events = _
      omega

theorem raise_adds (f : BlockFault) : (raise f s : Exit α).Adds n s := trivial

theorem require_adds (c : Bool) (f : BlockFault) : (require c f s).Adds 0 s := by cases c <;> trivial

theorem readField_adds (name : Field) (v : Option α) : (readField name v s).Adds 0 s := by cases v <;> trivial

theorem memReadHost_adds (addr k : Nat) : (memReadHost addr k s).Adds 0 s := by
  cases h : memReadHost addr k s with
  | raised t => trivial
  | ok b t =>
    obtain ⟨-, -, rfl⟩ := memReadHost_eq_ok h
    show shWords _ = _
    rw [State.emit_events, envTick_events, shWords_cons]; rfl

theorem memWriteSh_adds (off : Nat) (v : Word) : (memWriteSh off v s).Adds 1 s := by
  cases h : memWriteSh off v s with
  | raised t => trivial
  | ok b t =>
    obtain ⟨-, -, g, -, rfl⟩ := memWriteSh_eq_ok h
    show shWords _ = _
    rw [landWord_events, envTick_events, shWords_cons]; rfl

theorem waitReady_shWords (s : State) : shWords (waitReady s).events = shWords s.events := by
  obtain ⟨-, -, -, g, polls, hg, he, -⟩ := waitLoop_spec (W := fun _ => False) s.cfg.waitLimit s
  have : shWords (polls.map Event.poll) = 0 := by simp [shWords, Event.isShWrite]
  rw [waitReady, he, shWords_cons, shWords_append, this]
  simp [Event.isShWrite]

theorem readSamples_adds (w k : Nat) (n : Nat) : ∀ (addr : Nat) (s : State), (readSamples w k n addr s).Adds 0 s := by
  induction n with
  | zero => exact fun _ _ => rfl
  | succ n ih => exact fun addr s => (memReadHost_adds _ _).bind (n := 0) fun b t _ =>
      (ih _ t).bind (n := 0) (k := fun bs u => .ok (b ++ bs) u) fun _ _ _ => rfl

theorem writeWords_adds (n : Nat) : ∀ (dest : Nat) (l : List Byte) (s : State), (writeWords n dest l s).Adds n s := by
  induction n with
  | zero => exact fun _ _ _ => rfl
  | succ n ih =>
    intro dest l s
    rw [show (writeWords (n + 1) dest l s).Adds (n + 1) s = (writeWords (n + 1) dest l s).Adds (1 + n) s by
      rw [Nat.add_comm n 1]]
    exact (memWriteSh_adds dest _).bind fun _ t _ => ih _ _ t

/-- A chunk writes its words. -/
theorem chunk_adds (w k r nw dest src : Nat) (pad : State → List Byte × Inputs) (s : State) :
    (chunk w k r nw dest src pad s).Adds nw s := by
  rw [show (chunk w k r nw dest src pad s).Adds nw s = (chunk w k r nw dest src pad s).Adds (0 + nw) s by rw [Nat.zero_add]]
  refine (readSamples_adds _ _ _ _ _).bind fun b t _ => ?_
  have h := writeWords_adds nw dest (b ++ (pad t).1) (waitReady (t.setInp (pad t).2))
  unfold Exit.Adds at h ⊢
  rw [waitReady_shWords] at h
  exact h

theorem writeChunk16_adds (r dest src : Nat) (s : State) : (writeChunk16 r dest src s).Adds ((r + 1) / 2) s :=
  writeChunk16_eq r dest src s ▸ chunk_adds ..

theorem writeChunk8_adds (r dest src : Nat) (s : State) : (writeChunk8 r dest src s).Adds (r / 4) s :=
  writeChunk8_eq r dest src s ▸ chunk_adds ..

theorem fullChunks16_adds (n : Nat) : ∀ (dest src : Nat) (s : State), (fullChunks16 n dest src s).Adds (8 * n) s := by
  induction n with
  | zero => exact fun _ _ _ => rfl
  | succ n ih =>
    intro dest src s
    rw [show 8 * (n + 1) = 8 + 8 * n by omega]
    exact (writeChunk16_adds 16 _ _ _).bind fun _ t _ => ih _ _ t

theorem fullChunks8_adds (n : Nat) : ∀ (dest src : Nat) (s : State), (fullChunks8 n dest src s).Adds (8 * n) s := by
  induction n with
  | zero => exact fun _ _ _ => rfl
  | succ n ih =>
    intro dest src s
    rw [show 8 * (n + 1) = 8 + 8 * n by omega]
    exact (writeChunk8_adds 32 _ _ _).bind fun _ t _ => ih _ _ t

/-- WRITE_DEINT16 writes ceil(len / 4) words (R59, R115). -/
theorem writeDeint16_adds (offset src len : Nat) (s : State) :
    (writeDeint16 offset src len s).Adds ((len / 2 + 1) / 2) s := by
  by_cases ha : offset % 4 = 0
  · by_cases hl : len % 2 = 0
    · rw [writeDeint16_eq ha hl]
      rw [show (len / 2 + 1) / 2 = 8 * (len / 2 / 16) + (len / 2 % 16 + 1) / 2 by omega]
      refine (fullChunks16_adds _ _ _ _).bind fun _ t _ => ?_
      split
      · show _ = _; simp [*]
      · exact writeChunk16_adds _ _ _ _
    · rw [writeDeint16_odd ha hl]; trivial
  · rw [writeDeint16_misaligned ha]; trivial

/-- WRITE_DEINT8 writes floor(len / 4) words (R59, R120). -/
theorem writeDeint8_adds (offset src len : Nat) (s : State) : (writeDeint8 offset src len s).Adds (len / 4) s := by
  by_cases ha : offset % 4 = 0
  · rw [writeDeint8_eq ha]
    rw [show len / 4 = 8 * (len / 32) + len % 32 / 4 by omega]
    refine (fullChunks8_adds _ _ _ _).bind fun _ t _ => ?_
    split
    · show _ = _; simp [*]
    · exact writeChunk8_adds _ _ _ _
  · rw [writeDeint8_misaligned ha]; trivial

theorem fetchBytes_adds (src : BlockSource) (k : Nat) : (fetchBytes src k s).Adds 0 s := by
  cases src with
  | host a => exact memReadHost_adds a k
  | seq b => exact rfl
  | zeros => exact rfl

theorem waitAtBurst_shWords (j : Nat) (s : State) : shWords (waitAtBurst j s).events = shWords s.events := by
  unfold waitAtBurst; split
  · exact waitReady_shWords s
  · rfl

theorem writeBlockLoop_adds (n : Nat) : ∀ (j dest len : Nat) (src : BlockSource) (s : State),
    (writeBlockLoop n j dest len src s).Adds n s := by
  induction n with
  | zero => exact fun _ _ _ _ _ => rfl
  | succ n ih =>
    intro j dest len src s
    have hw : (writeBlockWord dest len src (waitAtBurst j s)).Adds (0 + 1) (waitAtBurst j s) :=
      (fetchBytes_adds src _).bind fun b t _ => memWriteSh_adds (s := t.setInp (t.inp.drawBytes _).2) dest _
    have h := hw.bind (n := n) (k := fun _ s => writeBlockLoop n (j + 1) (dest + 4) (len - 4) src.next s)
      fun _ t _ => ih _ _ _ _ t
    unfold Exit.Adds at h ⊢
    rw [waitAtBurst_shWords] at h
    rw [show n + 1 = 0 + 1 + n by omega, show 0 + 1 + n = n + 1 by omega, writeBlockLoop]
    rw [show 0 + 1 + n = n + 1 by omega] at h
    exact h

/-- WRITE_BLOCK writes ceil(len / 4) words (R59, R110). -/
theorem writeBlockFrom_adds (offset len : Nat) (src : BlockSource) (s : State) :
    (writeBlockFrom offset len src s).Adds (wordsFor len) s := by
  rw [← Nat.zero_add (wordsFor len)]
  refine (require_adds _ _).bind fun _ t h => ?_
  obtain ⟨-, rfl⟩ := require_eq_ok.mp h
  exact writeBlockLoop_adds _ _ _ _ _ s

/-- A refill whose halves hold whole words writes a quarter of the block's bytes as words (R145). -/
theorem refillCopy_adds {p : Precision} {c : Channels} {b o q : Nat} (h : b % (4 * c.toNat) = 0) :
    (refillCopy p c b o q s).Adds (b / 4) s := by
  rw [refillCopy_def]
  split <;> simp only [Channels.toNat_mono, Channels.toNat_stereo] at h
  · rw [show b / 4 = (b / 2 / 2 + 1) / 2 + (b / 2 / 2 + 1) / 2 by omega]
    exact (writeDeint16_adds _ _ _ s).bind fun _ t _ => writeDeint16_adds _ _ _ t
  · rw [show b / 4 = b / 2 / 4 + b / 2 / 4 by omega]
    exact (writeDeint8_adds _ _ _ s).bind fun _ t _ => writeDeint8_adds _ _ _ t
  · rw [show b / 4 = wordsFor b by rw [wordsFor_eq]; omega]
    exact writeBlockFrom_adds _ _ _ s

/-! ### Guarded bursts -/

/-- Inside a burst: the history is guarded, and the next word would be word k of a burst whose wait gave g. -/
structure InBurst (d : Nat) (g : Bool) (k : Nat) (s : State) : Prop where
  guarded : BurstsGuarded d s.events
  guard : guardOf s.events = some (g, k)
  gate : s.gateOk = some g

theorem BurstsGuarded.cons {h : List Event} {e : Event} (hg : BurstsGuarded d h)
    (he : ∀ off v x, e = .shWrite off v x → ∃ k, guardOf h = some (x, k) ∧ k < d) : BurstsGuarded d (e :: h) := by
  intro newer off v x older heq
  cases newer with
  | nil => simp only [List.nil_append, List.cons.injEq] at heq; obtain ⟨rfl, rfl⟩ := heq; exact he _ _ _ rfl
  | cons y newer => simp only [List.cons_append, List.cons.injEq] at heq; exact hg _ _ _ _ _ heq.2

theorem BurstsGuarded.append {h : List Event} (hg : BurstsGuarded d h) (es : List Event)
    (he : ∀ e ∈ es, e.isShWrite = false) : BurstsGuarded d (es ++ h) := by
  induction es with
  | nil => exact hg
  | cons e es ih =>
    refine (ih fun e h => he e (List.mem_cons_of_mem _ h)).cons fun off v x hx => ?_
    have := he e List.mem_cons_self
    rw [hx] at this; cases this

/-- What a wait leaves (R103). -/
theorem waitReady_inBurst (h : BurstsGuarded d s.events) : ∃ g, InBurst d g 0 (waitReady s) := by
  obtain ⟨-, -, -, g, polls, hg, he, -⟩ := waitLoop_spec (W := fun _ => False) s.cfg.waitLimit s
  refine ⟨g, ?_, ?_, hg⟩
  · show BurstsGuarded d (waitReady s).events
    rw [waitReady, he, ← List.cons_append]
    exact h.append _ fun e hm => by
      rcases List.mem_cons.mp hm with rfl | hm
      · rfl
      · obtain ⟨v, -, rfl⟩ := List.mem_map.mp hm; rfl
  · rw [waitReady, he]; rfl

/-- A piece of an operation ends in a state with the property P, or faults with a guarded history. -/
def Exit.To (d : Nat) (P : State → Prop) : Exit α → Prop
  | .ok _ t => P t
  | .raised t => BurstsGuarded d t.events

theorem Exit.To.bind {P Q : State → Prop} {x : Exit α} {k : α → State → Exit β} (hx : x.To d P)
    (hk : ∀ a t, x = .ok a t → P t → (k a t).To d Q) : (x.bind k).To d Q := by
  cases x with
  | ok a t => exact hk a t rfl hx
  | raised t => exact hx

theorem Exit.To.mono {P Q : State → Prop} {x : Exit α} (hx : x.To d P) (h : ∀ t, P t → Q t) : x.To d Q := by
  cases x with
  | ok a t => exact h t hx
  | raised t => exact hx

theorem raise_to {P : State → Prop} (f : BlockFault) (h : BurstsGuarded d s.events) : (raise f s : Exit α).To d P :=
  BurstsGuarded.cons ((envTick_events s).symm ▸ h) (by simp)

theorem require_to {c : Bool} {f : BlockFault} (h : BurstsGuarded d s.events) : (require c f s).To d (· = s) := by
  cases c with
  | true => exact rfl
  | false => exact raise_to f h

theorem memWriteSh_to {off : Nat} {v : Word} {g : Bool} {k : Nat} (h : InBurst d g k s) (hk : k < d) :
    (memWriteSh off v s).To d (InBurst d g (k + 1)) := by
  unfold memWriteSh
  refine (require_to h.guarded).bind fun _ t _ ht => ?_
  subst ht
  refine (require_to h.guarded).bind fun _ t _ ht => ?_
  subst ht
  rw [readField_bind h.gate]
  refine ⟨?_, ?_, ?_⟩
  · rw [landWord_events, envTick_events]
    exact h.guarded.cons fun off' v' x hx => by cases hx; exact ⟨k, h.guard, hk⟩
  · rw [landWord_events, envTick_events]
    simp [guardOf, h.guard]
  · simpa using h.gate

theorem writeWords_to {g : Bool} (n : Nat) : ∀ {k dest : Nat} {l : List Byte} {s : State}, InBurst d g k s → k + n ≤ d →
    (writeWords n dest l s).To d (InBurst d g (k + n)) := by
  induction n with
  | zero => exact fun h _ => h
  | succ n ih =>
    intro k dest l s h hk
    refine (memWriteSh_to h (by omega)).bind fun _ t _ ht => ?_
    rw [show k + (n + 1) = k + 1 + n by omega]
    exact ih ht (by omega)

theorem memReadHost_to {addr k : Nat} (h : BurstsGuarded d s.events) :
    (memReadHost addr k s).To d fun t => BurstsGuarded d t.events ∧ guardOf t.events = guardOf s.events ∧ t.gateOk = s.gateOk := by
  refine (require_to h).bind fun _ t _ ht => ?_
  subst ht
  refine ⟨?_, ?_, ?_⟩
  · rw [State.emit_events, envTick_events]
    exact h.cons (by simp)
  · rw [State.emit_events, envTick_events]; rfl
  · simp

theorem memReadSh_to {off : Nat} (h : BurstsGuarded d s.events) :
    (memReadSh off s).To d fun t => BurstsGuarded d t.events := by
  refine (require_to h).bind fun _ t _ ht => ?_
  subst ht
  refine (require_to h).bind fun _ t _ ht => ?_
  subst ht
  show BurstsGuarded d (State.emit _ _).events
  rw [State.emit_events, envTick_events]
  exact h.cons (by simp)

theorem readSamples_to (w k n : Nat) : ∀ {addr : Nat} {s : State}, BurstsGuarded d s.events →
    (readSamples w k n addr s).To d fun t => BurstsGuarded d t.events := by
  induction n with
  | zero => exact fun h => h
  | succ n ih => exact fun h => (memReadHost_to h).bind fun _ t _ ht => (ih ht.1).bind fun _ u _ hu => hu

/-- The words of a chunk lie in one burst, which its wait guards. -/
theorem chunk_to {w k r nw dest src : Nat} {pad : State → List Byte × Inputs} (h : BurstsGuarded d s.events) (hn : nw ≤ d) :
    (chunk w k r nw dest src pad s).To d fun t => BurstsGuarded d t.events := by
  refine (readSamples_to _ _ _ h).bind fun b t _ ht => ?_
  obtain ⟨g, hg⟩ := waitReady_inBurst (s := t.setInp (pad t).2) (d := d) ht
  exact (writeWords_to _ hg (by omega)).mono fun _ h => h.guarded

theorem writeChunk16_to {r dest src : Nat} (h : BurstsGuarded d s.events) (hr : r ≤ 16) (hd : 8 ≤ d) :
    (writeChunk16 r dest src s).To d fun t => BurstsGuarded d t.events :=
  writeChunk16_eq r dest src s ▸ chunk_to h (by omega)

theorem writeChunk8_to {r dest src : Nat} (h : BurstsGuarded d s.events) (hr : r ≤ 32) (hd : 8 ≤ d) :
    (writeChunk8 r dest src s).To d fun t => BurstsGuarded d t.events :=
  writeChunk8_eq r dest src s ▸ chunk_to h (by omega)

theorem fullChunks16_to (hd : 8 ≤ d) (n : Nat) : ∀ {dest src : Nat} {s : State}, BurstsGuarded d s.events →
    (fullChunks16 n dest src s).To d fun t => BurstsGuarded d t.events := by
  induction n with
  | zero => exact fun h => h
  | succ n ih => exact fun h => (writeChunk16_to (r := 16) h le_rfl hd).bind fun _ t _ ht => ih ht

theorem fullChunks8_to (hd : 8 ≤ d) (n : Nat) : ∀ {dest src : Nat} {s : State}, BurstsGuarded d s.events →
    (fullChunks8 n dest src s).To d fun t => BurstsGuarded d t.events := by
  induction n with
  | zero => exact fun h => h
  | succ n ih => exact fun h => (writeChunk8_to (r := 32) h le_rfl hd).bind fun _ t _ ht => ih ht

theorem writeDeint16_to {offset src len : Nat} (hd : 8 ≤ d) (h : BurstsGuarded d s.events) :
    (writeDeint16 offset src len s).To d fun t => BurstsGuarded d t.events := by
  by_cases ha : offset % 4 = 0
  · by_cases hl : len % 2 = 0
    · rw [writeDeint16_eq ha hl]
      refine (fullChunks16_to hd _ h).bind fun _ t _ ht => ?_
      split
      · exact ht
      · exact writeChunk16_to ht (by omega) hd
    · rw [writeDeint16_odd ha hl]; exact raise_to _ h
  · rw [writeDeint16_misaligned ha]; exact raise_to _ h

theorem writeDeint8_to {offset src len : Nat} (hd : 8 ≤ d) (h : BurstsGuarded d s.events) :
    (writeDeint8 offset src len s).To d fun t => BurstsGuarded d t.events := by
  by_cases ha : offset % 4 = 0
  · rw [writeDeint8_eq ha]
    refine (fullChunks8_to hd _ h).bind fun _ t _ ht => ?_
    split
    · exact ht
    · exact writeChunk8_to ht (by omega) hd
  · rw [writeDeint8_misaligned ha]; exact raise_to _ h

theorem writeWaited_to {off : Nat} {v : Word} (hd : 8 ≤ d) (h : BurstsGuarded d s.events) :
    (writeWaited off v s).To d fun t => BurstsGuarded d t.events := by
  obtain ⟨g, hg⟩ := waitReady_inBurst h
  exact (memWriteSh_to hg (by omega)).mono fun _ h => h.guarded

theorem writeBlockWord_to {dest len k : Nat} {src : BlockSource} {g : Bool} (h : InBurst d g k s) (hk : k < d) :
    (writeBlockWord dest len src s).To d (InBurst d g (k + 1)) := by
  have hf : (fetchBytes src (min 4 len) s).To d (InBurst d g k) := by
    cases src with
    | host a => exact (memReadHost_to h.guarded).mono fun t ht => ⟨ht.1, ht.2.1.trans h.guard, ht.2.2.trans h.gate⟩
    | seq b => exact h
    | zeros => exact h
  exact hf.bind fun b t _ ht => memWriteSh_to (s := t.setInp _) ⟨ht.guarded, ht.guard, ht.gate⟩ hk

theorem writeBlockLoop_to (w : Nat) (hw : 1 ≤ w) (hd : w ≤ d) (n : Nat) : ∀ {j dest len : Nat} {src : BlockSource}
    {s : State}, s.cfg.wbBurstWords = w → BurstsGuarded d s.events → (j % w = 0 ∨ ∃ g, InBurst d g (j % w) s) →
    (writeBlockLoop n j dest len src s).To d fun t => BurstsGuarded d t.events := by
  induction n with
  | zero => exact fun _ h _ => h
  | succ n ih =>
    intro j dest len src s hc h hj
    have hb := waitAtBurst_bus (W := fun _ => False) j s
    obtain ⟨g, hg⟩ : ∃ g, InBurst d g (j % w) (waitAtBurst j s) := by
      unfold waitAtBurst
      rw [hc]
      split
      · rename_i h0; rw [h0]; exact waitReady_inBurst h
      · exact hj.resolve_left ‹_›
    have hlt : j % w < w := Nat.mod_lt _ (by omega)
    refine (writeBlockWord_to hg (by omega)).bind fun _ t ht htb => ?_
    have hbt := writeBlockWord_onBus dest len src (s := waitAtBurst j s)
    rw [ht] at hbt
    refine ih (by rw [hbt.1.keeps.cfg, hb.keeps.cfg, hc]) htb.guarded ?_
    by_cases h1 : j % w + 1 = w
    · exact .inl (by rw [Nat.add_mod]; rcases Nat.lt_or_ge 1 w with h2 | h2
                     · rw [Nat.mod_eq_of_lt h2, h1, Nat.mod_self]
                     · have : w = 1 := by omega
                       subst this; exact Nat.mod_one _)
    · refine .inr ⟨g, ?_⟩
      have : (j + 1) % w = j % w + 1 := by
        rw [Nat.add_mod, Nat.mod_eq_of_lt (show 1 < w by omega), Nat.mod_eq_of_lt (by omega)]
      rw [this]; exact htb

theorem writeBlockFrom_to {offset len : Nat} {src : BlockSource} (hw : 1 ≤ s.cfg.wbBurstWords)
    (hd : s.cfg.wbBurstWords ≤ d) (h : BurstsGuarded d s.events) :
    (writeBlockFrom offset len src s).To d fun t => BurstsGuarded d t.events := by
  refine (require_to h).bind fun _ t _ ht => ?_
  subst ht
  exact writeBlockLoop_to _ hw hd _ rfl h (.inl (Nat.zero_mod _))

/-- The parameters stay, and a history whose bursts are guarded stays so. -/
def KeepsGuard (s t : State) : Prop := t.cfg = s.cfg ∧ (8 ≤ s.cfg.fifoDepthWords → 1 ≤ s.cfg.wbBurstWords →
  s.cfg.wbBurstWords ≤ s.cfg.fifoDepthWords → BurstsGuarded s.cfg.fifoDepthWords s.events →
    BurstsGuarded s.cfg.fifoDepthWords t.events)

theorem Exit.To.keepsGuard {W : Nat → Prop} {x : Exit α} (hb : x.OnBus W s)
    (h : 8 ≤ s.cfg.fifoDepthWords → 1 ≤ s.cfg.wbBurstWords → s.cfg.wbBurstWords ≤ s.cfg.fifoDepthWords →
      BurstsGuarded s.cfg.fifoDepthWords s.events → x.To s.cfg.fifoDepthWords fun t => BurstsGuarded s.cfg.fifoDepthWords t.events) :
    x.Rel KeepsGuard s := by
  cases x with
  | ok a t => exact ⟨⟨hb.1.keeps.cfg, h⟩, hb.2⟩
  | raised t => exact ⟨⟨hb.1.keeps.cfg, h⟩, hb.2⟩

/-- Guarded bursts stay guarded across every shared operation. -/
theorem keepsGuard_closed : Closed KeepsGuard where
  refl s := ⟨rfl, fun _ _ _ h => h⟩
  trans {s t u} h _ h' := ⟨h'.1.trans h.1, fun a b c g => by
    have := h'.2
    rw [h.1] at this
    exact this a b c (h.2 a b c g)⟩
  fault s f := ⟨rfl, fun _ _ _ h => h.cons (by simp)⟩
  tick s := ⟨by simp, fun _ _ _ h => by rw [envTick_events]; exact h⟩
  inp s i _ := ⟨rfl, fun _ _ _ h => h⟩
  wait s := ⟨(waitReady_bus (W := fun _ => False) s).keeps.cfg, fun _ _ _ h => (waitReady_inBurst h).choose_spec.guarded⟩
  waited s off v := Exit.To.keepsGuard (writeWaited_onBus off v) fun a _ _ h => writeWaited_to a h
  readSh s off := Exit.To.keepsGuard (memReadSh_onBus (W := fun _ => False) off) fun _ _ _ h => memReadSh_to h
  block s off len src := Exit.To.keepsGuard (writeBlockFrom_onBus off len src s) fun _ b c h => writeBlockFrom_to b c h
  deint16 s off src len := Exit.To.keepsGuard (writeDeint16_onBus off src len s) fun a _ _ h => writeDeint16_to a h
  deint8 s off src len := Exit.To.keepsGuard (writeDeint8_onBus off src len s) fun a _ _ h => writeDeint8_to a h

/-! ### The position -/

/-- From s to t the history grew, and the position by as many events (R21). -/
def Advances (s t : State) : Prop := ∃ es, t.events = es ++ s.events ∧ t.position = s.position + es.length

theorem Advances.refl (s : State) : Advances s s := ⟨[], rfl, rfl⟩

theorem Advances.trans (h : Advances s t) (h' : Advances t u) : Advances s u := by
  obtain ⟨es, he, hp⟩ := h
  obtain ⟨es', he', hp'⟩ := h'
  exact ⟨es' ++ es, by rw [he', he, List.append_assoc], by rw [hp', hp, List.length_append]; omega⟩

theorem Advances.tick (s : State) : Advances s s.envTick := ⟨[], by simp, by simp⟩

theorem Advances.emit (s : State) (e : Event) : Advances s (s.emit e) := ⟨[e], rfl, rfl⟩

/-- A piece of an operation advances, to its end or to the fault it raises. -/
def Exit.Advancing (s : State) : Exit α → Prop
  | .ok _ t => Advances s t
  | .raised t => ∃ u f, Advances s u ∧ t = u.recordFault f

theorem Exit.Advancing.after {x : Exit α} (h : Advances s t) (hx : x.Advancing t) : x.Advancing s := by
  cases x with
  | ok a u => exact h.trans hx
  | raised u => obtain ⟨v, f, hv, rfl⟩ := hx; exact ⟨v, f, h.trans hv, rfl⟩

theorem Exit.Advancing.bind {x : Exit α} {k : α → State → Exit β} (hx : x.Advancing s)
    (hk : ∀ a t, x = .ok a t → (k a t).Advancing t) : (x.bind k).Advancing s := by
  cases x with
  | ok a t => exact .after hx (hk a t rfl)
  | raised t => exact hx

theorem raise_advancing (f : BlockFault) : (raise f s : Exit α).Advancing s := ⟨_, f, .tick s, rfl⟩

theorem require_advancing (c : Bool) (f : BlockFault) : (require c f s).Advancing s := by
  cases c with
  | true => exact .refl s
  | false => exact raise_advancing f

theorem readField_advancing (n : Field) (v : Option α) : (readField n v s).Advancing s := by
  cases v with
  | some a => exact .refl s
  | none => exact raise_advancing _

theorem landWord_advances (off : Nat) (v : Word) (g : Bool) : Advances s (landWord off v g s) := by
  cases g <;> exact ⟨[_], rfl, rfl⟩

theorem memWriteSh_advancing (off : Nat) (v : Word) : (memWriteSh off v s).Advancing s :=
  (require_advancing _ _).bind fun _ _ _ => (require_advancing _ _).bind fun _ _ _ =>
    (readField_advancing _ _).bind fun _ t _ => (Advances.tick t).trans (landWord_advances _ _ _)

theorem memReadSh_advancing (off : Nat) : (memReadSh off s).Advancing s :=
  (require_advancing _ _).bind fun _ _ _ => (require_advancing _ _).bind fun _ t _ => (Advances.tick t).trans (.emit _ _)

theorem memReadHost_advancing (addr n : Nat) : (memReadHost addr n s).Advancing s :=
  (require_advancing _ _).bind fun _ t _ => (Advances.tick t).trans (.emit _ _)

theorem gateResult_advances (g : Bool) (s : State) : Advances s (gateResult g s) :=
  (Advances.tick s).trans ⟨[.gate g], rfl, rfl⟩

theorem waitLoop_advances (n : Nat) : ∀ s : State, Advances s (waitLoop n s) := by
  induction n with
  | zero => exact gateResult_advances false
  | succ n ih =>
    intro s
    have h : Advances s (pollStatus s).2 := (Advances.tick s).trans ⟨[.poll _], rfl, rfl⟩
    rw [waitLoop]
    split
    · exact h.trans (gateResult_advances true _)
    · exact h.trans (ih _)

theorem writeWaited_advancing (off : Nat) (v : Word) : (writeWaited off v s).Advancing s :=
  .after (waitLoop_advances _ s) (memWriteSh_advancing off v)

theorem readSamples_advancing (w d n : Nat) : ∀ (addr : Nat) (s : State), (readSamples w d n addr s).Advancing s := by
  induction n with
  | zero => exact fun _ s => .refl s
  | succ n ih => exact fun addr s => (memReadHost_advancing _ _).bind fun _ t _ => (ih _ t).bind fun _ u _ => .refl u

theorem writeWords_advancing (n : Nat) : ∀ (dest : Nat) (l : List Byte) (s : State), (writeWords n dest l s).Advancing s := by
  induction n with
  | zero => exact fun _ _ s => .refl s
  | succ n ih => exact fun dest l s => (memWriteSh_advancing dest _).bind fun _ t _ => ih _ _ t

theorem chunk_advancing {w k r nw dest src : Nat} {pad : State → List Byte × Inputs} :
    (chunk w k r nw dest src pad s).Advancing s :=
  (readSamples_advancing _ _ _ _ _).bind fun _ t _ =>
    .after (t := waitReady (t.setInp (pad t).2)) (Advances.trans ⟨[], rfl, rfl⟩ (waitLoop_advances _ _)) (writeWords_advancing _ _ _ _)

theorem fullChunks16_advancing (n : Nat) : ∀ (dest src : Nat) (s : State), (fullChunks16 n dest src s).Advancing s := by
  induction n with
  | zero => exact fun _ _ s => .refl s
  | succ n ih => exact fun dest src s => (writeChunk16_eq _ _ _ s ▸ chunk_advancing).bind fun _ t _ => ih _ _ t

theorem fullChunks8_advancing (n : Nat) : ∀ (dest src : Nat) (s : State), (fullChunks8 n dest src s).Advancing s := by
  induction n with
  | zero => exact fun _ _ s => .refl s
  | succ n ih => exact fun dest src s => (writeChunk8_eq _ _ _ s ▸ chunk_advancing).bind fun _ t _ => ih _ _ t

theorem writeDeint16_advancing (offset src len : Nat) (s : State) : (writeDeint16 offset src len s).Advancing s := by
  refine (require_advancing _ _).bind fun _ _ _ => (require_advancing _ _).bind fun _ _ _ =>
    (fullChunks16_advancing _ _ _ _).bind fun _ t _ => ?_
  split
  · exact .refl t
  · exact writeChunk16_eq _ _ _ t ▸ chunk_advancing

theorem writeDeint8_advancing (offset src len : Nat) (s : State) : (writeDeint8 offset src len s).Advancing s := by
  refine (require_advancing _ _).bind fun _ _ _ => (fullChunks8_advancing _ _ _ _).bind fun _ t _ => ?_
  split
  · exact .refl t
  · exact writeChunk8_eq _ _ _ t ▸ chunk_advancing

theorem writeBlockWord_advancing (dest len : Nat) (src : BlockSource) : (writeBlockWord dest len src s).Advancing s := by
  have hf : (fetchBytes src (min 4 len) s).Advancing s := by
    cases src with
    | host a => exact memReadHost_advancing _ _
    | seq b => exact .refl s
    | zeros => exact .refl s
  exact hf.bind fun _ t _ => .after (t := t.setInp _) ⟨[], rfl, rfl⟩ (memWriteSh_advancing _ _)

theorem writeBlockLoop_advancing (n : Nat) : ∀ (j dest len : Nat) (src : BlockSource) (s : State),
    (writeBlockLoop n j dest len src s).Advancing s := by
  induction n with
  | zero => exact fun _ _ _ _ s => .refl s
  | succ n ih =>
    intro j dest len src s
    have hw : Advances s (waitAtBurst j s) := by
      unfold waitAtBurst; split
      · exact waitLoop_advances _ s
      · exact .refl s
    exact .after hw ((writeBlockWord_advancing _ _ _).bind fun _ t _ => ih _ _ _ _ t)

theorem writeBlockFrom_advancing (offset len : Nat) (src : BlockSource) (s : State) :
    (writeBlockFrom offset len src s).Advancing s :=
  (require_advancing _ _).bind fun _ _ _ => writeBlockLoop_advancing _ _ _ _ _ _

/-- From a state without a fault: an advance, or an advance and a fault. -/
def AdvancesOrFaults (s t : State) : Prop := s.fault = none →
  (t.fault = none ∧ Advances s t) ∨ ∃ u f, Advances s u ∧ t = u.recordFault f

theorem Exit.Advancing.rel {W : Nat → Prop} {x : Exit α} (hb : x.OnBus W s) (h : x.Advancing s) :
    x.Rel AdvancesOrFaults s := by
  cases x with
  | ok a t => exact ⟨fun hf => .inl ⟨hb.2.1.trans hf, h⟩, hb.2⟩
  | raised t => exact ⟨fun _ => .inr h, hb.2⟩

/-- Every shared operation advances, or advances and faults. -/
theorem advances_closed : Closed AdvancesOrFaults where
  refl s hf := .inl ⟨hf, .refl s⟩
  trans {s t u} h hst h' hf := by
    rcases h hf with ⟨ht, ha⟩ | ⟨v, f, -, rfl⟩
    · rcases h' ht with ⟨hu, ha'⟩ | ⟨v, f, hv, rfl⟩
      · exact .inl ⟨hu, ha.trans ha'⟩
      · exact .inr ⟨v, f, ha.trans hv, rfl⟩
    · rw [hf] at hst; cases hst
  fault s f _ := .inr ⟨s, f, .refl s, rfl⟩
  tick s hf := .inl ⟨(envTick_fault s).trans hf, .tick s⟩
  inp s i _ hf := .inl ⟨hf, [], rfl, rfl⟩
  wait s hf := .inl ⟨by simpa using hf, waitLoop_advances _ s⟩
  waited _ off v := (writeWaited_advancing off v).rel (writeWaited_onBus off v)
  readSh _ off := (memReadSh_advancing off).rel (memReadSh_onBus (W := fun _ => False) off)
  block s off len src := (writeBlockFrom_advancing off len src s).rel (writeBlockFrom_onBus off len src s)
  deint16 s off src len := (writeDeint16_advancing off src len s).rel (writeDeint16_onBus off src len s)
  deint8 s off src len := (writeDeint8_advancing off src len s).rel (writeDeint8_onBus off src len s)

end Sys2Proof.Machine
end

