-- ==== Sys2Proof/Laws/Layout.lean ====
section
/-! SUPPORT. Which words a piece of an operation writes, each of them (R110, R115, R120), and what a refill
leaves in the halves (R145). -/

namespace Sys2Proof.Machine

variable {α β : Type} {P Q : Nat → Prop} {s t u : State}

/-! ### Each word is written -/

/-- The offsets of the n words from dest on. -/
def wordsFrom (dest n off : Nat) : Prop := ∃ k, k < n ∧ off = dest + 4 * k

/-- A piece of an operation that goes on writes each word whose offset meets P. -/
def Exit.Writes (P : Nat → Prop) (s : State) : Exit α → Prop
  | .ok _ t => ∃ es, t.events = es ++ s.events ∧ ∀ off, P off → ∃ v g, Event.shWrite off v g ∈ es
  | .raised _ => True

theorem Exit.Writes.mono {x : Exit α} (h : x.Writes P s) (hq : ∀ off, Q off → P off) : x.Writes Q s := by
  cases x with
  | raised t => trivial
  | ok a t => obtain ⟨es, he, hp⟩ := h; exact ⟨es, he, fun off ho => hp off (hq off ho)⟩

/-- Two pieces in a row. -/
theorem Exit.Writes.bind {x : Exit α} {k : α → State → Exit β} (hx : x.Writes P s)
    (hk : ∀ a t, x = .ok a t → (k a t).Writes Q t) : (x.bind k).Writes (fun off => P off ∨ Q off) s := by
  cases x with
  | raised t => trivial
  | ok a t =>
    have hk := hk a t rfl
    show Exit.Writes _ _ (k a t)
    cases h : k a t with
    | raised u => trivial
    | ok b u =>
      rw [h] at hk
      obtain ⟨es, he, hp⟩ := hx
      obtain ⟨es', he', hp'⟩ := hk
      refine ⟨es' ++ es, by rw [he', he, List.append_assoc], fun off ho => ?_⟩
      rcases ho with ho | ho
      · obtain ⟨v, g, hm⟩ := hp off ho; exact ⟨v, g, List.mem_append_right _ hm⟩
      · obtain ⟨v, g, hm⟩ := hp' off ho; exact ⟨v, g, List.mem_append_left _ hm⟩

/-- After a piece that says nothing of what it wrote. -/
theorem Exit.Writes.after {W : Nat → Prop} {x : Exit α} {k : α → State → Exit β} (hx : x.OnBus W s)
    (hk : ∀ a t, x = .ok a t → (k a t).Writes P t) : (x.bind k).Writes P s := by
  have h : x.Writes (fun _ => False) s := by
    cases x with
    | raised t => trivial
    | ok a t => obtain ⟨es, he, -⟩ := hx.1.events; exact ⟨es, he, fun _ h => h.elim⟩
  exact (h.bind hk).mono fun _ => .inr

/-- After bus work. -/
theorem Exit.Writes.of_bus {W : Nat → Prop} {x : Exit α} (h : Bus W s t) (hx : x.Writes P t) : x.Writes P s := by
  cases x with
  | raised u => trivial
  | ok a u =>
    obtain ⟨es, he, -⟩ := h.events
    obtain ⟨es', he', hp⟩ := hx
    exact ⟨es' ++ es, by rw [he', he, List.append_assoc],
      fun off ho => let ⟨v, g, hm⟩ := hp off ho; ⟨v, g, List.mem_append_left _ hm⟩⟩

theorem memWriteSh_writes (off : Nat) (v : Word) : (memWriteSh off v s).Writes (· = off) s := by
  cases h : memWriteSh off v s with
  | raised t => trivial
  | ok b t =>
    obtain ⟨-, -, g, -, rfl⟩ := memWriteSh_eq_ok h
    refine ⟨[.shWrite off v g], by rw [landWord_events, envTick_events]; rfl, fun o ho => ⟨v, g, ?_⟩⟩
    rw [ho]; exact List.mem_cons_self

/-- The first of n + 1 words, or one of the n after it. -/
theorem wordsFrom_succ {dest n off : Nat} (h : wordsFrom dest (n + 1) off) : off = dest ∨ wordsFrom (dest + 4) n off := by
  obtain ⟨k, hk, rfl⟩ := h
  cases k with
  | zero => exact .inl rfl
  | succ k => exact .inr ⟨k, by omega, by omega⟩

theorem writeWords_writes (n : Nat) : ∀ (dest : Nat) (l : List Byte) (s : State),
    (writeWords n dest l s).Writes (wordsFrom dest n) s := by
  induction n with
  | zero => exact fun _ _ _ => ⟨[], rfl, fun _ h => absurd h.choose_spec.1 (Nat.not_lt_zero _)⟩
  | succ n ih =>
    intro dest l s
    rw [writeWords_succ]
    exact ((memWriteSh_writes _ _).bind fun _ t _ => ih _ _ t).mono fun _ => wordsFrom_succ

theorem chunk_writes {w d r nw dest src : Nat} {pad : State → List Byte × Inputs} (hp : ∀ s, SameScript s.inp (pad s).2) :
    (chunk w d r nw dest src pad s).Writes (wordsFrom dest nw) s :=
  .after (readSamples_onBus (W := fun _ => False) w d r src s) fun _ t _ =>
    .of_bus ((Bus.setInp (W := fun _ => False) (hp t)).trans (waitReady_bus _)) (writeWords_writes _ _ _ _)

/-- One of m + n words is one of the first m or of the n after them. -/
theorem wordsFrom_add {dest m n off : Nat} (h : wordsFrom dest (m + n) off) :
    wordsFrom dest m off ∨ wordsFrom (dest + 4 * m) n off := by
  obtain ⟨k, hk, rfl⟩ := h
  by_cases hm : k < m
  · exact .inl ⟨k, hm, rfl⟩
  · exact .inr ⟨k - m, by omega, by omega⟩

theorem fullChunks16_writes (n : Nat) : ∀ (dest src : Nat) (s : State),
    (fullChunks16 n dest src s).Writes (wordsFrom dest (8 * n)) s := by
  induction n with
  | zero => exact fun _ _ _ => ⟨[], rfl, fun _ h => absurd h.choose_spec.1 (Nat.not_lt_zero _)⟩
  | succ n ih =>
    intro dest src s
    rw [fullChunks16_succ, writeChunk16_eq]
    refine ((chunk_writes (drawBytes_pad _)).bind fun _ t _ => ih _ _ t).mono fun off h => ?_
    rw [show 8 * (n + 1) = 8 + 8 * n by omega] at h
    exact wordsFrom_add h

theorem fullChunks8_writes (n : Nat) : ∀ (dest src : Nat) (s : State),
    (fullChunks8 n dest src s).Writes (wordsFrom dest (8 * n)) s := by
  induction n with
  | zero => exact fun _ _ _ => ⟨[], rfl, fun _ h => absurd h.choose_spec.1 (Nat.not_lt_zero _)⟩
  | succ n ih =>
    intro dest src s
    rw [fullChunks8_succ, writeChunk8_eq]
    refine ((chunk_writes noPad).bind fun _ t _ => ih _ _ t).mono fun off h => ?_
    rw [show 8 * (n + 1) = 8 + 8 * n by omega] at h
    exact wordsFrom_add h

/-- WRITE_DEINT16 writes each of its ceil(len / 4) words (R115). -/
theorem writeDeint16_writes (offset src len : Nat) (s : State) :
    (writeDeint16 offset src len s).Writes (wordsFrom offset ((len / 2 + 1) / 2)) s := by
  by_cases ha : offset % 4 = 0
  · by_cases hl : len % 2 = 0
    · rw [writeDeint16_eq ha hl]
      refine ((fullChunks16_writes _ _ _ _).bind (Q := wordsFrom (offset + 4 * (8 * (len / 2 / 16))) ((len / 2 % 16 + 1) / 2))
        fun _ t _ => ?_).mono fun off h => wordsFrom_add ?_
      · split
        · rename_i h0
          exact ⟨[], rfl, fun _ h => by obtain ⟨k, hk, -⟩ := h; omega⟩
        · rw [writeChunk16_eq, show 4 * (8 * (len / 2 / 16)) = 32 * (len / 2 / 16) by omega]
          exact chunk_writes (drawBytes_pad _)
      · rwa [show 8 * (len / 2 / 16) + (len / 2 % 16 + 1) / 2 = (len / 2 + 1) / 2 by omega]
    · rw [writeDeint16_odd ha hl]; trivial
  · rw [writeDeint16_misaligned ha]; trivial

/-- WRITE_DEINT8 writes each of its floor(len / 4) words (R120). -/
theorem writeDeint8_writes (offset src len : Nat) (s : State) :
    (writeDeint8 offset src len s).Writes (wordsFrom offset (len / 4)) s := by
  by_cases ha : offset % 4 = 0
  · rw [writeDeint8_eq ha]
    refine ((fullChunks8_writes _ _ _ _).bind (Q := wordsFrom (offset + 4 * (8 * (len / 32))) (len % 32 / 4))
      fun _ t _ => ?_).mono fun off h => wordsFrom_add ?_
    · split
      · rename_i h0
        exact ⟨[], rfl, fun _ h => by obtain ⟨k, hk, -⟩ := h; omega⟩
      · rw [writeChunk8_eq, show 4 * (8 * (len / 32)) = 32 * (len / 32) by omega]
        exact chunk_writes noPad
    · rwa [show 8 * (len / 32) + len % 32 / 4 = len / 4 by omega]
  · rw [writeDeint8_misaligned ha]; trivial

theorem writeBlockWord_writes (dest len : Nat) (src : BlockSource) : (writeBlockWord dest len src s).Writes (· = dest) s := by
  rw [writeBlockWord_eq]
  exact .after (fetchBytes_onBus (W := fun _ => False) _ _) fun _ t _ =>
    .of_bus (Bus.setInp (W := fun _ => False) (drawBytes_sameScript _ _)) (memWriteSh_writes _ _)

theorem writeBlockLoop_writes (n : Nat) : ∀ (j dest len : Nat) (src : BlockSource) (s : State),
    (writeBlockLoop n j dest len src s).Writes (wordsFrom dest n) s := by
  induction n with
  | zero => exact fun _ _ _ _ _ => ⟨[], rfl, fun _ h => absurd h.choose_spec.1 (Nat.not_lt_zero _)⟩
  | succ n ih =>
    intro j dest len src s
    rw [writeBlockLoop_succ]
    exact .of_bus (waitAtBurst_bus (W := fun _ => False) j s)
      (((writeBlockWord_writes _ _ _).bind fun _ t _ => ih _ _ _ _ t).mono fun _ => wordsFrom_succ)

/-- WRITE_BLOCK writes each of its ceil(len / 4) words (R110). -/
theorem writeBlockFrom_writes (offset len : Nat) (src : BlockSource) (s : State) :
    (writeBlockFrom offset len src s).Writes (wordsFrom offset (wordsFor len)) s := by
  refine .after (require_onBus (W := fun _ => False) _ _) fun _ t h => ?_
  obtain ⟨-, rfl⟩ := require_eq_ok.mp h
  exact writeBlockLoop_writes _ _ _ _ _ s

/-- A refill writes each word of the half it fills, in each region in use (R142, R145). -/
theorem refillCopy_writes {p : Precision} {c : Channels} {b : Word} {o q : Nat} (h : b.toNat % (4 * c.toNat) = 0) :
    (refillCopy p c b.toNat o q s).Writes (fun off => wordsFrom (s.cfg.leftBase + o) (halfSize b c / 4) off ∨
      (c = .stereo ∧ wordsFrom (s.cfg.rightBase + o) (halfSize b c / 4) off)) s := by
  rw [refillCopy_def]
  split <;> simp only [Channels.toNat_mono, Channels.toNat_stereo] at h <;> simp only [halfSize, Channels.toNat_mono, Channels.toNat_stereo]
  · refine ((writeDeint16_writes _ _ _ s).bind (Q := wordsFrom (s.cfg.rightBase + o) (b.toNat / 2 / 4))
      fun _ t ht => ?_).mono fun off ho => ?_
    · have hb := writeDeint16_onBus (s.cfg.leftBase + o) q (b.toNat / 2) s
      rw [ht] at hb
      rw [hb.1.keeps.cfg, show b.toNat / 2 / 4 = (b.toNat / 2 / 2 + 1) / 2 by omega]
      exact writeDeint16_writes _ _ _ t
    · rw [show (b.toNat / 2 / 2 + 1) / 2 = b.toNat / 2 / 4 by omega]
      tauto
  · refine ((writeDeint8_writes _ _ _ s).bind (Q := wordsFrom (s.cfg.rightBase + o) (b.toNat / 2 / 4))
      fun _ t ht => ?_).mono fun off ho => ?_
    · have hb := writeDeint8_onBus (s.cfg.leftBase + o) q (b.toNat / 2) s
      rw [ht] at hb
      rw [hb.1.keeps.cfg]
      exact writeDeint8_writes _ _ _ t
    · tauto
  · refine (writeBlockFrom_writes _ _ _ s).mono fun off ho => ?_
    rcases ho with ho | ⟨hc, -⟩
    · rwa [wordsFor_eq, show (b.toNat + 3) / 4 = b.toNat / 1 / 4 by omega]
    · cases hc

/-! ### What a refill leaves -/

/-- A block copy from host memory that goes on has read inside the host's address space (R57). -/
theorem writeBlockLoop_host (n : Nat) : ∀ {j dest len addr : Nat} {s : State}, n = wordsFor len →
    writeBlockLoop n j dest len (.host addr) s = .ok () t → len = 0 ∨ addr + len ≤ 2 ^ 32 := by
  induction n with
  | zero => intro j dest len addr s hn _; rw [wordsFor_eq] at hn; omega
  | succ n ih =>
    intro j dest len addr s hn he
    rw [wordsFor_eq] at hn
    rw [writeBlockLoop_succ, writeBlockWord_eq] at he
    obtain ⟨_, u, hw, he⟩ := Exit.bind_eq_ok.mp he
    obtain ⟨b, v, hf, -⟩ := Exit.bind_eq_ok.mp hw
    have := (memReadHost_eq_ok hf).1
    have := ih (by rw [wordsFor_eq]; omega) (BlockSource.next_host addr ▸ he)
    omega

/-- The bytes a refill leaves when no wait timed out and they are left alone (R145, R89, R90). -/
theorem refillCopy_holds {p : Precision} {c : Channels} {b o q : Nat} (he : refillCopy p c b o q s = .ok () t)
    (hn : NoTimeout t) (hs : s.sh.wf = true) (hq : CoprocNoWrite (refillSpan s.cfg p c b o) s) (hov : ∀ a, span (s.cfg.leftBase + o) (refillBytes p c b) a → c = .stereo →
      ¬ span (s.cfg.rightBase + o) (refillBytes p c b) a) : HoldsBlock s.cfg p c b o q s.host t.sh := by
  rw [refillCopy_def] at he
  unfold refillSpan at hq
  split at he
  · refine ⟨fun _ _ k j hk hj => ?_, fun _ h => (by cases h), fun h => (by cases h)⟩
    simp only [refillBytes, deint16Bytes] at hq hov
    obtain ⟨_, w, e1, e2⟩ := Exit.bind_eq_ok.mp he
    have b1 := writeDeint16_onBus (s.cfg.leftBase + o) q (b / 2) s
    rw [e1] at b1
    have b2 := writeDeint16_onBus (w.cfg.rightBase + o) (rightPointer16 q) (b / 2) w
    rw [e2] at b2
    rw [b1.1.keeps.cfg] at e2 b2
    rw [rightPointer16_eq] at e2
    have l := writeDeint16_copies e1 (b2.1.noTimeout hn) hs (k := k) (j := j) (by omega) hj
      (hq _ (.inl (by unfold span; omega)))
    have r := writeDeint16_copies e2 hn (b1.1.sh_wf hs) (k := k) (j := j) (by omega) hj
      fun h => hq _ (.inr ⟨by trivial, by unfold span; omega⟩) (.of_suffix b1.1.moves h)
    rw [b1.1.host] at r
    refine ⟨?_, r⟩
    rw [b2.1.sh (b1.1.sh_wf hs) _ (fun h => hov _ (by unfold span; omega) (by trivial) h)
      fun h => hq _ (.inl (by unfold span; omega)) (.of_suffix b1.1.moves h), l]
  · refine ⟨fun _ h => (by cases h), fun _ _ k hk => ?_, fun h => (by cases h)⟩
    simp only [refillBytes, deint8Bytes] at hq hov
    obtain ⟨_, w, e1, e2⟩ := Exit.bind_eq_ok.mp he
    have b1 := writeDeint8_onBus (s.cfg.leftBase + o) q (b / 2) s
    rw [e1] at b1
    have b2 := writeDeint8_onBus (w.cfg.rightBase + o) (rightPointer8 q) (b / 2) w
    rw [e2] at b2
    rw [b1.1.keeps.cfg] at e2 b2
    rw [rightPointer8_eq] at e2
    have l := writeDeint8_copies e1 (b2.1.noTimeout hn) hs (k := k) (by unfold deint8Bytes; omega)
      (hq _ (.inl (by unfold span; omega)))
    have r := writeDeint8_copies e2 hn (b1.1.sh_wf hs) (k := k) (by unfold deint8Bytes; omega)
      fun h => hq _ (.inr ⟨by trivial, by unfold span; omega⟩) (.of_suffix b1.1.moves h)
    rw [b1.1.host] at r
    refine ⟨?_, r⟩
    rw [b2.1.sh (b1.1.sh_wf hs) _ (fun h => hov _ (by unfold span; omega) (by trivial) h)
      fun h => hq _ (.inl (by unfold span; omega)) (.of_suffix b1.1.moves h), l]
  · refine ⟨fun h => (by cases h), fun h => (by cases h), fun _ k hk => ?_⟩
    have hb : k < refillBytes p .mono b := by simp only [refillBytes, blockBytes, wordsFor_eq]; omega
    have he' := he
    unfold writeBlock writeBlockFrom at he'
    obtain ⟨_, u, h1, he'⟩ := Exit.bind_eq_ok.mp he'
    have hr := (writeBlockLoop_host _ rfl he').resolve_left (by omega)
    exact writeBlockFrom_copies (src := .host q) hr he hn hs hk
      (hq _ (.inl (by unfold span; omega)))

/-- A block stays where it is while the bytes of its half are left alone. -/
theorem HoldsBlock.keep {cfg : Params} {p : Precision} {c : Channels} {b o q : Nat} {host sh sh' : Memory}
    (h : HoldsBlock cfg p c b o q host sh) (hs : ∀ a, refillSpan cfg p c b o a → sh'.get a = sh.get a) :
    HoldsBlock cfg p c b o q host sh' := by
  unfold refillSpan at hs
  constructor
  · rintro rfl rfl k j hk hj
    simp only [refillBytes, deint16Bytes] at hs
    obtain ⟨l, r⟩ := h.stereo16 rfl rfl k j hk hj
    rw [hs _ (.inl (by unfold span; omega)), hs _ (.inr ⟨by trivial, by unfold span; omega⟩), l, r]
    exact ⟨rfl, rfl⟩
  · rintro rfl rfl k hk
    simp only [refillBytes, deint8Bytes] at hs
    obtain ⟨l, r⟩ := h.stereo8 rfl rfl k hk
    rw [hs _ (.inl (by unfold span; omega)), hs _ (.inr ⟨by trivial, by unfold span; omega⟩), l, r]
    exact ⟨rfl, rfl⟩
  · rintro rfl k hk
    rw [hs _ (.inl (by simp only [refillBytes, blockBytes, wordsFor_eq, span]; omega)), h.mono rfl k hk]

end Sys2Proof.Machine
end

