-- ==== Sys2Proof/Laws/Start.lean ====
section
/-! SUPPORT. START after its checks (R141): when it completes, its events but for the polls, what it stores,
and what its two refills leave in the halves. -/

namespace Sys2Proof.Machine

variable {W : Nat → Prop} {s t u : State}

/-- The events of bus work but for the polls: shared-memory words inside W, and how many of them. -/
theorem Bus.filtered (h : Bus W s t) : ∃ es, t.events.filter Event.notPoll = es ++ s.events.filter Event.notPoll ∧
    (∀ off v g, Event.shWrite off v g ∈ es → W off) ∧ shWords es + shWords s.events = shWords t.events ∧
    ∀ es', t.events = es' ++ s.events → ∀ off v g, Event.shWrite off v g ∈ es' → Event.shWrite off v g ∈ es := by
  obtain ⟨es, he, -, hi⟩ := h.events
  refine ⟨es.filter Event.notPoll, by rw [he, List.filter_append], fun off v g hm => ?_, ?_, fun es' he' off v g hm => ?_⟩
  · exact hi off v g (List.mem_of_mem_filter hm) off ⟨le_rfl, by omega⟩
  · have : shWords (es.filter Event.notPoll) = shWords es := by
      unfold shWords
      rw [List.filter_filter]
      congr 1
      apply List.filter_congr
      intro e _
      cases e <;> rfl
    rw [this, he, shWords_append]
  · rw [he] at he'
    rw [List.append_cancel_right he']
    exact List.mem_filter.mpr ⟨hm, rfl⟩

/-- The Device State after START's two refills (R151). -/
def Device.primed (d : Device) (bs be b : Word) : Device :=
  { d with
    bufferCursor := some (word (bs.toNat + 2 * b.toNat % (be.toNat - bs.toNat)))
    nextFillOffset := some 0 }

/-- The half after half 0 (R146). -/
theorem nextHalf_zero (b : Word) (c : Channels) : (nextHalf 0 b c).toNat = halfSize b c := by
  rw [nextHalf, show (0 : Word) ^^^ word (halfSize b c) = word (halfSize b c) from BitVec.zero_xor]
  exact halfSize_toNat b c

/-- Under R236's constraint a half is whole words. -/
theorem halfSize_aligned {c : Channels} {b : Word} (h : b.toNat % (4 * c.toNat) = 0) : halfSize b c % 4 = 0 := by
  cases c <;> simp only [halfSize, Channels.toNat_mono, Channels.toNat_stereo] at h ⊢ <;> omega

/-- An aligned offset in two halves of h bytes is a word of the one or of the other. -/
theorem wordsFrom_halves {base h off : Nat} (ha : h % 4 = 0) (ho : off % 4 = base % 4) (hs : span base (2 * h) off) :
    wordsFrom (base + 0) (h / 4) off ∨ wordsFrom (base + h) (h / 4) off := by
  unfold span at hs
  by_cases hb : off < base + h
  · exact .inl ⟨(off - base) / 4, by omega, by omega⟩
  · exact .inr ⟨(off - (base + h)) / 4, by omega, by omega⟩

/-- START's two refills complete (R141, R142), and write each word of the halves. -/
theorem primings_ok {p : Precision} {c : Channels} {bs be b sink : Word} (hv : s.cfg.Valid)
    (hr : RefillReads s.dev p c b 0 bs bs be) (hf : StartFits s.cfg c bs be b sink) :
    ∃ t u, refill s = .ok () t ∧ refill t = .ok () u ∧
      Bus (halvesSpan s.cfg c b) (s.setDev (s.dev.primed bs be b)) u ∧ u.fault = s.fault ∧ u.result = s.result ∧
      4 * shWords u.events = 4 * shWords s.events + 2 * b.toNat ∧
      ∃ es, u.events = es ++ s.events ∧ ∀ off, off % 4 = 0 → halvesSpan s.cfg c b off → ∃ v g, Event.shWrite off v g ∈ es := by
  have hl := be.isLt
  have hsize := hf.size
  have h4 : b.toNat % 4 = 0 := by
    obtain ⟨k, hk⟩ := Nat.dvd_of_mod_eq_zero hsize
    rw [hk, Nat.mul_assoc, Nat.mul_mod_right]
  have hle : b.toNat ≤ be.toNat - bs.toNat :=
    Nat.le_of_dvd (by have := hf.bounds; omega) (Nat.dvd_of_mod_eq_zero hf.whole)
  have f1 : RefillFits s.cfg p c b.toNat (0 : Word).toNat bs.toNat :=
    hf.refillFits hv (.inl rfl) (by have := hf.bounds; omega)
  obtain ⟨u1, e1, c1, b1, x1, y1⟩ := refill_ok hr f1
  have hr2 : RefillReads (u1.setDev (s.dev.refilled c b 0 bs bs be)).dev p c b (nextHalf 0 b c) (nextCursor bs be bs b) bs be :=
    ⟨hr.precision, hr.channels, hr.blockSize, rfl, rfl, hr.bufferStart, hr.bufferEnd⟩
  have ho := nextHalf_zero b c
  have f2 : RefillFits (u1.setDev (s.dev.refilled c b 0 bs bs be)).cfg p c b.toNat (nextHalf 0 b c).toNat
      (nextCursor bs be bs b).toNat := by
    rw [State.setDev_cfg, b1.keeps.cfg, ho]
    exact hf.refillFits hv (.inr rfl) (nextCursor_fits hf.pos hf.bounds hf.whole)
  obtain ⟨u2, e2, c2, b2, x2, y2⟩ := refill_ok hr2 f2
  have hd : (u1.setDev (s.dev.refilled c b 0 bs bs be)).dev.refilled c b (nextHalf 0 b c) (nextCursor bs be bs b) bs be =
      s.dev.primed bs be b := by
    simp only [State.setDev_dev, Device.refilled, nextHalf_nextHalf, nextCursor_nextCursor hf.pos hf.bounds hf.whole]
    rfl
  rw [hd] at e2
  have b1' := b1.mono fun a => refillSpan_halves hsize (.inl rfl)
  rw [State.setDev_cfg, b1.keeps.cfg, ho] at b2
  have b2' := b2.mono fun a => refillSpan_halves hsize (.inr rfl)
  refine ⟨_, _, e1, e2, ?_, by simp [x1, x2], by simp [y1, y2], ?_, ?_⟩
  · exact (b1'.setDev _).trans (b2'.setDev (s.dev.primed bs be b))
  · have a1 := refillCopy_adds (p := p) (o := (0 : Word).toNat) (q := bs.toNat) (s := s) hsize
    have a2 := refillCopy_adds (p := p) (o := (nextHalf 0 b c).toNat) (q := (nextCursor bs be bs b).toNat)
      (s := u1.setDev (s.dev.refilled c b 0 bs bs be)) hsize
    rw [c1] at a1
    rw [c2] at a2
    have a1 : shWords u1.events = shWords s.events + b.toNat / 4 := a1
    have a2 : shWords u2.events = shWords u1.events + b.toNat / 4 := a2
    show 4 * shWords u2.events = _
    omega
  · have a1 := refillCopy_writes (p := p) (o := (0 : Word).toNat) (q := bs.toNat) (s := s) hsize
    have a2 := refillCopy_writes (p := p) (o := (nextHalf 0 b c).toNat) (q := (nextCursor bs be bs b).toNat)
      (s := u1.setDev (s.dev.refilled c b 0 bs bs be)) hsize
    rw [c1] at a1
    rw [c2, State.setDev_cfg, b1.keeps.cfg, ho] at a2
    obtain ⟨es1, v1, w1⟩ := a1
    obtain ⟨es2, v2, w2⟩ := a2
    refine ⟨es2 ++ es1, by rw [State.setDev_events, v2, State.setDev_events, v1, List.append_assoc], fun off h4 hh => ?_⟩
    have hal := halfSize_aligned hsize
    have := hv.left_aligned4
    have := hv.right_aligned4
    have h : (wordsFrom (s.cfg.leftBase + 0) (halfSize b c / 4) off ∨
          (c = .stereo ∧ wordsFrom (s.cfg.rightBase + 0) (halfSize b c / 4) off)) ∨
        (wordsFrom (s.cfg.leftBase + halfSize b c) (halfSize b c / 4) off ∨
          (c = .stereo ∧ wordsFrom (s.cfg.rightBase + halfSize b c) (halfSize b c / 4) off)) := by
      rcases hh with hh | ⟨hc, hh⟩
      · exact (wordsFrom_halves hal (by omega) hh).imp .inl .inl
      · exact (wordsFrom_halves hal (by omega) hh).imp (fun h => .inr ⟨hc, h⟩) fun h => .inr ⟨hc, h⟩
    rcases h with h | h
    · obtain ⟨v, g, hm⟩ := w1 off h; exact ⟨v, g, List.mem_append_right _ hm⟩
    · obtain ⟨v, g, hm⟩ := w2 off h; exact ⟨v, g, List.mem_append_left _ hm⟩

/-- START completes after its checks (R141, R236, R240). -/
theorem startWork_ok {p : Precision} {c : Channels} {r bs be b sink : Word} (hv : s.cfg.Valid)
    (hi : inInterrupt s = false) (hr : RefillReads s.dev p c b 0 bs bs be) (hf : StartFits s.cfg c bs be b sink) :
    ∃ u es n g1 g2 g3 g4 g5 g6, startWork b c r p s = .ok () u ∧
      Bus (fun a => halvesSpan s.cfg c b a ∨ playSpan s.cfg a) (s.setDev (s.dev.primed bs be b)) u ∧
      u.fault = s.fault ∧ u.result = s.result ∧
      u.events.filter Event.notPoll =
        [.shWrite s.cfg.offSerial (n + 1) g6, .gate g6, .shRead s.cfg.offSerial n,
          .shWrite s.cfg.offCmd s.cfg.cmdPlay g5, .gate g5,
          .shWrite s.cfg.offPrecision (word p.toNat) g4, .gate g4, .shWrite s.cfg.offRate r g3, .gate g3,
          .shWrite s.cfg.offChannel (word c.toNat) g2, .gate g2,
          .shWrite s.cfg.offBlocksize (word (halfSize b c)) g1, .gate g1] ++ (es ++ s.events.filter Event.notPoll) ∧
      (∀ off v g, Event.shWrite off v g ∈ es → halvesSpan s.cfg c b off) ∧
      (∀ off, off % 4 = 0 → halvesSpan s.cfg c b off → ∃ v g, Event.shWrite off v g ∈ es) ∧
      4 * shWords es = 2 * b.toNat := by
  obtain ⟨t1, t2, e1, e2, b2, x2, y2, w2, es', z1, z2⟩ := primings_ok hv hr hf
  obtain ⟨es, h1, h2, h3, h4⟩ := b2.filtered
  have hcfg : t2.cfg = s.cfg := b2.keeps.cfg
  obtain ⟨g1, g2, g3, g4, t3, e3, v3, -⟩ := playParams_ok (s := t2) (b := b) (r := r) (c := c) (p := p) (by rw [hcfg]; exact hv)
  have b3 := playParams_onBus b c r p t2
  rw [e3] at b3
  have hcfg3 : t3.cfg = s.cfg := b3.1.keeps.cfg.trans hcfg
  have hi3 : inInterrupt t3 = false := by
    have : t3.active = s.active := b3.1.active.trans b2.active
    simpa [inInterrupt, this] using hi
  obtain ⟨g5, g6, n, t4, e4, v4, -, -⟩ := sendCommand_ok (s := t3) (cmd := t3.cfg.cmdPlay) (by rw [hcfg3]; exact hv) hi3
  have b4 := sendCommand_onBus t3.cfg.cmdPlay (s := t3)
  rw [e4] at b4
  refine ⟨t4, es, n, g1, g2, g3, g4, g5, g6, ?_, ?_, ?_, ?_, ?_, h2, fun off ho hh => ?_, ?_⟩
  · simp only [startWork, e1, e2, e3, e4, Exit.bind_ok]
  · rw [hcfg3] at b4
    rw [hcfg] at b3
    refine (b2.mono fun _ => .inl).trans ((b3.1.mono fun a h => .inr ?_).trans (b4.1.mono fun a h => .inr ?_))
    · unfold playSpan; tauto
    · unfold playSpan; tauto
  · rw [b4.2.1, b3.2.1, x2]
  · rw [b4.2.2, b3.2.2, y2]
  · rw [v4, v3, h1, hcfg3, hcfg]; rfl
  · obtain ⟨v, g, hm⟩ := z2 off ho hh
    exact ⟨v, g, h4 es' z1 off v g hm⟩
  · have : shWords (s.setDev (s.dev.primed bs be b)).events = shWords s.events := rfl
    omega

/-- What START's two refills leave in the halves when no wait timed out and the bytes are left alone (R141, R145): half 0
holds the block at the start of the buffer, half 1 the block at the cursor after it. -/
theorem primings_hold {p : Precision} {c : Channels} {bs be b sink : Word} {t1 t2 : State} {q : Nat}
    (hr : RefillReads s.dev p c b 0 bs bs be) (hf : StartFits s.cfg c bs be b sink)
    (hq : q = (nextCursor bs be bs b).toNat) (e1 : refill s = .ok () t1) (e2 : refill t1 = .ok () t2) (hn : NoTimeout t2)
    (hs : s.sh.wf = true) (hc : CoprocNoWrite (halvesSpan s.cfg c b) s)
    (hov : ∀ a, c = .stereo → span s.cfg.leftBase (2 * halfSize b c) a → ¬ span s.cfg.rightBase (2 * halfSize b c) a) :
    HoldsBlock s.cfg p c b.toNat 0 bs.toNat s.host t2.sh ∧
      HoldsBlock s.cfg p c b.toNat (halfSize b c) q s.host t2.sh := by
  have hsize := hf.size
  obtain ⟨u1, c1, rfl, b1, -⟩ := refill_bus hr e1
  have hr2 : RefillReads (u1.setDev (s.dev.refilled c b 0 bs bs be)).dev p c b (nextHalf 0 b c) (nextCursor bs be bs b) bs be :=
    ⟨hr.precision, hr.channels, hr.blockSize, rfl, rfl, hr.bufferStart, hr.bufferEnd⟩
  obtain ⟨u2, c2, rfl, b2, -⟩ := refill_bus hr2 e2
  have ho := nextHalf_zero b c
  have hcfg : u1.cfg = s.cfg := b1.keeps.cfg
  rw [State.setDev_cfg, hcfg, ho] at b2
  rw [ho, ← hq] at c2
  have hm : (u1.setDev (s.dev.refilled c b 0 bs bs be)).inp.moves <:+ s.inp.moves := b1.moves
  have z0 : ((0 : Word)).toNat = 0 := rfl
  rw [z0] at b1 c1
  have hov' : ∀ o, o = 0 ∨ o = halfSize b c → ∀ a, span (s.cfg.leftBase + o) (refillBytes p c b.toNat) a → c = .stereo →
      ¬ span (s.cfg.rightBase + o) (refillBytes p c b.toNat) a := by
    intro o h a ha hst hr
    rw [refillBytes_eq hsize] at ha hr
    refine hov a hst ?_ ?_ <;> unfold span at * <;> rcases h with rfl | rfl <;> omega
  have hn1 : NoTimeout u1 := b2.noTimeout hn
  refine ⟨?_, ?_⟩
  · have h := refillCopy_holds c1 hn1 hs (hc.mono fun a => refillSpan_halves hsize (.inl rfl)) (hov' 0 (.inl rfl))
    refine h.keep fun a ha => ?_
    refine b2.sh (b1.sh_wf hs) a (fun h2 => ?_) fun h2 => hc a (refillSpan_halves hsize (.inl rfl) ha) (.of_suffix hm h2)
    unfold refillSpan at ha h2
    rw [refillBytes_eq hsize] at ha h2
    have := hov a
    unfold span at *
    rcases ha with ha | ⟨hst, ha⟩ <;> rcases h2 with h2 | ⟨hst', h2⟩
    · omega
    · exact this hst' (by omega) (by omega)
    · exact this hst (by omega) (by omega)
    · omega
  · have h := refillCopy_holds c2 hn (b1.sh_wf hs)
      (fun a ha h2 => hc a (refillSpan_halves hsize (.inr rfl) (by rwa [State.setDev_cfg, hcfg] at ha)) (.of_suffix hm h2))
      (by rw [State.setDev_cfg, hcfg]; exact hov' _ (.inr rfl))
    rw [State.setDev_cfg, hcfg, State.setDev_host, b1.host] at h
    exact h

end Sys2Proof.Machine
end

