-- ==== Sys2Proof/Laws/Initialisation.lean ====
section
/-! SUPPORT. INIT (R232 to R234): when the load completes, its events, and the bytes it leaves. -/

namespace Sys2Proof.Machine

variable {s t : State}

/-- A register write completes inside the register block (R56). -/
theorem memWriteReg_ok {off : Nat} {v : Word} (h : off + 4 ≤ s.cfg.regsSize) :
    memWriteReg off v s = .ok () ((s.envTick.emit (.regWrite off v)).writeReg off v) := by
  rw [memWriteReg, require_bind (c := decide (off + Config.wordBytes ≤ _)) (decide_eq_true h)]

/-- The registers lie inside the register block (R8). -/
theorem enable_inside {p : Params} (h : p.Valid) : p.offEnable + 4 ≤ p.regsSize := by
  have h1 := h.enable_aligned4
  have h2 := h.enable_inside
  have h3 := h.regs_mod4
  omega

theorem clear_inside {p : Params} (h : p.Valid) : p.offIntrClear + 4 ≤ p.regsSize := by
  have h1 := h.clear_aligned4
  have h2 := h.clear_inside
  have h3 := h.regs_mod4
  omega

/-- Where the zero fill starts, in numbers (R233). -/
theorem fillStart_eq (p : Params) : fillStart p = 4 * ((p.fwLen + 3) / 4) := rfl

/-- The firmware and the zero fill as INIT writes them (R233). -/
def loadImage (s : State) : Exit Unit :=
  (writeBlockSeq 0 s.cfg.fwImage s).bind fun _ s =>
    writeBlockZeros (fillStart s.cfg) (s.cfg.shmemSize - fillStart s.cfg) s

theorem loadCoprocessor_eq (s : State) : loadCoprocessor s =
    (memWriteReg s.cfg.offEnable s.cfg.disableValue s).bind fun _ s => (loadImage s).bind fun _ s =>
      memWriteReg s.cfg.offEnable s.cfg.enableValue s := by
  simp only [loadCoprocessor, loadImage, Exit.bind_assoc]

/-- The load completes, and what it leaves when no wait timed out (R44, R233). -/
theorem loadImage_ok (hv : s.cfg.Valid) : ∃ t, loadImage s = .ok () t ∧ Bus (fun _ => True) s t ∧ t.fault = s.fault ∧
    t.result = s.result ∧ (NoTimeout t → s.sh.wf = true → ∀ a, ¬ s.inp.Moves (EnvMove.WritesSh a) →
      (∀ h : a < s.cfg.fwImage.length, t.sh.get a = s.cfg.fwImage[a]) ∧
        (fillStart s.cfg ≤ a → a < s.cfg.shmemSize → t.sh.get a = 0)) := by
  have hm := hv.shmem_mod4
  have hfw := hv.fw_fits
  have hz : fillStart s.cfg ≤ s.cfg.shmemSize ∧ fillStart s.cfg % 4 = 0 ∧ s.cfg.fwLen ≤ fillStart s.cfg := by
    rw [fillStart_eq]; omega
  obtain ⟨t1, h1⟩ := writeBlockFrom_ok (s := s) (offset := 0) (len := s.cfg.fwImage.length) (src := .seq s.cfg.fwImage) rfl
    (by have := hz.1; rw [fillStart_eq, Params.fwLen] at this; rw [blockBytes, wordsFor_eq]; omega) rfl
  have b1 := writeBlockFrom_onBus 0 s.cfg.fwImage.length (.seq s.cfg.fwImage) s
  rw [h1] at b1
  have c1 := b1.1.keeps.cfg
  obtain ⟨t2, h2⟩ := writeBlockFrom_ok (s := t1) (offset := fillStart s.cfg) (len := s.cfg.shmemSize - fillStart s.cfg)
    (src := .zeros) hz.2.1 (by rw [c1, blockBytes, wordsFor_eq]; omega) trivial
  have b2 := writeBlockFrom_onBus (fillStart s.cfg) (s.cfg.shmemSize - fillStart s.cfg) .zeros t1
  rw [h2] at b2
  refine ⟨t2, ?_, (b1.1.mono fun _ _ => trivial).trans (b2.1.mono fun _ _ => trivial), b2.2.1.trans b1.2.1,
    b2.2.2.trans b1.2.2, fun hn hsh a ha => ⟨fun h => ?_, fun hl hu => ?_⟩⟩
  · rw [loadImage, writeBlockSeq, h1, Exit.bind_ok, writeBlockZeros, c1, h2]
  · have := writeBlockFrom_copies (src := .seq s.cfg.fwImage) rfl h1 (b2.1.noTimeout hn) hsh h
      (by rwa [Nat.zero_add])
    rw [Nat.zero_add] at this
    rw [b2.1.sh (b1.1.sh_wf hsh) a (fun hc => by have := hc.1; have := hz.2.2; unfold Params.fwLen at this; omega)
      (fun hc => ha (.of_suffix b1.1.moves hc)), this]
    simp [BlockSource.byteAt, h]
  · have := writeBlockFrom_copies (src := .zeros) trivial h2 hn (b1.1.sh_wf hsh)
      (i := a - fillStart s.cfg) (by omega)
      (by rw [show fillStart s.cfg + (a - fillStart s.cfg) = a by omega]; exact fun hc => ha (.of_suffix b1.1.moves hc))
    rw [show fillStart s.cfg + (a - fillStart s.cfg) = a by omega] at this
    exact this

theorem sendDefaults_onBus (s : State) : (sendDefaults s).OnBus (paramSpan s.cfg) s := by
  unfold sendDefaults
  split
  · refine Exit.OnBus.after (t := s.setInp s.inp.drawWord.2) (.setInp (drawWord_sameScript _)) rfl rfl ?_
    refine (sendParam_onBus _ _ _).bind fun _ t h => ?_
    have hc : t.cfg = s.cfg := by
      have := sendParam_onBus s.cfg.cmdMvol (volumeWord Config.volumeDefault) s.inp.drawWord.1 (s := s.setInp s.inp.drawWord.2)
      change sendParam s.cfg.cmdMvol (volumeWord Config.volumeDefault) s.inp.drawWord.1 (s.setInp s.inp.drawWord.2) = _ at h
      rw [h] at this; exact this.1.keeps.cfg
    refine (sendParam_onBus _ _ _).mono fun a ha => ?_
    rw [hc] at ha
    exact ha
  · exact ⟨.refl _ s, rfl, rfl⟩

/-- The default volumes complete (R233): nothing without INIT_VOLUME_COMMANDS; with it the two SEND_PARAMs, CMD_MVOL
first, with the events and the slots they leave. -/
theorem sendDefaults_ok (hv : s.cfg.Valid) (hi : inInterrupt s = false) : ∃ t, sendDefaults s = .ok () t ∧
    (s.cfg.initVolumeCommands = false → t = s) ∧
    (s.cfg.initVolumeCommands = true → ∃ any n1 n2 g1 g2 g3 g4 g5 g6 g7 g8,
      t.events.filter Event.notPoll = paramEvents s.cfg s.cfg.cmdVol 255 255 n2 g5 g6 g7 g8 ++
        (paramEvents s.cfg s.cfg.cmdMvol 255 any n1 g1 g2 g3 g4 ++ s.events.filter Event.notPoll) ∧
      (s.sh.wf = true → NoTimeout t → CoprocNoWrite (paramSpan s.cfg) s → n2 = n1 + 1 ∧
        t.sh.getWord s.cfg.offSerial = n1 + 2 ∧ t.sh.getWord s.cfg.offCmd = s.cfg.cmdVol ∧
        t.sh.getWord s.cfg.offLparam = 255 ∧ t.sh.getWord s.cfg.offRparam = 255)) := by
  cases hc : s.cfg.initVolumeCommands with
  | false => exact ⟨s, by simp [sendDefaults, hc], fun _ => rfl, by simp⟩
  | true =>
    obtain ⟨g1, g2, g3, g4, n1, t1, h1, e1, -, v1⟩ := sendParam_ok (s := s.setInp s.inp.drawWord.2) (cmd := s.cfg.cmdMvol)
      (l := volumeWord Config.volumeDefault) (r := s.inp.drawWord.1) hv hi
    have b1 := sendParam_onBus s.cfg.cmdMvol (volumeWord Config.volumeDefault) s.inp.drawWord.1 (s := s.setInp s.inp.drawWord.2)
    rw [h1] at b1
    have c1 : t1.cfg = s.cfg := b1.1.keeps.cfg
    have hi1 : inInterrupt t1 = false := by
      have : t1.active = s.active := b1.1.active
      simpa [inInterrupt, this] using hi
    obtain ⟨g5, g6, g7, g8, n2, t2, h2, e2, m2, v2⟩ := sendParam_ok (s := t1) (cmd := t1.cfg.cmdVol)
      (l := volumeWord Config.volumeDefault) (r := volumeWord Config.volumeDefault) (by rw [c1]; exact hv) hi1
    have b2 := sendParam_onBus t1.cfg.cmdVol (volumeWord Config.volumeDefault) (volumeWord Config.volumeDefault) (s := t1)
    rw [h2] at b2
    rw [c1] at e2 m2 v2
    refine ⟨t2, ?_, by simp, fun _ => ⟨s.inp.drawWord.1, n1, n2, g1, g2, g3, g4, g5, g6, g7, g8, ?_, fun hw hn hq => ?_⟩⟩
    · simp only [sendDefaults, hc, if_pos, h1, Exit.bind_ok, h2]
    · rw [e2, e1]; rfl
    · have q0 : CoprocNoWrite (paramSpan s.cfg) (s.setInp s.inp.drawWord.2) :=
        hq.of_bus (W := fun _ => False) (.setInp (drawWord_sameScript _))
      have q1 : CoprocNoWrite (paramSpan s.cfg) t1 := q0.of_bus b1.1
      have w1 := b1.1.sh_wf (s := s.setInp s.inp.drawWord.2) hw
      obtain ⟨s1, -⟩ := v1 hw (b2.1.noTimeout hn)
      obtain ⟨s2, p2⟩ := v2 w1 hn
      obtain ⟨p3, p4, p5⟩ := p2 q1
      have hn2 : n2 = n1 + 1 := (m2 w1 (q1.mono fun _ h => .inr (.inr (.inr h)))).trans s1
      refine ⟨hn2, ?_, p3, p4, p5⟩
      rw [s2, hn2, BitVec.add_assoc]; rfl

end Sys2Proof.Machine
end

