-- ==== Sys2Proof/Laws/Interrupt.lean ====
section
/-! SUPPORT. The Interrupt Handler (R170): what an INTERRUPT that ends has done, and what one that faults has. -/

namespace Sys2Proof.Machine

variable {s t u : State}

/-- Everything an invocation of the sink can do: the environment moves, the host's writes land and are used up, and the
history gains E_CALLBACK (R174). -/
theorem callSink_eq (cb arg : Word) (s : State) : callSink cb arg s =
    { s.envTick with
      host := s.host.writes (s.inp.sink.headD [])
      inp := { s.envTick.inp with sink := s.inp.sink.tail }
      position := s.position + 1, events := .callback cb arg :: s.events } := by
  conv_rhs => rw [← envTick_host s, ← envTick_sink s, ← envTick_position s, ← envTick_events s]
  rfl

/-- What the host's writes during one invocation leave alone (R38). -/
theorem callSink_keepsHost (cb arg : Word) (hw : s.host.wf = true) : KeepsHost s (callSink cb arg s) := by
  intro S hS a ha
  rw [callSink_eq]
  refine Memory.get_writes_of_not _ hw fun w hm h => hS a ha ?_
  cases hs : s.inp.sink with
  | nil => rw [hs] at hm; cases hm
  | cons slot rest => rw [hs] at hm; exact ⟨slot, hs ▸ List.mem_cons_self, w, hm, h⟩

/-- The sink is invoked, or not, by one event at most; no fault when the callback and its argument are set (R170,
R174). -/
theorem notifySink_ok {cb arg : Word} (hc : s.dev.callback = some cb) (ha : s.dev.callbackArg = some arg) :
    notifySink s = .ok () (if cb = 0 then s else callSink cb arg s) := by
  unfold notifySink
  rw [readField_bind hc]
  by_cases h : cb = 0
  · subst h; rfl
  · have : isPlaying cb = true := by simpa [isPlaying] using h
    rw [if_pos this, readField_bind ha, if_neg h]

/-- In Idle the argument is not read (R170). -/
theorem notifySink_idle (hc : s.dev.callback = some 0) : notifySink s = .ok () s := by
  unfold notifySink
  rw [readField_bind hc]
  rfl

/-- An invocation of the sink changes no Device State field (R174). -/
theorem notifySink_eq_ok (he : notifySink s = .ok () t) : t.dev = s.dev ∧ t.fault = s.fault := by
  unfold notifySink at he
  obtain ⟨cb, _, h, he⟩ := Exit.bind_eq_ok.mp he
  obtain ⟨-, rfl⟩ := readField_eq_ok.mp h
  split at he
  · obtain ⟨arg, _, h, he⟩ := Exit.bind_eq_ok.mp he
    obtain ⟨-, rfl⟩ := readField_eq_ok.mp h
    cases he
    exact ⟨by simp [callSink], by simp [callSink]⟩
  · cases he
    exact ⟨rfl, rfl⟩

/-- The acknowledge write lies inside the register block (R8, R170). -/
theorem acknowledge_ok (hv : s.cfg.Valid) : acknowledge s =
    .ok () ((s.envTick.emit (.regWrite s.cfg.offIntrClear s.cfg.ackValue)).writeReg s.cfg.offIntrClear s.cfg.ackValue) :=
  memWriteReg_ok (clear_inside hv)

/-- What an acknowledge that goes on leaves of the Device State and the fault. -/
theorem acknowledge_eq_ok (he : acknowledge s = .ok () t) : t.dev = s.dev ∧ t.fault = s.fault := by
  unfold acknowledge memWriteReg at he
  obtain ⟨_, _, h, he⟩ := Exit.bind_eq_ok.mp he
  obtain ⟨-, rfl⟩ := require_eq_ok.mp h
  cases he
  exact ⟨by simp, by simp⟩

/-- What an INTERRUPT that ends has done to the Device State: one refill (R170). -/
theorem interruptBody_eq_ok {r : Result} (he : interruptBody s = .ok r t) : r = ⟨.handled, []⟩ ∧ t.fault = s.fault ∧
    ∃ p c b o q bs be, RefillReads s.dev p c b o q bs be ∧ t.dev = s.dev.refilled c b o q bs be := by
  unfold interruptBody at he
  obtain ⟨_, u, h1, he⟩ := Exit.bind_eq_ok.mp he
  obtain ⟨_, v, h2, he⟩ := Exit.bind_eq_ok.mp he
  obtain ⟨rfl, h3⟩ := finish_eq_ok.mp he
  obtain ⟨p, c, b, o, q, bs, be, w, hr, -, -, -⟩ := refill_eq_ok h1
  obtain ⟨w, -, rfl, -, hw⟩ := refill_bus hr h1
  obtain ⟨d2, f2⟩ := notifySink_eq_ok h2
  obtain ⟨d3, f3⟩ := acknowledge_eq_ok h3
  exact ⟨rfl, f3.trans (f2.trans hw), p, c, b, o, q, bs, be, hr, d3.trans d2⟩

end Sys2Proof.Machine
end

