-- ==== Sys2Proof/Laws/PerInstr.lean ====
section
/-! SUPPORT. One lemma for each operation: the shape of its encoding (R81, R82, R83, R85). -/

namespace Sys2Proof.Laws.EncodeShape

/-- The encoding of an operation is a header word and one word for each operand; its tag is an assigned one (R83); and the
opcode map takes exactly the operand words of the tag, in their order (R83, R85). -/
def Statement (i : Instr) : Prop :=
  (encode i).length = 1 + i.operands.length ∧ 0x01 ≤ i.tag ∧ i.tag ≤ 0x14 ∧
    ∀ rest, decodeTag i.tag (i.operands ++ rest) = .ok (i, rest)

theorem init : Statement .init :=
  ⟨rfl, Nat.le_of_ble_eq_true rfl, Nat.le_of_ble_eq_true rfl, fun _ => rfl⟩
theorem setFormat (p c r : Word) : Statement (.setFormat p c r) :=
  ⟨rfl, Nat.le_of_ble_eq_true rfl, Nat.le_of_ble_eq_true rfl, fun _ => rfl⟩
theorem start (bs be b sink arg : Word) : Statement (.start bs be b sink arg) :=
  ⟨rfl, Nat.le_of_ble_eq_true rfl, Nat.le_of_ble_eq_true rfl, fun _ => rfl⟩
theorem stop : Statement .stop :=
  ⟨rfl, Nat.le_of_ble_eq_true rfl, Nat.le_of_ble_eq_true rfl, fun _ => rfl⟩
theorem refill : Statement .refill :=
  ⟨rfl, Nat.le_of_ble_eq_true rfl, Nat.le_of_ble_eq_true rfl, fun _ => rfl⟩
theorem interrupt : Statement .interrupt :=
  ⟨rfl, Nat.le_of_ble_eq_true rfl, Nat.le_of_ble_eq_true rfl, fun _ => rfl⟩
theorem mixerSet (index nvals v0 v1 : Word) : Statement (.mixerSet index nvals v0 v1) :=
  ⟨rfl, Nat.le_of_ble_eq_true rfl, Nat.le_of_ble_eq_true rfl, fun _ => rfl⟩
theorem mixerGet (index : Word) : Statement (.mixerGet index) :=
  ⟨rfl, Nat.le_of_ble_eq_true rfl, Nat.le_of_ble_eq_true rfl, fun _ => rfl⟩
theorem waitReady : Statement .waitReady :=
  ⟨rfl, Nat.le_of_ble_eq_true rfl, Nat.le_of_ble_eq_true rfl, fun _ => rfl⟩
theorem writeBlock (offset src len : Word) : Statement (.writeBlock offset src len) :=
  ⟨rfl, Nat.le_of_ble_eq_true rfl, Nat.le_of_ble_eq_true rfl, fun _ => rfl⟩
theorem writeDeint16 (offset src len : Word) : Statement (.writeDeint16 offset src len) :=
  ⟨rfl, Nat.le_of_ble_eq_true rfl, Nat.le_of_ble_eq_true rfl, fun _ => rfl⟩
theorem writeDeint8 (offset src len : Word) : Statement (.writeDeint8 offset src len) :=
  ⟨rfl, Nat.le_of_ble_eq_true rfl, Nat.le_of_ble_eq_true rfl, fun _ => rfl⟩
theorem sendCommand (cmd : Word) : Statement (.sendCommand cmd) :=
  ⟨rfl, Nat.le_of_ble_eq_true rfl, Nat.le_of_ble_eq_true rfl, fun _ => rfl⟩
theorem sendParam (cmd left right : Word) : Statement (.sendParam cmd left right) :=
  ⟨rfl, Nat.le_of_ble_eq_true rfl, Nat.le_of_ble_eq_true rfl, fun _ => rfl⟩
theorem queryFormat : Statement .queryFormat :=
  ⟨rfl, Nat.le_of_ble_eq_true rfl, Nat.le_of_ble_eq_true rfl, fun _ => rfl⟩
theorem roundBlocksize (req : Word) : Statement (.roundBlocksize req) :=
  ⟨rfl, Nat.le_of_ble_eq_true rfl, Nat.le_of_ble_eq_true rfl, fun _ => rfl⟩
theorem roundBuffersize (req : Word) : Statement (.roundBuffersize req) :=
  ⟨rfl, Nat.le_of_ble_eq_true rfl, Nat.le_of_ble_eq_true rfl, fun _ => rfl⟩
theorem mixerDevinfo (index : Word) : Statement (.mixerDevinfo index) :=
  ⟨rfl, Nat.le_of_ble_eq_true rfl, Nat.le_of_ble_eq_true rfl, fun _ => rfl⟩
theorem getDevice : Statement .getDevice :=
  ⟨rfl, Nat.le_of_ble_eq_true rfl, Nat.le_of_ble_eq_true rfl, fun _ => rfl⟩
theorem getLocks : Statement .getLocks :=
  ⟨rfl, Nat.le_of_ble_eq_true rfl, Nat.le_of_ble_eq_true rfl, fun _ => rfl⟩

end Sys2Proof.Laws.EncodeShape
end

