-- ==== Sys2Proof/Tests/Slice0.lean ====
section
/-! SUPPORT. The model's own tests: ill-formed operations are refused, words written out from R81 and R83 decode, vectors
of 95_test_vectors.md (named by their ids) on single steps, and for each statement a state that meets its hypotheses. -/

namespace Sys2Proof.Tests

open Sys2Proof Sys2Proof.Machine

/-! ### Helpers -/

/-- Test instance T (95 section 0). -/
def paramsT : Params :=
  { shmemSize := 0x8000, regsSize := 0x100, offCmd := 0x7F00, offSerial := 0x7F04, offLparam := 0x7F08,
    offRparam := 0x7F0C, offBlocksize := 0x7F10, offChannel := 0x7F14, offRate := 0x7F18, offPrecision := 0x7F1C,
    leftBase := 0x2000, rightBase := 0x4000, regionSize := 0x2000, offEnable := 0, enableValue := 0,
    disableValue := 1, offIntrClear := 4, ackValue := 2, fifoStatusAddr := 0, readyMask := 3, waitLimit := 4,
    fifoDepthWords := 8, cmdPlay := 0x11, cmdStop := 0x12, cmdMvol := 0x13, cmdVol := 0x14,
    dmabufSize := 0x1000, rateMin := 4000, fwImage := [1, 2, 3, 4, 5, 6, 7, 8], deviceName := "D", nameMaster := "M",
    nameGain := "G", nameClass := "C", initVolumeCommands := false }

/-- A small instance, with the firmware of R233's example and half its memory. -/
def paramsS : Params :=
  { paramsT with
    shmemSize := 0x80, offCmd := 0x60, offSerial := 0x64, offLparam := 0x68, offRparam := 0x6C, offBlocksize := 0x70,
    offChannel := 0x74, offRate := 0x78, offPrecision := 0x7C, leftBase := 0x20, rightBase := 0x40,
    regionSize := 0x20, fwImage := [0xAA, 0xBB, 0xCC, 0xDD, 0xEE, 0xFF] }

/-- Inputs: polls all ready (P-READY), some pad bytes and words. -/
def ready : Inputs :=
  { Inputs.none with polls := List.replicate 40 3, bytes := List.replicate 8 0x5A, words := [0x77], bools := [true] }

/-- Right after reset, with the free values of reset fixed. -/
def fresh (p : Params) : State :=
  { cfg := p, dev := Device.unset, initialized := false, dead := false, fault := none, active := none, position := 0,
    coprocEnabled := none, gateOk := none, regEnable := 0, regIntrClear := 0, irqPending := false, sh := [],
    host := [], events := [], moved := [], result := none, inp := ready }

/-- After a successful INIT. -/
def up : State :=
  { fresh paramsT with
    initialized := true, coprocEnabled := some true, gateOk := some true
    dev := { Device.unset with
      outputMaster := some 255, outputGainLeft := some 255, outputGainRight := some 255, callback := some 0 } }

/-- With a format. -/
def formatted (p : Precision) (c : Channels) : State :=
  { up with dev := { up.dev with precision := some p, channels := some c, rate := some 44100 } }

/-- After START(0x8000, 0x8020, 16, 1, 7), K = 2. -/
def playing (p : Precision) (c : Channels) : State :=
  { formatted p c with
    dev := { (formatted p c).dev with
      bufferStart := some 0x8000, bufferEnd := some 0x8020, bufferCursor := some 0x8000, blockSize := some 16,
      nextFillOffset := some 0, callback := some 1, callbackArg := some 7 } }

/-- Idle again after a STOP. -/
def stopped (p : Precision) (c : Channels) : State :=
  { playing p c with dev := { (playing p c).dev with callback := some 0 } }

/-- HOST-RAMP on the n bytes from a on, but for zero bytes. -/
def ramp (a n : Nat) : Memory := ((List.range n).filter fun k => (a + k) % 256 ≠ 0).map fun k => (a + k, BitVec.ofNat 8 (a + k))

/-- With a ramp in host memory. -/
def withRamp (a n : Nat) (s : State) : State := s.setHost (ramp a n)

/-- With other polls. -/
def withPolls (ps : List Word) (s : State) : State := s.setInp { s.inp with polls := ps }

/-- With what the host writes during each E_CALLBACK. -/
def withSink (ws : List (List HostWrite)) (s : State) : State := s.setInp { s.inp with sink := ws }

/-- With a script of the coprocessor's moves. -/
def withMoves (ms : List (List EnvMove)) (s : State) : State := s.setInp { s.inp with moves := ms }

/-- With a record at the port and the control path's turn. -/
def offered (ws : List Word) (s : State) : State := s.presenting ⟨ws.headD 0, ws.tail⟩

/-- The state after a meaning: every meaning takes a next state. -/
def after (i : Instr) (s : State) : State :=
  match exec i s with
  | .next t => t
  | .fault _ => s
  | .refused _ => s

/-- The state after a step that takes one. -/
def afterStep (s : State) : State :=
  match step s with
  | .next t => t
  | .fault _ => s
  | .refused _ => s

theorem exec_after (i : Instr) (s : State) : exec i s = .next (after i s) := by
  unfold after; rw [exec_eq, runOp_eq]

theorem quiet {s : State} (h : s.inp.moves = []) (S : Nat → Prop) : CoprocNoWrite S s := by
  rintro a - ⟨slot, hs, -⟩; rw [h] at hs; cases hs

theorem validT : paramsT.Valid := by constructor <;> decide

theorem validS : paramsS.Valid := by constructor <;> decide

/-- R8: the default of WB_BURST_WORDS, which the instance does not give. -/
theorem test_wbBurst_default : paramsT.wbBurstWords = 8 := rfl

/-! ### WellFormed: what the check refuses -/

theorem test_wf_refuses_wide_v0 : (Instr.mixerSet 0 1 256 0).wellFormed = false := by decide
theorem test_wf_refuses_wide_v1 : (Instr.mixerSet 1 2 0 0xFFFFFFFF).wellFormed = false := by decide
theorem test_wf_takes_255 : (Instr.mixerSet 1 2 255 255).wellFormed = true := by decide

/-! ### Decode: words written out from R81 and R83 -/

theorem test_decode_init : (decode [0x00000001]).toOption = some (.init, []) := by decide
theorem test_decode_setFormat : (decode [0x00000002, 0x10, 0x2, 0xAC44]).toOption =
    some (.setFormat 16 2 44100, []) := by decide
theorem test_decode_start : (decode [0x00000003, 0x8000, 0x9000, 0x400, 0x1, 0x7]).toOption =
    some (.start 0x8000 0x9000 1024 1 7, []) := by decide
theorem test_decode_stop : (decode [0x00000004]).toOption = some (.stop, []) := by decide
theorem test_decode_refill : (decode [0x00000005]).toOption = some (.refill, []) := by decide
theorem test_decode_interrupt : (decode [0x00000006]).toOption = some (.interrupt, []) := by decide
theorem test_decode_mixerSet : (decode [0x00000007, 0x1, 0x2, 0xA, 0x14]).toOption =
    some (.mixerSet 1 2 10 20, []) := by decide
theorem test_decode_mixerGet : (decode [0x00000008, 0x1]).toOption = some (.mixerGet 1, []) := by decide
theorem test_decode_waitReady : (decode [0x00000009]).toOption = some (.waitReady, []) := by decide
theorem test_decode_writeBlock : (decode [0x0000000A, 0x2000, 0x100, 0x21]).toOption =
    some (.writeBlock 0x2000 0x100 33, []) := by decide
theorem test_decode_writeDeint16 : (decode [0x0000000B, 0x4000, 0x602, 0x6]).toOption =
    some (.writeDeint16 0x4000 0x602 6, []) := by decide
theorem test_decode_writeDeint8 : (decode [0x0000000C, 0x2000, 0x101, 0x25]).toOption =
    some (.writeDeint8 0x2000 0x101 37, []) := by decide
theorem test_decode_sendCommand : (decode [0x0000000D, 0x12]).toOption = some (.sendCommand 0x12, []) := by decide
theorem test_decode_sendParam : (decode [0x0000000E, 0x14, 0xA, 0x14]).toOption =
    some (.sendParam 0x14 10 20, []) := by decide
theorem test_decode_queryFormat : (decode [0x0000000F, 0x1]).toOption = some (.queryFormat, [1]) := by decide
theorem test_decode_roundBlocksize : (decode [0x00000010, 0x0]).toOption = some (.roundBlocksize 0, []) := by decide
theorem test_decode_roundBuffersize : (decode [0x00000011, 0x30D40]).toOption =
    some (.roundBuffersize 200000, []) := by decide
theorem test_decode_mixerDevinfo : (decode [0x00000012, 0x2]).toOption = some (.mixerDevinfo 2, []) := by decide
theorem test_decode_getDevice : (decode [0x00000013]).toOption = some (.getDevice, []) := by decide
theorem test_decode_getLocks : (decode [0x00000014]).toOption = some (.getLocks, []) := by decide
theorem test_decode_tableWord : decodeTableWord 64 0x0000001400000008 = some (.mixerGet 20) := by decide
theorem test_decode_tableWord_short : decodeTableWord 32 0x0000000A = some (.writeBlock 0 0 0) := by decide

/-- R86's example, and an operand that names a parameter. -/
theorem test_assemble_start : (assemble paramsT "START 0x8000, 0x9000, 1024, 1, 7").toOption =
    some (some ⟨3, [0x8000, 0x9000, 0x400, 1, 7]⟩) := by decide
theorem test_assemble_parameter : (assemble paramsT "SEND_COMMAND LEFT_BASE+512 ; a comment").toOption =
    some (some ⟨0xD, [0x2200]⟩) := by decide

/-! ### Vectors of 95_test_vectors.md -/

/-- R233's example, in half its memory: the image, the two reg writes, the defaults. -/
theorem test_init_loads : let t := after .init (fresh paramsS)
    t.sh.getWord 0 = 0xDDCCBBAA ∧ t.sh.getBytes 4 2 = [0xEE, 0xFF] ∧ t.initialized = true ∧
      t.dev.outputMaster = some 255 ∧ t.dev.callback = some 0 ∧ t.result = some ⟨.ok, []⟩ := by decide +kernel

/-- R233 with INIT_VOLUME_COMMANDS: the serial, zero after the fill, advances by 2; the slots hold CMD_VOL (255, 255). -/
theorem test_init_volumes : let t := after .init (fresh { paramsS with initVolumeCommands := true })
    t.sh.getWord 0x64 = 2 ∧ t.sh.getWord 0x60 = 0x14 ∧ t.sh.getWord 0x68 = 255 ∧ t.sh.getWord 0x6C = 255 := by
  decide +kernel

/-- V96. -/
theorem test_init_fails : let s := fresh paramsT
    let t := after .init (s.setInp { s.inp with bools := [false] })
    t.dead = true ∧ t.initialized = false ∧ t.result = some ⟨.failed, []⟩ ∧ t.events.length = 2 := by decide

/-- V40. -/
theorem test_setFormat : let t := after (.setFormat 16 2 44100) up
    t.dev.precision = some .bits16 ∧ t.dev.channels = some .stereo ∧ t.dev.rate = some 44100 := by decide

/-- V45: the Playing check comes first. -/
theorem test_setFormat_playing : (after (.setFormat 12 9 0) (playing .bits16 .stereo)).fault =
    some .formatWhilePlaying := by decide

/-- V54. -/
theorem test_start : let t := after (.start 0x8000 0x8020 16 1 0) (withRamp 0x8000 32 (formatted .bits8 .stereo))
    t.dev.bufferCursor = some 0x8000 ∧ t.dev.nextFillOffset = some 0 ∧ t.dev.callback = some 1 ∧
      t.sh.getWord 0x2008 = 0x16141210 ∧ t.sh.getWord 0x4008 = 0x17151311 ∧ t.sh.getWord 0x7F10 = 8 ∧
      t.sh.getWord 0x7F00 = 0x11 ∧ t.sh.getWord 0x7F04 = 1 := by decide +kernel

/-- V53: the second priming refill is misaligned, half 0 is written, PLAY is not. -/
theorem test_start_faults : let t := after (.start 0x8000 0x800C 6 1 0) (withRamp 0x8000 12 (formatted .bits16 .mono))
    t.fault = some (.align 0x2006) ∧ t.sh.getWord 0x2000 = 0x03020100 ∧ t.sh.getWord 0x7F00 = 0 ∧
      t.dev.callback = some 0 := by decide +kernel

/-- W5. -/
theorem test_stop : let t := after .stop up
    t.sh.getWord 0x7F00 = 0x12 ∧ t.sh.getWord 0x7F04 = 1 ∧ t.dev = up.dev := by decide +kernel

/-- R144: the half offset and the cursor move; the second half is written. -/
theorem test_refill : let s := withRamp 0x8010 16 (stopped .bits16 .stereo)
    let t := after .refill (s.setDev { s.dev with bufferCursor := some 0x8010, nextFillOffset := some 8 })
    t.sh.getWord 0x2008 = 0x15141110 ∧ t.sh.getWord 0x4008 = 0x17161312 ∧ t.dev.bufferCursor = some 0x8000 ∧
      t.dev.nextFillOffset = some 0 := by decide +kernel

/-- V56. -/
theorem test_refill_unset : (after .refill up).fault = some (.unset .precision) := by decide

/-- V70 on a small buffer. -/
theorem test_interrupt : let t := after .interrupt (withRamp 0x8000 16 ((playing .bits16 .stereo).setIrq true))
    t.events.take 3 = [.opEnd .interrupt ⟨.handled, []⟩, .regWrite 4 2, .callback 1 7] ∧ t.irqPending = false ∧
      t.dev.bufferCursor = some 0x8010 ∧ t.dev.nextFillOffset = some 8 := by decide +kernel

/-- R175: a signal before the acknowledge is cleared by it, a signal after it stays pending. -/
theorem test_interrupt_signals : let s := withRamp 0x8000 16 (playing .bits16 .mono)
    (after .interrupt (withMoves (List.replicate 11 [] ++ [[.raiseIrq]]) s)).irqPending = false ∧
      (after .interrupt (withMoves (List.replicate 12 [] ++ [[.raiseIrq]]) s)).irqPending = true := by decide +kernel

/-- V72. -/
theorem test_interrupt_faults : let t := after .interrupt (up.setIrq true)
    t.fault = some (.unset .precision) ∧ t.irqPending = true ∧ t.active = some (.intr, .interrupt) := by decide

/-- V58. -/
theorem test_mixerSet : let t := after (.mixerSet 0 1 200 0) up
    t.dev.outputMaster = some 200 ∧ t.sh.getWord 0x7F08 = 200 ∧ t.sh.getWord 0x7F00 = 0x13 ∧
      t.sh.getWord 0x7F04 = 1 := by decide +kernel

/-- V59: a wrong value count. -/
theorem test_mixerSet_invalid : let t := after (.mixerSet 1 1 10 0) up
    t.result = some ⟨.invalid, []⟩ ∧ t.dev = up.dev ∧ t.events.length = 2 := by decide

/-- W10. -/
theorem test_mixerGet : (after (.mixerGet 1) up).result = some ⟨.ok, [.num 2, .num 255, .num 255]⟩ := by decide

/-- V61. -/
theorem test_mixerGet_invalid : (after (.mixerGet 7) up).result = some ⟨.invalid, []⟩ := by decide

/-- V4: ready at the last allowed poll. -/
theorem test_waitReady : let t := after .waitReady (withPolls [0, 0, 0, 2] up)
    t.gateOk = some true ∧ t.events.length = 7 := by decide

/-- V3: bits outside READY_MASK are ignored. -/
theorem test_waitReady_timeout : (after .waitReady (withPolls [4, 8, 0xFFFFFFFC, 0] up)).gateOk = some false := by decide

/-- V11: 6 bytes in two words. -/
theorem test_writeBlock : let t := after (.writeBlock 0x2000 0x100 6) (withRamp 0x100 8 up)
    t.sh.getWord 0x2000 = 0x03020100 ∧ t.sh.getBytes 0x2004 4 = [4, 5, 0x5A, 0x5A] := by decide +kernel

/-- V14: the first word lands, the second crosses the end. -/
theorem test_writeBlock_range : let t := after (.writeBlock 0x7FFC 0x100 8) (withRamp 0x100 8 up)
    t.sh.getWord 0x7FFC = 0x03020100 ∧ t.fault = some (.range .sh 0x8000) := by decide +kernel

/-- R174, R243 (d), D27: the host writes during E_CALLBACK, after the refill has read the old byte, and not during a
REFILL; the write of the next E_CALLBACK waits. -/
theorem test_host_writes_at_callback :
    let s := withSink [[⟨0x8001, 9⟩], [⟨0x8001, 8⟩]] (withRamp 0x8000 16 (playing .bits16 .stereo))
    let t := after .interrupt s
    (after .refill s).host = s.host ∧ t.host.get 0x8001 = 9 ∧ t.sh.getWord 0x2000 = 0x05040100 ∧
      t.inp.sink = [[⟨0x8001, 8⟩]] := by decide +kernel

/-- R13, R65, R211 (d): a coprocessor write between the first word's E_SHW and the E_FAULT of the second word's read; the
position is the four events made. -/
theorem test_writeBlock_race : let s := withMoves [[], [], [], [], [.coprocWrite 0 0xEE]] (withRamp 0xFFFFFFFC 4 up)
    let t := after (.writeBlock 0 0xFFFFFFFC 8) s
    t.fault = some (.range .host 0x100000000) ∧ t.sh.getWord 0 = 0xFFFEFDEE ∧ t.position = 4 := by decide +kernel

/-- V17's last chunk, W2's shape: an odd number of samples. -/
theorem test_writeDeint16 : let t := after (.writeDeint16 0x2000 0x100 6) (withRamp 0x100 16 up)
    t.sh.getWord 0x2000 = 0x05040100 ∧ t.sh.getBytes 0x2004 4 = [8, 9, 0x5A, 0x5A] := by decide +kernel

/-- V19: the alignment check comes before the length check. -/
theorem test_writeDeint16_order : (after (.writeDeint16 0x2002 0x100 3) up).fault = some (.align 0x2002) := by decide

/-- V20 and V21: four samples make a word, a remainder of three is read and not written. -/
theorem test_writeDeint8 : let t := after (.writeDeint8 0x2000 0x100 7) (withRamp 0x100 16 up)
    t.sh.getWord 0x2000 = 0x06040200 ∧ t.sh.getWord 0x2004 = 0 ∧
      (t.events.filter fun e => match e with | .hostRead _ _ => true | _ => false).length = 7 := by decide +kernel

/-- V30. -/
theorem test_sendCommand : let t := after (.sendCommand 0x12) up
    t.events.filter Event.notPoll = [.opEnd (.sendCommand 0x12) resultOk, .shWrite 0x7F04 1 true, .gate true,
      .shRead 0x7F04 0, .shWrite 0x7F00 0x12 true, .gate true, .opBegin (.sendCommand 0x12) .control] := by
  decide +kernel

/-- V33: the coprocessor's 9, written after the serial was read, is lost. -/
theorem test_sendCommand_race : let s := up.setSh (up.sh.setWord 0x7F04 5)
    (after (.sendCommand 0x12) (withMoves [[], [], [], [], [.coprocWrite 0x7F04 9]] s)).sh.getWord 0x7F04 = 6 := by
  decide +kernel

/-- V32. -/
theorem test_sendParam : let t := after (.sendParam 0x14 10 20) (up.setSh (up.sh.setWord 0x7F04 5))
    t.sh.getWord 0x7F08 = 10 ∧ t.sh.getWord 0x7F0C = 20 ∧ t.sh.getWord 0x7F00 = 0x14 ∧ t.sh.getWord 0x7F04 = 6 := by
  decide +kernel

/-- V80. -/
theorem test_queryFormat : (after .queryFormat up).result =
    some ⟨.ok, [.num 0, .num 16, .num 2, .num 4000, .num 65536]⟩ := by decide

/-- V81. -/
theorem test_roundBlocksize : (after (.roundBlocksize 0) up).result = some ⟨.ok, [.num 0x400]⟩ := by decide

/-- W9. -/
theorem test_roundBuffersize : (after (.roundBuffersize 200000) (formatted .bits16 .stereo)).result =
    some ⟨.ok, [.num 131072]⟩ := by decide

/-- V83. -/
theorem test_roundBuffersize_unset : (after (.roundBuffersize 4096) up).fault = some (.unset .channels) := by decide

/-- V85. -/
theorem test_mixerDevinfo : (after (.mixerDevinfo 2) up).result = some ⟨.ok, [.num 1, .num 2, .text "C"]⟩ := by decide

/-- R184. -/
theorem test_getDevice : (after .getDevice up).result = some ⟨.ok, [.text "D"]⟩ := by decide

/-- V87. -/
theorem test_getLocks : (after .getLocks up).result = some ⟨.ok, [.num 0, .num 1]⟩ := by decide

/-! ### Steps: admission and delivery -/

/-- V90. -/
theorem test_step_notInit : (afterStep (offered [2, 0x10, 2, 0xAC44] (fresh paramsT))).fault = some (.notInit 2) := by
  decide

/-- V92 and V94. -/
theorem test_step_refused : (afterStep (offered [0x100] up)).fault = some (.refused 0x100) ∧
    (afterStep (offered [6] up)).fault = some (.refused 6) := by decide

/-- V99. -/
theorem test_step_halted : step ((offered [4] up).recordFault .reinit) = .fault (.halted .reinit) := rfl

/-- R171: a signal at the boundary, then INTERRUPT. -/
theorem test_step_interrupt : let s := withMoves [[.raiseIrq]] (withRamp 0x8000 16 (stopped .bits16 .stereo))
    (afterStep (s.setInp { s.inp with turns := [.interrupt] })).result = some ⟨.handled, []⟩ := by decide +kernel

/-- withFetchWord places a record that the next step runs. -/
theorem test_step_fetchWord : (afterStep (up.withFetchWord 32 0x14)).result = some ⟨.ok, [.num 0, .num 1]⟩ := by decide

/-! ### Witnesses: for each statement, states and operands that meet its hypotheses together, clause by clause -/

theorem step_after {s : State} (h : s.fault = none) : step s = .next (afterStep s) := by
  unfold afterStep step haltedFault
  rw [h]
  dsimp only
  split
  · rename_i i t _; simp only [exec_eq, runOp_eq]
  · rfl

theorem inv_like_up {s : State} (hs : s.sh = []) (hh : s.host = []) (hd : s.dev = up.dev) (ha : s.active = none)
    (hp : s.position = 0) (hk : s.dead = false) : Inv s := by
  refine ⟨⟨by rw [hs]; rfl, by rw [hs]; simp, by rw [hh]; rfl, by rw [hh]; simp⟩, ?_, fun h => absurd ha h,
    fun _ => hp, fun _ => hk, fun _ => by rw [hd]; decide⟩
  rw [hd]
  exact ⟨.inl ⟨rfl, rfl, rfl⟩, .inl ⟨rfl, rfl, rfl, rfl, rfl⟩, fun cb h hne => absurd (Option.some.inj h).symm hne⟩

theorem witness_DecodeOfEncode : (Instr.mixerSet 2 0 255 0).WellFormed ∧ Instr.getLocks.WellFormed := by decide

theorem witness_DecodedWordsAreTheEncoding : decode [0x8, 7, 9] = .ok (.mixerGet 7, [9]) := rfl

theorem witness_AssemblerNotation : paramsT.leftBase + 512 < 2 ^ 32 := by decide

theorem witness_RecordsAreRefusedExactly : (offered [0] up).fault = none ∧ (offered [0] up).active = none ∧
    (offered [0] up).inp.turns = [.control] ∧ (offered [0] up).inp.port = [⟨0, []⟩] ∧ Refusable ⟨0, []⟩ ∧
    Refusable ⟨0x15, []⟩ ∧ Refusable ⟨0x104, []⟩ ∧ Refusable ⟨0xB, [1, 2]⟩ ∧ Refusable ⟨7, [0, 1, 256, 0]⟩ ∧
    Refusable ⟨7, [0, 1, 0, 256]⟩ ∧ Refusable ⟨6, []⟩ ∧ ¬ Refusable ⟨7, [9, 1, 255, 255]⟩ ∧ ¬ Refusable ⟨0x14, []⟩ ∧
    ¬ Refusable ⟨1, [5]⟩ := by
  refine ⟨rfl, rfl, rfl, rfl, ?_, ?_, ?_, ?_, ?_, ?_, ?_, ?_, ?_, ?_⟩ <;> unfold Refusable <;> decide

theorem witness_StepKeepsInv : Inv (offered [4] up) ∧ step (offered [4] up) = .next (afterStep (offered [4] up)) :=
  ⟨inv_like_up rfl rfl rfl rfl rfl rfl, step_after rfl⟩

theorem witness_StepRunsTheDecodedOperation : (offered [0x14] up).fault = none ∧ (offered [0x14] up).active = none ∧
    (offered [0x14] up).inp.turns = [.control] ∧ (offered [0x14] up).inp.port = [⟨0x14, []⟩] ∧
    decode [0x14] = .ok (.getLocks, []) ∧ up.initialized = true ∧ up.dead = false ∧
    (offered [1] (fresh paramsT)).inp.port = [⟨1, []⟩] ∧ decode [1] = .ok (.init, []) :=
  ⟨rfl, rfl, rfl, rfl, rfl, rfl, rfl, rfl, rfl⟩

theorem witness_OperationsNeedInit : (offered [4] (fresh paramsT)).initialized = false ∧
    (offered [4] (fresh paramsT)).inp.port = [⟨4, []⟩] ∧ decode [4] = .ok (.stop, []) ∧
    (offered [4] (fresh paramsT)).fault = none ∧ (offered [4] (fresh paramsT)).active = none ∧
    (offered [4] (fresh paramsT)).inp.turns = [.control] ∧ (offered [4] (fresh paramsT).becomeDead).dead = true :=
  ⟨rfl, rfl, rfl, rfl, rfl, rfl, rfl⟩

theorem witness_InterruptDelivery : let s := up.setInp { up.inp with turns := [.interrupt] }
    s.fault = none ∧ s.active = none ∧ s.inp.turns = [.interrupt] ∧ s.envTick.irqPending = false ∧
      (s.setIrq true).envTick.irqPending = true ∧ (s.setIrq true).envTick.initialized = true := by decide

theorem witness_LockedBlockHolds : (up.beginOp .control .stop).fault = none ∧
    (up.beginOp .control .stop).active = some (.control, .stop) := by decide

theorem witness_HaltedBlockTakesNoStep : (up.recordFault .reinit).fault = some .reinit := rfl

theorem witness_OperationsEndOrFault : up.fault = none := rfl

theorem witness_OnlyInitChangesTheLifecycle : exec .stop up = .next (after .stop up) ∧ Instr.stop ≠ .init :=
  ⟨exec_after _ _, by decide⟩

theorem witness_FormatChangesOnlyWhileIdle : exec (.setFormat 16 2 44100) up = .next (after (.setFormat 16 2 44100) up) ∧
    (after (.setFormat 16 2 44100) up).dev.precision ≠ up.dev.precision := ⟨exec_after _ _, by decide⟩

theorem witness_PlayingAndVolumesHaveTheirWriters : up.initialized = true ∧
    ¬ (formatted .bits8 .stereo).Playing ∧
    (after (.start 0x8000 0x8020 16 1 0) (formatted .bits8 .stereo)).Playing ∧ (playing .bits8 .mono).Playing ∧
    ¬ (after .stop (playing .bits8 .mono)).Playing := by
  refine ⟨rfl, fun ⟨cb, h, hn⟩ => hn (Option.some.inj h).symm, ⟨1, by decide +kernel, by decide⟩,
    ⟨1, rfl, by decide⟩, fun ⟨cb, h, hn⟩ => ?_⟩
  have h0 : (after .stop (playing .bits8 .mono)).dev.callback = some 0 := by decide +kernel
  exact hn (Option.some.inj (h.symm.trans h0))

theorem witness_OnlyInterruptClearsIrqPending : let s := (playing .bits16 .stereo).setIrq true
    s.cfg.offEnable ≠ s.cfg.offIntrClear ∧ s.irqPending = true ∧ (after .interrupt s).irqPending = false := by
  decide +kernel

/-- An INTERRUPT with one E_CALLBACK, a REFILL with none. -/
theorem witness_BlockNeverWritesHostMemory :
    let s := withSink [[⟨0x8001, 9⟩]] (withRamp 0x8000 16 (playing .bits16 .stereo))
    s.host.wf = true ∧ exec .interrupt s = .next (after .interrupt s) ∧
      ((after .interrupt s).events.filter Event.isCallback).length = 1 ∧
      ((after .refill s).events.filter Event.isCallback).length = 0 ∧ HostNoWrite (span 0x8002 14) s := by
  refine ⟨by decide, exec_after _ _, by decide +kernel, by decide +kernel, fun a ha ⟨slot, hs, w, hw, h⟩ => ?_⟩
  obtain rfl := List.mem_singleton.mp hs
  obtain rfl := List.mem_singleton.mp hw
  subst h
  exact absurd ha.1 (by decide)

theorem witness_RegisterBlockWriters :
    (.regWrite 0 1 ∈ (after .init (fresh paramsS)).events ∧ .regWrite 0 0 ∈ (after .init (fresh paramsS)).events) ∧
    .regWrite 4 2 ∈ (after .interrupt (playing .bits16 .stereo)).events := by decide +kernel

theorem witness_EveryBurstIsGuarded : up.cfg.Valid ∧ BurstsGuarded 8 (offered [4] up).events ∧
    step (offered [4] up) = .next (afterStep (offered [4] up)) ∧
    .shWrite 0x7F00 0x12 true ∈ (afterStep (offered [4] up)).events :=
  ⟨validT, (by intro newer off v e older h; cases newer <;> cases h), step_after rfl, by decide +kernel⟩

theorem witness_WaitReady : 1 ≤ up.cfg.waitLimit ∧ up.sh.wf = true := by decide

theorem witness_SharedMemoryWordAccess : up.sh.wf = true ∧ 0x7FFD % 4 ≠ 0 ∧ up.cfg.shmemSize < 0x8000 + 4 ∧
    0x7FFC % 4 = 0 ∧ 0x7FFC + 4 ≤ up.cfg.shmemSize ∧ (fresh paramsT).gateOk = none ∧ up.gateOk = some true ∧
    (up.setGate false).gateOk = some false ∧ up.inp.bytes = 0x5A :: 0x5A :: 0x5A :: 0x5A :: List.replicate 4 0x5A := by
  decide

theorem witness_RegisterWrite : up.cfg.enableValue ≠ up.cfg.disableValue ∧ up.cfg.regsSize < 0xFD + 4 ∧
    0xFC + 4 ≤ up.cfg.regsSize ∧ up.cfg.offEnable + 4 ≤ up.cfg.regsSize ∧
    up.cfg.offIntrClear + 4 ≤ up.cfg.regsSize := by decide

theorem witness_HostMemoryRead : 2 ^ 32 < 0xFFFFFFFF + 2 ∧ 0xFFFFFFFF + 1 ≤ 2 ^ 32 := by decide

theorem witness_BadWriterOperandsFault : (0x2003 : Word).toNat % 4 ≠ 0 ∧ (0x2004 : Word).toNat % 4 = 0 ∧
    (1 : Word).toNat % 2 ≠ 0 := by decide

theorem witness_ZeroLengthIsANoOp : (0xFFFFFFFC : Word).toNat % 4 = 0 := by decide

theorem witness_WriteBlockCopies : let s := withRamp 0x100 8 up
    s.sh.wf = true ∧ (0x7FF8 : Word).toNat % 4 = 0 ∧
      (0x7FF8 : Word).toNat + 4 * (((6 : Word).toNat + 3) / 4) ≤ s.cfg.shmemSize ∧
      (0xFFFFFFFA : Word).toNat + (6 : Word).toNat ≤ 2 ^ 32 ∧
      .gate false ∉ (after (.writeBlock 0x7FF8 0xFFFFFFFA 6) s).events ∧ s.inp.moves = [] := by decide +kernel

theorem witness_WriteBlockFaultsAtTheFirstBadWord : (0x7FFC : Word).toNat % 4 = 0 ∧ 4 * 1 < (8 : Word).toNat ∧
    (∀ k, k < 1 → (0x100 : Word).toNat + 4 * k + min 4 ((8 : Word).toNat - 4 * k) ≤ 2 ^ 32 ∧
      (0x7FFC : Word).toNat + 4 * k + 4 ≤ up.cfg.shmemSize) ∧
    ((0x100 : Word).toNat + 4 * 1 + min 4 ((8 : Word).toNat - 4 * 1) ≤ 2 ^ 32 ∧
      up.cfg.shmemSize < (0x7FFC : Word).toNat + 4 * 1 + 4) ∧
    2 ^ 32 < (0xFFFFFFFE : Word).toNat + 4 * 0 + min 4 ((4 : Word).toNat - 4 * 0) := by decide

theorem witness_WriteDeint16Completes : (0x7FFC : Word).toNat % 4 = 0 ∧ (2 : Word).toNat % 2 = 0 ∧
    (0x7FFC : Word).toNat + 4 * (((2 : Word).toNat / 2 + 1) / 2) ≤ up.cfg.shmemSize ∧
    (0xFFFFFFFE : Word).toNat + 2 * (2 : Word).toNat ≤ 2 ^ 32 + 2 := by decide

theorem witness_WriteDeint8Completes : (0x7FFC : Word).toNat % 4 = 0 ∧
    (0x7FFC : Word).toNat + 4 * ((7 : Word).toNat / 4) ≤ up.cfg.shmemSize ∧
    (0xFFFFFFF3 : Word).toNat + 2 * (7 : Word).toNat ≤ 2 ^ 32 + 1 := by decide

theorem witness_DeinterleaveIsCorrect : let s := withRamp 0x100 32 up
    let t16 := after (.writeDeint16 0x2000 0x102 6) s
    let t8 := after (.writeDeint8 0x2000 0x101 7) s
    s.sh.wf = true ∧ .gate false ∉ t16.events ∧ t16.result = some ⟨.ok, []⟩ ∧
      .gate false ∉ t8.events ∧ t8.result = some ⟨.ok, []⟩ ∧ (0x102 : Word).toNat = 0x100 + 2 * 1 ∧
      (0x101 : Word).toNat = 0x100 + 1 ∧ s.inp.moves = [] := by decide +kernel

theorem witness_SendCommandAnnouncesTheCommand : up.cfg.Valid ∧ up.sh.wf = true ∧
    .gate false ∉ (after (.sendCommand 0x12) up).events ∧ CoprocNoWrite (commandSpan up.cfg) up :=
  ⟨validT, by decide, by decide +kernel, quiet rfl _⟩

theorem witness_SendParamWritesParametersFirst : up.cfg.Valid ∧ up.sh.wf = true ∧
    .gate false ∉ (after (.sendParam 0x14 10 20) up).events ∧ CoprocNoWrite (paramSpan up.cfg) up :=
  ⟨validT, by decide, by decide +kernel, quiet rfl _⟩

theorem witness_CommandsInInterruptFault : (up.beginOp .intr .interrupt).active = some (.intr, .interrupt) := rfl

theorem witness_SetFormat : up.dev.callback = some 0 ∧ (playing .bits8 .mono).dev.callback = some 1 ∧
    ¬ ((12 : Word) = 8 ∨ (12 : Word) = 16) ∧ ¬ ((3 : Word) = 1 ∨ (3 : Word) = 2) ∧
    ¬ (65537 : Word).toNat ≤ 65536 ∧ ¬ up.cfg.rateMin ≤ (3999 : Word).toNat ∧ up.cfg.rateMin ≤ (4000 : Word).toNat ∧
    (65536 : Word).toNat ≤ 65536 := by decide

theorem witness_StartChecksInOrder : let s := formatted .bits16 .stereo
    (playing .bits16 .stereo).dev.callback = some 1 ∧ up.dev.precision = none ∧
    (s.setDev { s.dev with channels := none }).dev.channels = none ∧
    (s.setDev { s.dev with rate := none }).dev.rate = none ∧ s.dev.callback = some 0 ∧ s.dev.precision ≠ none ∧
    s.dev.channels = some .stereo ∧ s.dev.rate ≠ none ∧ (1 : Word).toNat % Channels.toNat .stereo ≠ 0 ∧
    (0x8000 : Word).toNat ≤ (0x8000 : Word).toNat ∧
    ((0x8C01 : Word).toNat - (0x8000 : Word).toNat) % (1024 : Word).toNat ≠ 0 := by decide

/-- A block size, bounds and a sink that meet R236 in instance T, at their smallest. -/
theorem fits (c : Channels) : StartFits paramsT c 0x8000 0x8010 8 1 := by
  cases c <;> constructor <;> decide

theorem witness_StartCompletes : let s := formatted .bits16 .stereo
    s.cfg.Valid ∧ s.sh.wf = true ∧ s.dev.callback = some 0 ∧ s.dev.precision = some .bits16 ∧
      s.dev.channels = some .stereo ∧ s.dev.rate = some 44100 ∧ StartFits s.cfg .stereo 0x8000 0x8010 8 1 :=
  ⟨validT, by decide, rfl, rfl, rfl, rfl, fits _⟩

theorem witness_StartPrimesBeforePlay : let s := formatted .bits8 .mono
    s.cfg.Valid ∧ s.dev.callback = some 0 ∧ s.dev.precision = some .bits8 ∧ s.dev.channels = some .mono ∧
      s.dev.rate = some 44100 ∧ StartFits s.cfg .mono 0x8000 0x8010 8 1 := ⟨validT, rfl, rfl, rfl, rfl, fits _⟩

theorem witness_PlaySlotValues : let s := formatted .bits8 .stereo
    s.cfg.Valid ∧ exec (.start 0x8000 0x8010 8 1 7) s = .next (after (.start 0x8000 0x8010 8 1 7) s) ∧
      (after (.start 0x8000 0x8010 8 1 7) s).result = some ⟨.ok, []⟩ ∧
      .gate false ∉ (after (.start 0x8000 0x8010 8 1 7) s).events ∧ CoprocNoWrite (playSpan s.cfg) s ∧
      ∀ a, span s.cfg.offSerial 4 a → ¬ refillSpan s.cfg .bits8 .stereo 8 0 a ∧
        ¬ refillSpan s.cfg .bits8 .stereo 8 (8 / 2) a := by
  refine ⟨validT, exec_after _ _, by decide +kernel, by decide +kernel, quiet rfl _, fun a h => ?_⟩
  simp only [span, refillSpan, refillBytes, deint8Bytes, formatted, up, fresh, paramsT] at h ⊢
  omega

/-- What a refill reads in the states of these tests. -/
theorem reads (p : Precision) (c : Channels) : RefillReads (playing p c).dev p c 16 0 0x8000 0x8000 0x8020 := by
  constructor <;> rfl

theorem refillFits (p : Precision) (c : Channels) : RefillFits paramsT p c 16 0 0x8000 := by
  cases p <;> cases c <;> constructor <;> decide

theorem witness_RefillCompletes : let s := playing .bits16 .stereo
    s.sh.wf = true ∧ RefillReads s.dev .bits16 .stereo 16 0 0x8000 0x8000 0x8020 ∧
      RefillFits s.cfg .bits16 .stereo (16 : Word).toNat (0 : Word).toNat (0x8000 : Word).toNat ∧
      ¬ (0x8020 : Word).toNat ≤ (0x8000 : Word).toNat + (16 : Word).toNat ∧
      (0x8020 : Word).toNat ≤ (0x8010 : Word).toNat + (16 : Word).toNat :=
  ⟨by decide, reads _ _, refillFits _ _, by decide, by decide⟩

theorem witness_RefillNeedsItsFields : firstUnset up.dev = some .precision ∧
    firstUnset (formatted .bits8 .mono).dev = some .blockSize ∧
    firstUnset { (playing .bits8 .mono).dev with bufferEnd := none } = some .bufferEnd := by decide

theorem witness_RefillLayout (p : Precision) (c : Channels) : let s := withRamp 0x8000 16 (playing p c)
    s.sh.wf = true ∧ RefillReads s.dev p c 16 0 0x8000 0x8000 0x8020 ∧
      (after .refill s).result = some ⟨.ok, []⟩ ∧ .gate false ∉ (after .refill s).events ∧
      (after .interrupt s).result = some ⟨.handled, []⟩ ∧ .gate false ∉ (after .interrupt s).events ∧
      CoprocNoWrite (refillSpan s.cfg p c 16 0) s ∧
      (∀ a, span (s.cfg.leftBase + 0) (refillBytes p c 16) a → c = .stereo →
        ¬ span (s.cfg.rightBase + 0) (refillBytes p c 16) a) ∧ 0 < 16 / 4 ∧ 0 < 4 * (16 / 8) := by
  refine ⟨?_, reads p c, ?_, ?_, ?_, ?_, quiet ?_ _, ?_, by decide, by decide⟩
  any_goals (cases p <;> cases c <;> decide +kernel)
  intro a h hc h'
  subst hc
  have hb : refillBytes p .stereo 16 ≤ 8 := by cases p <;> decide
  simp only [span, withRamp, playing, formatted, up, fresh, paramsT, State.setHost_cfg] at h h'
  omega

theorem witness_StartLayout (p : Precision) (c : Channels) : let s := withRamp 0x8000 16 (formatted p c)
    let i := Instr.start 0x8000 0x8010 8 1 7
    s.cfg.Valid ∧ s.sh.wf = true ∧ s.dev.precision = some p ∧ s.dev.channels = some c ∧
      StartFits s.cfg c 0x8000 0x8010 8 1 ∧ ¬ (0x8010 : Word).toNat ≤ (0x8000 : Word).toNat + (8 : Word).toNat ∧
      (0x8008 : Word).toNat ≤ (0x8000 : Word).toNat + (8 : Word).toNat ∧ exec i s = .next (after i s) ∧
      (after i s).result = some ⟨.ok, []⟩ ∧ .gate false ∉ (after i s).events ∧
      CoprocNoWrite (halvesSpan s.cfg c 8) s ∧
      (∀ a, c = .stereo → span s.cfg.leftBase (2 * halfSize 8 c) a → ¬ span s.cfg.rightBase (2 * halfSize 8 c) a) ∧
      (∀ a, halvesSpan s.cfg c 8 a → ¬ playSpan s.cfg a) := by
  have hh : halfSize 8 c ≤ 8 := by cases c <;> decide
  refine ⟨validT, ?_, rfl, rfl, fits c, by decide, by decide, exec_after _ _, ?_, ?_, quiet ?_ _,
    fun a _ h h' => ?_, fun a h h' => ?_⟩
  any_goals (cases p <;> cases c <;> decide +kernel)
  all_goals
    simp only [halvesSpan, playSpan, commandSpan, span, withRamp, formatted, up, fresh, paramsT, State.setHost_cfg] at h h'
    omega

/-- A REFILL that begins after a signal; the coprocessor reads the word at 0 while it runs. -/
def consuming : State :=
  withMoves [[.coprocRead 0]] { playing .bits16 .stereo with moved := [(0, .raiseIrq)] }

theorem consuming_moved : (refill consuming).state.moved = [(0, .coprocRead 0), (0, .raiseIrq)] := by decide +kernel

theorem witness_NoWordOfTheHalfBeingRefilledIsRead : let r := playing .bits16 .stereo
    let s := consuming
    RefillReads s.dev .bits16 .stereo 16 0 0x8000 0x8000 0x8020 ∧ (16 : Word).toNat % (4 * Channels.toNat .stereo) = 0 ∧
      RegionFits s ∧ halfSpan s.cfg .stereo 16 0 0x4007 ∧ halfSpan s.cfg .stereo 16 8 0x200F ∧
      RefillBeforeConsume r s ∧ .shWrite 0x2000 0 true ∈ (refill s).state.events ∧ s.events = [] ∧
      SignalledBefore r s (refill s).state (.coprocRead 0) := by
  refine ⟨reads _ _, by decide, ?_, .inr ⟨rfl, by decide, by decide⟩, .inl ⟨by decide, by decide⟩, ?_, by decide +kernel,
    rfl, [], [], [], 0, 0, consuming_moved, by decide, by decide⟩
  · intro b c hb hc
    obtain rfl := Option.some.inj hb
    obtain rfl := Option.some.inj hc
    decide
  · intro c b o off hc hb ho ⟨newer, between, older, k, n, hm, _⟩ a ha h
    obtain rfl := Option.some.inj hc
    obtain rfl := Option.some.inj hb
    obtain rfl := Option.some.inj ho
    have hmem : (n, EnvMove.coprocRead off) ∈ (refill consuming).state.moved := by rw [hm]; simp
    rw [consuming_moved] at hmem
    have hoff : off = 0 := (show n = 0 ∧ off = 0 by simpa using hmem).2
    subst hoff
    simp only [halfSpan, span, consuming, withMoves, State.setInp_cfg, playing, formatted, up, fresh, paramsT] at ha h
    omega

theorem witness_ToggleLaw : let s := formatted .bits8 .stereo
    let t := after (.start 0x8000 0x8020 16 1 7) s
    s.dev.channels = some .stereo ∧ exec (.start 0x8000 0x8020 16 1 7) s = .next t ∧ t.fault = none ∧
      Interrupts 1 t (after .interrupt t) :=
  ⟨rfl, exec_after _ _, by decide +kernel, _, exec_after _ _, by decide +kernel, rfl⟩

theorem witness_WrapLaw : let s := formatted .bits8 .mono
    let t := after (.start 0x8000 0x8008 8 1 7) s
    exec (.start 0x8000 0x8008 8 1 7) s = .next t ∧ t.fault = none ∧ Refills 1 t (after .refill t) ∧
      1 = ((0x8008 : Word).toNat - (0x8000 : Word).toNat) / (8 : Word).toNat :=
  ⟨exec_after _ _, by decide +kernel, ⟨_, .inl (exec_after _ _), by decide +kernel, rfl⟩, by decide⟩

theorem witness_StopCompletes : up.cfg.Valid ∧ up.sh.wf = true ∧
    .gate false ∉ (after .stop up).events ∧ CoprocNoWrite (commandSpan up.cfg) up :=
  ⟨validT, by decide, by decide +kernel, quiet rfl _⟩

theorem witness_MixerSetCompletes : up.cfg.Valid ∧ up.sh.wf = true ∧ (255 : Word).toNat ≤ 255 ∧
    (0 : Word).toNat ≤ 255 ∧ .gate false ∉ (after (.mixerSet 0 1 255 0) up).events ∧
    .gate false ∉ (after (.mixerSet 1 2 255 0) up).events ∧ CoprocNoWrite (paramSpan up.cfg) up :=
  ⟨validT, by decide, by decide, by decide, by decide +kernel, by decide +kernel, quiet rfl _⟩

theorem witness_WrongMixerIndexIsInvalid : (2 : Word) ≠ 0 ∧ (2 : Word) ≠ 1 ∧ (3 : Word) ≠ 0 ∧ (3 : Word) ≠ 1 ∧
    (3 : Word) ≠ 2 ∧ (2 : Word) ≠ 1 ∧ (1 : Word) ≠ 2 := by decide

theorem witness_MixerGet : up.dev.outputMaster = some 255 ∧ up.dev.outputGainLeft = some 255 ∧
    up.dev.outputGainRight = some 255 ∧ (2 : Word) ≠ 0 ∧ (2 : Word) ≠ 1 := by decide

theorem witness_InterruptRefillsNotifiesAcknowledges : let s := (playing .bits16 .stereo).setIrq true
    s.cfg.Valid ∧ s.sh.wf = true ∧ s.host.wf = true ∧ RefillReads s.dev .bits16 .stereo 16 0 0x8000 0x8000 0x8020 ∧
      RefillFits s.cfg .bits16 .stereo (16 : Word).toNat (0 : Word).toNat (0x8000 : Word).toNat ∧
      s.dev.callback = some 1 ∧ s.dev.callbackArg = some 7 ∧ (stopped .bits16 .stereo).dev.callback = some 0 ∧
      s.cfg.offEnable ≠ s.cfg.offIntrClear ∧ NoIrqMoves s :=
  ⟨validT, by decide, by decide, reads _ _, refillFits _ _, rfl, rfl, rfl, by decide, by rintro ⟨_, h, _⟩; cases h⟩

theorem witness_FaultedInterruptStaysPending : Inv (up.setIrq true) ∧ (up.setIrq true).cfg.Valid ∧
    (up.setIrq true).initialized = true ∧ (up.setIrq true).fault = none ∧ (up.setIrq true).irqPending = true ∧
    exec .interrupt (up.setIrq true) = .next (after .interrupt (up.setIrq true)) ∧
    (after .interrupt (up.setIrq true)).fault = some (.unset .precision) :=
  ⟨inv_like_up rfl rfl rfl rfl rfl rfl, validT, rfl, rfl, rfl, exec_after _ _, by decide⟩

theorem witness_HostQueries : let d : List Datum := [.num 0, .num 1]
    Instr.getLocks = .getLocks ∧ d = [.num 0, .num 1] := by decide

theorem witness_MixerDevinfo : let a : Result := ⟨.ok, [.num 1, .num 2, .text up.cfg.nameClass]⟩
    Instr.mixerDevinfo 2 = .mixerDevinfo 2 ∧ a = ⟨.ok, [.num 1, .num 2, .text "C"]⟩ ∧ (3 : Word) ≠ 0 ∧ (3 : Word) ≠ 1 ∧
      (3 : Word) ≠ 2 := by decide

theorem witness_RoundBuffersize : (formatted .bits8 .mono).dev.channels = some .mono ∧ up.dev.channels = none ∧
    min (70000 : Word).toNat (65536 * Channels.toNat .mono) = 65536 := by decide

theorem witness_FailedMappingKillsTheBlock : let s := fresh paramsT
    let s := s.setInp { s.inp with bools := [false] }
    s.initialized = false ∧ s.dead = false ∧ s.inp.drawBool.1 = false := by decide

theorem witness_InitRunsOnce : up.initialized = true ∧ (fresh paramsT).becomeDead.dead = true := by decide

theorem witness_InitCompletes : let s := fresh paramsS
    s.cfg.Valid ∧ s.sh.wf = true ∧ s.initialized = false ∧ s.dead = false ∧
      s.inp.drawBool.1 = true ∧ s.cfg.initVolumeCommands = false ∧ s.cfg.offEnable ≠ s.cfg.offIntrClear ∧ NoIrqMoves s :=
  ⟨validS, by decide, rfl, rfl, rfl, rfl, by decide, by rintro ⟨_, h, _⟩; cases h⟩

theorem witness_InitCompletes_volumes : let s := fresh { paramsS with initVolumeCommands := true }
    s.cfg.Valid ∧ s.sh.wf = true ∧ s.initialized = false ∧ s.dead = false ∧
      s.inp.drawBool.1 = true ∧ s.cfg.initVolumeCommands = true ∧ .gate false ∉ (after .init s).events ∧
      CoprocNoWrite (paramSpan s.cfg) s :=
  ⟨by constructor <;> decide, by decide, rfl, rfl, rfl, rfl, by decide +kernel, quiet rfl _⟩

theorem witness_InitLoadsTheImage : let s := fresh paramsS
    s.cfg.Valid ∧ s.sh.wf = true ∧ exec .init s = .next (after .init s) ∧
      (after .init s).result = some ⟨.ok, []⟩ ∧ .gate false ∉ (after .init s).events ∧
      CoprocNoWrite (fun _ => True) s ∧ 5 < s.cfg.fwImage.length ∧
      4 * ((s.cfg.fwImage.length + 3) / 4) ≤ 8 ∧ 0x7F < s.cfg.shmemSize :=
  ⟨validS, by decide, exec_after _ _, by decide +kernel, by decide +kernel, quiet rfl _, by decide,
    by decide, by decide⟩

end Sys2Proof.Tests
end

/-! The family 10_state: what every operation keeps, and the invariant every step keeps. -/

namespace Sys2Proof.Machine

variable {R : State → State → Prop} {W : Nat → Prop} {s t u : State} {i : Instr}

/-! ### Frames of all operations -/

/-- The forms the own updates of an operation take: only INIT writes the lifecycle, and every register write but
INTERRUPT's is to the enable register (R52). -/
theorem OwnUpdates.of_forms (hdev : ∀ s d, R s (s.setDev d))
    (hreg : ∀ s off v, (i ≠ .interrupt → off = s.cfg.offEnable) →
      R s ((s.emit (.regWrite off v)).writeReg off v))
    (hsink : ∀ s cb arg, R s ((s.emit (.callback cb arg)).sinkWrites))
    (hinit : i = .init → (∀ s, R s s.becomeDead) ∧ ∀ s, R s s.becomeUp) : OwnUpdates R i := by
  have hrefill : AllowsRefill R := fun s _ _ _ _ _ _ _ _ => hdev s _
  cases i with
  | init => exact ⟨fun s _ => (hinit rfl).1 s, fun s => hreg s _ _ fun _ => rfl, fun s => hreg s _ _ fun _ => rfl,
      fun s _ => (hinit rfl).2 s⟩
  | setFormat p c r => exact fun s _ _ _ _ _ _ => hdev s _
  | start bs be b sink arg => exact ⟨hrefill, fun s _ _ _ _ => hdev s _, fun s _ _ _ => hdev s _⟩
  | stop => exact fun s => hdev s _
  | refill => exact hrefill
  | interrupt => exact ⟨hrefill, hsink, fun s => hreg s _ _ fun hi => absurd rfl hi⟩
  | mixerSet => exact ⟨fun s _ => hdev s _, fun s _ _ => hdev s _⟩
  | _ => exact trivial

/-- What bus work and an operation's own updates keep, and neither its beginning nor its end writes, an operation
keeps. -/
theorem exec_keeps {α : Type} (f : State → α) (hbus : ∀ {s t}, Bus (fun _ => True) s t → f t = f s)
    (hbegin : ∀ s c i, f (s.beginOp c i) = f s) (hend : ∀ s i r, f (s.endOp i r) = f s)
    (hu : OwnUpdates (fun s t => f t = f s) i) (he : exec i s = .next t) : f t = f s := by
  have hc : Closed fun s t => f t = f s := .of_bus (fun h => hbus (h.mono fun _ _ => trivial)) fun a b => b.trans a
  obtain ⟨u, h, ⟨r, rfl, -⟩ | ⟨rfl, -⟩⟩ := exec_rel hc hu he
  · exact (hend u i r).trans (h.trans (hbegin _ _ _))
  · exact h.trans (hbegin _ _ _)

/-- How an operation ends (R200, R202, R207): with a result and the lock released, or with a fault and the lock held. -/
theorem exec_ends_or_faults (he : exec i s = .next t) :
    (t.fault = s.fault ∧ t.active = none ∧ t.position = 0) ∨ ∃ f, Faults (contextOf i) i f t := by
  have hc : Closed fun s t => t.active = s.active := .of_bus (fun h => h.active) fun a b => b.trans a
  have hu : OwnUpdates (fun s t => t.active = s.active) i :=
    .of_forms (fun _ _ => rfl) (fun _ _ _ _ => rfl) (fun _ _ _ => rfl) fun _ => ⟨fun _ => rfl, fun _ => rfl⟩
  obtain ⟨u, h, ⟨r, rfl, hf⟩ | ⟨rfl, f, hf, hr, hev⟩⟩ := exec_rel hc hu he
  · exact .inl ⟨hf, rfl, rfl⟩
  · exact .inr ⟨f, hf, h, hr, hev⟩

/-! ### The invariant -/

/-- What INIT sets is set (R25, R30). -/
def Device.IsUp (d : Device) : Prop :=
  d.outputMaster ≠ none ∧ d.outputGainLeft ≠ none ∧ d.outputGainRight ≠ none ∧ d.callback ≠ none

/-- Where the callback is NULL, a claim about a block in Playing says nothing. -/
theorem playing_of_null {d : Device} {P : Prop} (h : d.callback = some 0) :
    ∀ cb, d.callback = some cb → cb ≠ 0 → P :=
  fun _ hc hne => absurd (Option.some.inj (hc.symm.trans h)) hne

/-- The part of the invariant that holds in the middle of an operation too, where the lock and the position are the
operation's own. -/
structure BodyInv (s : State) : Prop where
  memory : MemoryInv s
  device : DeviceInv s.cfg s.dev
  lifecycle : s.initialized = true → s.dead = false
  up : s.initialized = true → s.dev.IsUp

theorem Inv.body (h : Inv s) : BodyInv s := ⟨h.memory, h.device, h.lifecycle, h.up⟩

theorem BodyInv.inv (h : BodyInv s) (hl : s.active ≠ none → s.fault ≠ none)
    (hp : s.active = none → s.position = 0) : Inv s := ⟨h.memory, h.device, hl, hp, h.lifecycle, h.up⟩

theorem MemoryInv.congr (h : MemoryInv s) (hc : t.cfg = s.cfg) (hsh : t.sh = s.sh) (hh : t.host = s.host) :
    MemoryInv t where
  sh_wf := hsh ▸ h.sh_wf
  sh_inside := hsh ▸ hc ▸ h.sh_inside
  host_wf := hh ▸ h.host_wf
  host_inside := hh ▸ h.host_inside

/-- The fields the invariant speaks of are the parameters, the Device State, the lifecycle and the memories. -/
theorem BodyInv.congr (h : BodyInv s) (hc : t.cfg = s.cfg) (hd : t.dev = s.dev) (hi : t.initialized = s.initialized)
    (hk : t.dead = s.dead) (hsh : t.sh = s.sh) (hh : t.host = s.host) : BodyInv t where
  memory := h.memory.congr hc hsh hh
  device := hc ▸ hd ▸ h.device
  lifecycle ht := hk.trans (h.lifecycle (hi.symm.trans ht))
  up ht := hd ▸ h.up (hi.symm.trans ht)

/-- Bus work keeps the invariant. -/
theorem BodyInv.bus (hb : Bus W s t) (h : BodyInv s) : BodyInv t where
  memory := by
    obtain ⟨h1, h2, h3, h4⟩ := h.memory
    exact ⟨hb.sh_wf h1, hb.keeps.cfg ▸ hb.sh_inside h2, hb.host ▸ h3, hb.host ▸ h4⟩
  device := hb.keeps.cfg ▸ hb.keeps.dev ▸ h.device
  lifecycle ht := hb.keeps.dead.trans (h.lifecycle (hb.keeps.initialized.symm.trans ht))
  up ht := hb.keeps.dev ▸ h.up (hb.keeps.initialized.symm.trans ht)

/-- The host's writes keep the canonical form and stay inside host memory. -/
theorem BodyInv.sinkWrites (h : BodyInv s) (cb arg : Word) : BodyInv (s.emit (.callback cb arg)).sinkWrites where
  memory := ⟨h.memory.sh_wf, h.memory.sh_inside, Memory.wf_writes _ h.memory.host_wf,
    fun c hc => (Memory.mem_writes _ hc).elim id (h.memory.host_inside c)⟩
  device := h.device
  lifecycle := h.lifecycle
  up := h.up

/-- A write of the Device State keeps the invariant if the new value is consistent and no field INIT sets becomes
UNSET. -/
theorem BodyInv.setDev {d : Device} (h : BodyInv s) (hd : DeviceInv s.cfg s.dev → DeviceInv s.cfg d)
    (hu : s.dev.IsUp → d.IsUp) : BodyInv (s.setDev d) :=
  ⟨h.memory.congr rfl rfl rfl, hd h.device, h.lifecycle, fun hi => hu (h.up hi)⟩

/-- The cursor after a refill lies on a block boundary inside the buffer again (R29 I1, R144, R151). -/
theorem nextCursor_inside {bs be q b : Word} (hlo : bs.toNat ≤ q.toNat) (hhi : q.toNat < be.toNat)
    (hmod : (q.toNat - bs.toNat) % b.toNat = 0) :
    bs.toNat ≤ (nextCursor bs be q b).toNat ∧ (nextCursor bs be q b).toNat < be.toNat ∧
      ((nextCursor bs be q b).toNat - bs.toNat) % b.toNat = 0 := by
  unfold nextCursor
  split
  · exact ⟨le_rfl, by omega, by simp⟩
  · have hq : (word (q.toNat + b.toNat)).toNat = q.toNat + b.toNat :=
      Nat.mod_eq_of_lt (by have := be.isLt; omega)
    have : q.toNat + b.toNat - bs.toNat = q.toNat - bs.toNat + b.toNat := by omega
    rw [hq, this, Nat.add_mod_right]
    exact ⟨by omega, by omega, hmod⟩

/-- A refill keeps the Device State consistent. -/
theorem DeviceInv.refilled {cfg : Params} {d : Device} {p : Precision} {c : Channels} {b o q bs be : Word}
    (h : DeviceInv cfg d) (hr : RefillReads d p c b o q bs be) : DeviceInv cfg (d.refilled c b o q bs be) where
  format := h.format
  buffer := by
    obtain ⟨hn, -⟩ | ⟨bs', be', q', b', o', hbs, hbe, hq, hb, ho, hpos, hlo, hhi, hlen, hmod⟩ := h.buffer
    · exact absurd (hr.bufferStart.symm.trans hn) nofun
    · obtain rfl := Option.some.inj (hbs.symm.trans hr.bufferStart)
      obtain rfl := Option.some.inj (hbe.symm.trans hr.bufferEnd)
      obtain rfl := Option.some.inj (hq.symm.trans hr.bufferCursor)
      obtain rfl := Option.some.inj (hb.symm.trans hr.blockSize)
      obtain ⟨h1, h2, h3⟩ := nextCursor_inside hlo hhi hmod
      exact .inr ⟨bs', be', _, b', _, hbs, hbe, rfl, hb, rfl, hpos, h1, h2, hlen, h3⟩
  playing cb hcb hne := by
    obtain ⟨hp, -, ha⟩ := h.playing cb hcb hne
    exact ⟨hp, nofun, ha⟩

/-- START's bounds meet its own check (R141). -/
theorem DeviceInv.bounded {cfg : Params} {d : Device} {c : Channels} {bs be b : Word} (h : DeviceInv cfg d)
    (hcb : d.callback = some 0) (hl : bufferLegal bs be b c = true) : DeviceInv cfg (d.bounded bs be b) where
  format := h.format
  buffer := by
    simp only [bufferLegal, Bool.and_eq_true, decide_eq_true_eq, beq_iff_eq] at hl
    obtain ⟨⟨⟨hpos, -⟩, hlt⟩, hlen⟩ := hl
    exact .inr ⟨bs, be, bs, b, 0, rfl, rfl, rfl, rfl, rfl, hpos, le_rfl, hlt, hlen, by simp⟩
  playing := playing_of_null hcb

/-- The invariant holds after s when it holds in s. -/
def KeepsBodyInv (s t : State) : Prop := BodyInv s → BodyInv t

theorem keepsBodyInv_closed : Closed KeepsBodyInv := .of_bus BodyInv.bus fun a b h => b (a h)

theorem keepsBodyInv_refill : AllowsRefill KeepsBodyInv := fun _ _ _ _ _ _ _ _ hr h => h.setDev (·.refilled hr) id

theorem keepsBodyInv_writeReg (s : State) (off : Nat) (v : Word) :
    KeepsBodyInv s ((s.emit (.regWrite off v)).writeReg off v) := fun h => h.congr rfl rfl rfl rfl rfl rfl

/-- Every update an operation makes keeps the invariant. -/
theorem keepsBodyInv_ownUpdates (i : Instr) : OwnUpdates KeepsBodyInv i := by
  cases i with
  | init =>
    refine ⟨fun s hi h => ?dead, fun s => keepsBodyInv_writeReg s _ _, fun s => keepsBodyInv_writeReg s _ _,
      fun s hd h => ?up⟩
    case dead => exact ⟨h.memory.congr rfl rfl rfl, h.device, fun hi' => absurd (hi.symm.trans hi') nofun, h.up⟩
    case up =>
      exact ⟨h.memory.congr rfl rfl rfl, ⟨h.device.format, h.device.buffer, playing_of_null rfl⟩, fun _ => hd,
        fun _ => ⟨nofun, nofun, nofun, nofun⟩⟩
  | setFormat p c r =>
    intro s prec chan hcb _ _ hr h
    exact h.setDev (fun hd => ⟨.inr ⟨prec, chan, r, rfl, rfl, rfl, hr⟩, hd.buffer, playing_of_null hcb⟩) id
  | start bs be b sink arg =>
    refine ⟨keepsBodyInv_refill, fun s c hcb _ hl h => h.setDev (·.bounded hcb hl) id, fun s hp hq _ h => ?_⟩
    exact h.setDev (fun hd => ⟨hd.format, hd.buffer, fun _ _ _ => ⟨hp, hq, nofun⟩⟩)
      fun ⟨hm, hl, hr, _⟩ => ⟨hm, hl, hr, nofun⟩
  | stop =>
    intro s h
    exact h.setDev (fun hd => ⟨hd.format, hd.buffer, playing_of_null rfl⟩)
      fun ⟨hm, hl, hr, _⟩ => ⟨hm, hl, hr, nofun⟩
  | refill => exact keepsBodyInv_refill
  | interrupt =>
    exact ⟨keepsBodyInv_refill, fun _ cb arg h => h.sinkWrites cb arg, fun s => keepsBodyInv_writeReg s _ _⟩
  | mixerSet =>
    refine ⟨fun s v h => h.setDev ?_ ?_, fun s l r h => h.setDev ?_ ?_⟩
    · exact fun hd => ⟨hd.format, hd.buffer, hd.playing⟩
    · exact fun ⟨_, hl, hr, hc⟩ => ⟨nofun, hl, hr, hc⟩
    · exact fun hd => ⟨hd.format, hd.buffer, hd.playing⟩
    · exact fun ⟨hm, _, _, hc⟩ => ⟨hm, nofun, nofun, hc⟩
  | _ => exact trivial

/-- Every operation keeps the invariant of its middle. -/
theorem exec_bodyInv (h : BodyInv s) (he : exec i s = .next t) : BodyInv t := by
  have hb : BodyInv (s.beginOp (contextOf i) i) := h.congr rfl rfl rfl rfl rfl rfl
  obtain ⟨u, hu, ⟨r, rfl, -⟩ | ⟨rfl, -⟩⟩ := exec_rel keepsBodyInv_closed (keepsBodyInv_ownUpdates i) he
  · exact (hu hb).congr rfl rfl rfl rfl rfl rfl
  · exact hu hb

/-- Every operation keeps the invariant, the lock and the position among it. -/
theorem exec_inv (h : BodyInv s) (he : exec i s = .next t) : Inv t := by
  refine (exec_bodyInv h he).inv ?_ ?_ <;> obtain ⟨-, ha, hp⟩ | ⟨f, hf⟩ := exec_ends_or_faults he
  · exact fun hn => absurd ha hn
  · exact fun _ hn => absurd (hf.fault.symm.trans hn) nofun
  · exact fun _ => hp
  · exact fun hn => absurd (hf.active.symm.trans hn) nofun

/-- Settles O7: at reset no memory lists a cell and every field of the Device State is UNSET. -/
theorem invAtReset : Obligations.InvAtReset where
  memory := ⟨rfl, nofun, rfl, nofun⟩
  device := ⟨.inl ⟨rfl, rfl, rfl⟩, .inl ⟨rfl, rfl, rfl, rfl, rfl⟩, nofun⟩
  lock h := absurd rfl h
  position _ := rfl
  lifecycle := nofun
  up := nofun

/-- Settles O8: the boundary moves only the environment and the inputs, and the operation after it keeps the
invariant. -/
theorem stepKeepsInv : Obligations.StepKeepsInv := by
  intro s t h hstep
  have hj (j : Inputs) : BodyInv (s.envTick.setInp j) :=
    (h.body.bus (.envTick (W := fun _ => False) s)).congr rfl rfl rfl rfl rfl rfl
  obtain ⟨-, j, -, ⟨i, he, -⟩ | rfl | ⟨f, rfl⟩⟩ := step_cases hstep
  · exact exec_inv (hj j) he
  · exact (hj j).inv (by simpa using h.lock) (by simpa using h.position)
  · refine ((hj j).bus ((Bus.envTick (W := fun _ => False) _).trans (.recordFault f))).inv (fun _ => nofun) ?_
    simpa using h.position

/-! ### The end of an operation -/

theorem advances_ownUpdates (i : Instr) : OwnUpdates AdvancesOrFaults i :=
  .of_forms (fun _ _ hf => .inl ⟨hf, [], rfl, rfl⟩) (fun _ off v _ hf => .inl ⟨hf, [.regWrite off v], rfl, rfl⟩)
    (fun _ cb arg hf => .inl ⟨hf, [.callback cb arg], rfl, rfl⟩)
    fun _ => ⟨fun _ hf => .inl ⟨hf, [], rfl, rfl⟩, fun _ hf => .inl ⟨hf, [], rfl, rfl⟩⟩

/-- Settles O14: the history and the position advance together from the beginning of an operation to its end or its
fault. -/
theorem operationsEndOrFault : Obligations.OperationsEndOrFault := by
  intro i s hs
  obtain ⟨t, he⟩ : ∃ t, exec i s = .next t := ⟨_, exec_eq i s⟩
  obtain ⟨u, hadv, hend⟩ := exec_rel advances_closed (advances_ownUpdates i) he
  refine ⟨t, he, ?_⟩
  rcases hadv hs with ⟨hu, es, hes, -⟩ | ⟨v, f, ⟨es, hes, hpos⟩, rfl⟩
  · obtain ⟨r, rfl, -⟩ | ⟨rfl, f, hf, -⟩ := hend
    · exact .inl ⟨hu, rfl, r, es, rfl, congrArg _ hes⟩
    · exact absurd (hf.symm.trans hu) nofun
  · obtain ⟨r, -, hf⟩ | ⟨rfl, -⟩ := hend
    · exact absurd (hf.trans hs) nofun
    · obtain ⟨hf, -⟩ | ⟨f', hf'⟩ := exec_ends_or_faults he
      · exact absurd (hf.trans hs) nofun
      · exact .inr ⟨f, es, ⟨rfl, hf'.active, rfl, rfl⟩, hpos.trans (Nat.zero_add _), congrArg _ hes⟩

/-- An operation that raises a fault at once does nothing else. -/
theorem exec_of_raise {f : BlockFault}
    (h : bodyOf i (s.beginOp (contextOf i) i) = raise f (s.beginOp (contextOf i) i)) :
    exec i s = .next (stopped i f s) := by
  rw [exec_eq, runOp_eq, h]
  rfl

/-! ### Who writes the lifecycle and the Device State -/

/-- Settles O15: of the updates of all operations, only INIT's own write the lifecycle. -/
theorem onlyInitChangesTheLifecycle : Obligations.OnlyInitChangesTheLifecycle := by
  intro i s t he
  have hinputs : (t.cfg, t.inp.port, t.inp.turns) = (s.cfg, s.inp.port, s.inp.turns) :=
    exec_keeps (fun s => (s.cfg, s.inp.port, s.inp.turns))
      (fun h => by simp only [h.keeps.cfg, h.keeps.port, h.keeps.turns]) (fun _ _ _ => rfl) (fun _ _ _ => rfl)
      (.of_forms (fun _ _ => rfl) (fun _ _ _ _ => rfl) (fun _ _ _ => rfl) fun _ => ⟨fun _ => rfl, fun _ => rfl⟩) he
  refine ⟨fun hi => ?_, by simpa using hinputs⟩
  have hlife : (t.initialized, t.dead) = (s.initialized, s.dead) :=
    exec_keeps (fun s => (s.initialized, s.dead)) (fun h => by simp only [h.keeps.initialized, h.keeps.dead])
      (fun _ _ _ => rfl) (fun _ _ _ => rfl)
      (.of_forms (fun _ _ => rfl) (fun _ _ _ _ => rfl) (fun _ _ _ => rfl) fun h => absurd h hi) he
  simpa using hlife

/-- What an operation keeps of the Device State, if bus work aside its own updates keep it. -/
theorem exec_keeps_dev {α : Type} (g : Device → α) (hu : OwnUpdates (fun s t => g t.dev = g s.dev) i)
    (he : exec i s = .next t) : g t.dev = g s.dev :=
  exec_keeps (fun s => g s.dev) (fun h => congrArg g h.keeps.dev) (fun _ _ _ => rfl) (fun _ _ _ => rfl) hu he

/-- The format of the Device State (R22 to R24). -/
def Device.format (d : Device) : Option Precision × Option Channels × Option Word := (d.precision, d.channels, d.rate)

/-- The volumes of the Device State (R25). -/
def Device.volumes (d : Device) : Option Byte × Option Byte × Option Byte :=
  (d.outputMaster, d.outputGainLeft, d.outputGainRight)

/-- Only SET_FORMAT writes the format. -/
theorem exec_format (hi : ∀ p c r, i ≠ .setFormat p c r) (he : exec i s = .next t) :
    t.dev.format = s.dev.format := by
  have hrefill : AllowsRefill fun s t => t.dev.format = s.dev.format := fun _ _ _ _ _ _ _ _ _ => rfl
  refine exec_keeps_dev Device.format ?_ he
  cases i with
  | init => exact ⟨fun _ _ => rfl, fun _ => rfl, fun _ => rfl, fun _ _ => rfl⟩
  | setFormat p c r => exact absurd rfl (hi p c r)
  | start => exact ⟨hrefill, fun _ _ _ _ _ => rfl, fun _ _ _ _ => rfl⟩
  | stop => exact fun _ => rfl
  | refill => exact hrefill
  | interrupt => exact ⟨hrefill, fun _ _ _ => rfl, fun _ => rfl⟩
  | mixerSet => exact ⟨fun _ _ => rfl, fun _ _ _ => rfl⟩
  | _ => exact trivial

/-- Only MIXER_SET and INIT write the volumes. -/
theorem exec_volumes (hinit : i ≠ .init) (hset : ∀ x n v0 v1, i ≠ .mixerSet x n v0 v1) (he : exec i s = .next t) :
    t.dev.volumes = s.dev.volumes := by
  have hrefill : AllowsRefill fun s t => t.dev.volumes = s.dev.volumes := fun _ _ _ _ _ _ _ _ _ => rfl
  refine exec_keeps_dev Device.volumes ?_ he
  cases i with
  | init => exact absurd rfl hinit
  | setFormat => exact fun _ _ _ _ _ _ _ => rfl
  | start => exact ⟨hrefill, fun _ _ _ _ _ => rfl, fun _ _ _ _ => rfl⟩
  | stop => exact fun _ => rfl
  | refill => exact hrefill
  | interrupt => exact ⟨hrefill, fun _ _ _ => rfl, fun _ => rfl⟩
  | mixerSet x n v0 v1 => exact absurd rfl (hset x n v0 v1)
  | _ => exact trivial

/-- Only INIT, START and STOP write the callback. -/
theorem exec_callback (hinit : i ≠ .init) (hstart : ∀ bs be b sink arg, i ≠ .start bs be b sink arg)
    (hstop : i ≠ .stop) (he : exec i s = .next t) : t.dev.callback = s.dev.callback := by
  have hrefill : AllowsRefill fun s t => t.dev.callback = s.dev.callback := fun _ _ _ _ _ _ _ _ _ => rfl
  refine exec_keeps_dev Device.callback ?_ he
  cases i with
  | init => exact absurd rfl hinit
  | setFormat => exact fun _ _ _ _ _ _ _ => rfl
  | start bs be b sink arg => exact absurd rfl (hstart bs be b sink arg)
  | stop => exact absurd rfl hstop
  | refill => exact hrefill
  | interrupt => exact ⟨hrefill, fun _ _ _ => rfl, fun _ => rfl⟩
  | mixerSet => exact ⟨fun _ _ => rfl, fun _ _ _ => rfl⟩
  | _ => exact trivial

/-- The check for Idle that SET_FORMAT and START begin with raises a fault unless the callback is NULL (R140, R141). -/
theorem idle_check {β : Type} {f : BlockFault} {k : Word → Unit → State → Exit β}
    (h : s.dev.callback ≠ some 0) :
    ∃ f', ((readField .callback s.dev.callback s).bind fun cb s => (require (!isPlaying cb) f s).bind (k cb)) =
      raise f' s := by
  cases hcb : s.dev.callback with
  | none => exact ⟨_, rfl⟩
  | some cb =>
    have hp : isPlaying cb = true := by simpa [isPlaying, hcb] using h
    exact ⟨f, by rw [readField_some, Exit.bind_ok, hp]; rfl⟩

theorem setFormat_not_idle {p c r : Word} (h : s.dev.callback ≠ some 0) : ∃ f, setFormat p c r s = raise f s :=
  idle_check h

theorem start_not_idle {bs be b sink arg : Word} (h : s.dev.callback ≠ some 0) :
    ∃ f, start bs be b sink arg s = raise f s := idle_check h

/-- An INIT on an initialized block raises a fault at once (R232). -/
theorem initBody_of_initialized (h : s.initialized = true) : initBody s = raise .reinit s := by
  simp only [initBody, h, Bool.not_true, Bool.false_and, require_false, raise_bind]

/-- A fault raised at once leaves the Device State. -/
theorem exec_dev_of_raise {f : BlockFault} (he : exec i s = .next t)
    (h : bodyOf i (s.beginOp (contextOf i) i) = raise f (s.beginOp (contextOf i) i)) : t.dev = s.dev := by
  obtain rfl := Host.Outcome.next.inj ((exec_of_raise h).symm.trans he)
  simp [stopped]

/-- A SET_FORMAT begun with a callback other than NULL leaves the Device State. -/
theorem exec_setFormat_not_idle {p c r : Word} (h : s.dev.callback ≠ some 0)
    (he : exec (.setFormat p c r) s = .next t) : t.dev = s.dev :=
  have ⟨_, hf⟩ := setFormat_not_idle (s := s.beginOp .control (.setFormat p c r)) h
  exec_dev_of_raise he (congrArg (finish resultOk) hf)

/-- A START begun with a callback other than NULL leaves the Device State. -/
theorem exec_start_not_idle {bs be b sink arg : Word} (h : s.dev.callback ≠ some 0)
    (he : exec (.start bs be b sink arg) s = .next t) : t.dev = s.dev :=
  have ⟨_, hf⟩ := start_not_idle (s := s.beginOp .control (.start bs be b sink arg)) h
  exec_dev_of_raise he (congrArg (finish resultOk) hf)

/-- An INIT on an initialized block leaves the Device State. -/
theorem exec_init_of_initialized (h : s.initialized = true) (he : exec .init s = .next t) : t.dev = s.dev :=
  exec_dev_of_raise he (initBody_of_initialized (s := s.beginOp .control .init) h)

/-- STOP does not enter Playing. -/
theorem exec_stop_playing (he : exec .stop s = .next t) (ht : t.Playing) : s.Playing := by
  have hc : Closed fun s t => t.Playing → s.Playing :=
    .of_bus (fun h => by simp only [State.Playing, h.keeps.dev, imp_self]) fun a b => a ∘ b
  have hu : OwnUpdates (fun s t => t.Playing → s.Playing) .stop := fun _ ⟨cb, h, hne⟩ =>
    playing_of_null rfl cb h hne
  obtain ⟨u, h, ⟨r, rfl, -⟩ | ⟨rfl, -⟩⟩ := exec_rel hc hu he <;> exact h ht

/-- Settles O16: SET_FORMAT alone writes the format, after its check for Idle. -/
theorem formatChangesOnlyWhileIdle : Obligations.FormatChangesOnlyWhileIdle := by
  intro i s t he
  have hfields (h : t.dev.format = s.dev.format) :
      t.dev.precision = s.dev.precision ∧ t.dev.channels = s.dev.channels ∧ t.dev.rate = s.dev.rate := by
    simpa [Device.format] using h
  by_cases hi : ∃ p c r, i = .setFormat p c r
  · obtain ⟨p, c, r, rfl⟩ := hi
    by_cases hcb : s.dev.callback = some 0
    · exact .inr ⟨p, c, r, rfl, hcb⟩
    · exact .inl (hfields (congrArg _ (exec_setFormat_not_idle hcb he)))
  · exact .inl (hfields (exec_format (fun p c r h => hi ⟨p, c, r, h⟩) he))

theorem State.Playing.congr (h : t.dev.callback = s.dev.callback) : t.Playing ↔ s.Playing := by
  simp only [State.Playing, h]

theorem State.Playing.not_null : s.Playing → s.dev.callback ≠ some 0 :=
  fun ⟨cb, hcb, hne⟩ h => playing_of_null h cb hcb hne

/-- Settles O17: INIT raises a fault at once, START unless it begins in Idle, and STOP does not enter Playing. -/
theorem playingAndVolumesHaveTheirWriters : Obligations.PlayingAndVolumesHaveTheirWriters := by
  intro i s t hup he
  refine ⟨fun hset => ?_, ?_⟩
  · have hv : t.dev.volumes = s.dev.volumes := by
      by_cases hi : i = .init
      · subst hi
        exact congrArg _ (exec_init_of_initialized hup he)
      · exact exec_volumes hi hset he
    simpa [Device.volumes] using hv
  · have hkept (h : t.dev.callback = s.dev.callback) {P Q : Prop} : (¬ s.Playing → t.Playing → P) ∧
        (s.Playing → ¬ t.Playing → Q) :=
      ⟨fun hs ht => absurd ((State.Playing.congr h).mp ht) hs,
        fun hs ht => absurd ((State.Playing.congr h).mpr hs) ht⟩
    by_cases hinit : i = .init
    · subst hinit
      exact hkept (congrArg _ (exec_init_of_initialized hup he))
    by_cases hstart : ∃ bs be b sink arg, i = .start bs be b sink arg
    · by_cases hcb : s.dev.callback = some 0
      · exact ⟨fun _ _ => ⟨hcb, hstart⟩, fun hs => absurd hcb hs.not_null⟩
      · obtain ⟨bs, be, b, sink, arg, rfl⟩ := hstart
        exact hkept (congrArg _ (exec_start_not_idle hcb he))
    by_cases hstop : i = .stop
    · subst hstop
      exact ⟨fun hs ht => absurd (exec_stop_playing he ht) hs, fun _ _ => rfl⟩
    exact hkept (exec_callback hinit (fun bs be b sink arg h => hstart ⟨bs, be, b, sink, arg, h⟩) hstop he)

/-! ### The pending bit -/

/-- The pending bit, if set in s, is set in t. -/
def KeepsIrq (s t : State) : Prop := s.irqPending = true → t.irqPending = true

theorem keepsIrq_closed : Closed KeepsIrq := .of_bus (fun h => h.keeps.irq) fun a b => b ∘ a

/-- The parameters stay, and the pending bit with them where the two registers are apart. -/
def KeepsIrqApart (s t : State) : Prop :=
  t.cfg = s.cfg ∧ (s.cfg.offEnable ≠ s.cfg.offIntrClear → KeepsIrq s t)

/-- A write to another register than the status-clear register leaves the pending bit. -/
theorem writeReg_irqPending {off : Nat} {v : Word} (h : off ≠ s.cfg.offIntrClear) :
    (s.writeReg off v).irqPending = s.irqPending := by
  have hc : (off == s.cfg.offIntrClear && v == s.cfg.ackValue) = false := by simp [h]
  simp only [State.writeReg, hc, Bool.false_eq_true, if_false]

/-- No operation but INTERRUPT clears the pending bit, if the enable register is another than the status-clear
register. -/
theorem exec_keepsIrq (hi : i ≠ .interrupt) (hne : s.cfg.offEnable ≠ s.cfg.offIntrClear) (he : exec i s = .next t) :
    KeepsIrq s t := by
  have hc : Closed KeepsIrqApart := .of_bus (fun h => ⟨h.keeps.cfg, fun _ => h.keeps.irq⟩)
    fun ⟨c, a⟩ ⟨c', b⟩ => ⟨c'.trans c, fun h hq => b (c ▸ h) (a h hq)⟩
  have hu : OwnUpdates KeepsIrqApart i := .of_forms (fun _ _ => ⟨rfl, fun _ => id⟩)
    (fun s off v hoff => ⟨rfl, fun h hq => (writeReg_irqPending (hoff hi ▸ h)).trans hq⟩)
    (fun _ _ _ => ⟨rfl, fun _ => id⟩) fun _ => ⟨fun _ => ⟨rfl, fun _ => id⟩, fun _ => ⟨rfl, fun _ => id⟩⟩
  obtain ⟨u, ⟨-, h⟩, ⟨r, rfl, -⟩ | ⟨rfl, -⟩⟩ := exec_rel hc hu he <;> exact h hne

/-- A register write that raises a fault has written nothing (R56). -/
theorem memWriteReg_raised {off : Nat} {v : Word} (h : memWriteReg off v s = .raised t) :
    t = s.envTick.recordFault (.range .reg off) := by
  rcases Exit.bind_eq_raised.mp h with h | ⟨_, _, -, h⟩
  · unfold require at h
    split at h
    · cases h
    · exact (Exit.raised.inj h).symm
  · cases h

/-- An INTERRUPT that raises a fault does so before the acknowledge write, so the pending bit stays (R170, R205). -/
theorem interruptBody_raised_keepsIrq (h : interruptBody s = .raised t) : KeepsIrq s t := by
  have hrefill : AllowsRefill KeepsIrq := fun _ _ _ _ _ _ _ _ _ => id
  have hpre : ((refill s).bind fun _ s => notifySink s).Rel KeepsIrq s :=
    keepsIrq_closed.bind (keepsIrq_closed.refill hrefill) fun _ _ _ => keepsIrq_closed.notifySink fun _ _ _ => id
  rw [interruptBody, ← Exit.bind_assoc] at h
  rcases Exit.bind_eq_raised.mp h with h | ⟨_, u, h, hack⟩ <;> rw [h] at hpre
  · exact hpre.1
  · rcases Exit.bind_eq_raised.mp hack with hack | ⟨_, _, -, hack⟩
    · obtain rfl := memWriteReg_raised hack
      exact fun hq => (Bus.envTick (W := fun _ => False) u).keeps.irq (hpre.1 hq)
    · cases hack

/-- Settles O18: INIT writes the enable register alone, and an INTERRUPT that faults has not reached its acknowledge
write. -/
theorem onlyInterruptClearsIrqPending : Obligations.OnlyInterruptClearsIrqPending := by
  intro i s t hne he hs ht
  have hcleared (h : KeepsIrq s t) : False := absurd ((h hs).symm.trans ht) nofun
  by_cases hi : i = .interrupt
  · subst hi
    refine ⟨rfl, ?_⟩
    obtain ⟨r, u, hb, rfl⟩ | hb := exec_cases he
    · obtain ⟨rfl, -⟩ := interruptBody_eq_ok hb
      rfl
    · exact (hcleared (interruptBody_raised_keepsIrq (s := s.beginOp .intr .interrupt) hb)).elim
  · exact (hcleared (exec_keepsIrq hi hne he)).elim

/-! ### Host memory -/

/-- How many invocations of the sink a list of events holds. -/
def callbacksIn (es : List Event) : Nat := (es.filter Event.isCallback).length

theorem callbacksIn_append (es es' : List Event) : callbacksIn (es ++ es') = callbacksIn es + callbacksIn es' := by
  rw [callbacksIn, List.filter_append, List.length_append]
  rfl

/-- From s to t the history grew by es, and host memory and the host's script changed by one slot for each E_CALLBACK
among them (R174, R243 (d)). -/
structure HostByCallbacks (s t : State) (es : List Event) : Prop where
  events : t.events = es ++ s.events
  host : t.host = s.host.writes (s.inp.sink.take (callbacksIn es)).flatten
  sink : t.inp.sink = s.inp.sink.drop (callbacksIn es)

/-- Where no sink is invoked, host memory and the script stay. -/
theorem HostByCallbacks.of_quiet {es : List Event} (he : t.events = es ++ s.events)
    (hq : ∀ e ∈ es, e.isCallback = false) (hh : t.host = s.host) (hs : t.inp.sink = s.inp.sink) :
    HostByCallbacks s t es := by
  have hn : callbacksIn es = 0 := by
    rw [callbacksIn, List.length_eq_zero_iff, List.filter_eq_nil_iff]
    exact fun e h => by simp [hq e h]
  exact ⟨he, by rw [hn]; exact hh, by rw [hn]; exact hs⟩

theorem HostByCallbacks.trans {es es' : List Event} (h : HostByCallbacks s t es) (h' : HostByCallbacks t u es') :
    HostByCallbacks s u (es' ++ es) where
  events := by rw [h'.events, h.events, List.append_assoc]
  host := by
    rw [h'.host, h.host, h.sink, ← Memory.writes_append, ← List.flatten_append, ← List.take_add,
      callbacksIn_append, Nat.add_comm]
  sink := by rw [h'.sink, h.sink, List.drop_drop, callbacksIn_append, Nat.add_comm]

/-- The event E_CALLBACK uses up one slot of the host's script. -/
theorem HostByCallbacks.sinkWrites (s : State) (cb arg : Word) :
    HostByCallbacks s (s.emit (.callback cb arg)).sinkWrites [.callback cb arg] where
  events := rfl
  host := by
    rw [State.sinkWrites_host, State.emit_host, State.emit_inp]
    cases s.inp.sink with
    | nil => rfl
    | cons slot rest => exact congrArg s.host.writes (List.append_nil slot).symm
  sink := List.drop_one.symm

theorem isCallback_of_onBus {e : Event} (h : e.onBus = true) : e.isCallback = false := by
  cases e with
  | callback cb arg => cases h
  | _ => rfl

/-- Some events account for what became of host memory from s to t. -/
def HostAccounted (s t : State) : Prop := ∃ es, HostByCallbacks s t es

/-- Every operation changes host memory by one slot of the host's script for each of its E_CALLBACKs. -/
theorem exec_hostAccounted (he : exec i s = .next t) : HostAccounted s t := by
  have hc : Closed HostAccounted := .of_bus
    (fun h => let ⟨es, he, hb, _⟩ := h.events
      ⟨es, .of_quiet he (fun e hm => isCallback_of_onBus (hb e hm)) h.host h.keeps.sink⟩)
    fun ⟨_, h⟩ ⟨_, h'⟩ => ⟨_, h.trans h'⟩
  have hu : OwnUpdates HostAccounted i :=
    .of_forms (fun _ _ => ⟨[], rfl, rfl, rfl⟩) (fun _ off v _ => ⟨[.regWrite off v], rfl, rfl, rfl⟩)
      (fun s cb arg => ⟨_, .sinkWrites s cb arg⟩)
      fun _ => ⟨fun _ => ⟨[], rfl, rfl, rfl⟩, fun _ => ⟨[], rfl, rfl, rfl⟩⟩
  have hbegin : HostByCallbacks s (s.beginOp (contextOf i) i) [.opBegin i (contextOf i)] := ⟨rfl, rfl, rfl⟩
  obtain ⟨u, ⟨es, h⟩, ⟨r, rfl, -⟩ | ⟨rfl, -⟩⟩ := exec_rel hc hu he
  · have hend : HostByCallbacks u (u.endOp i r) [.opEnd i r] := ⟨rfl, rfl, rfl⟩
    exact ⟨_, (hbegin.trans h).trans hend⟩
  · exact ⟨_, hbegin.trans h⟩

/-- A host byte that no slot of the script writes stays (R38). -/
theorem HostByCallbacks.keepsHost {es : List Event} (h : HostByCallbacks s t es) (hw : s.host.wf = true) :
    KeepsHost s t := by
  intro S hS a ha
  rw [h.host]
  refine Memory.get_writes_of_not _ hw fun w hm hwa => hS a ha ?_
  obtain ⟨slot, hslot, hw⟩ := List.mem_flatten.mp hm
  exact ⟨slot, List.mem_of_mem_take hslot, w, hw, hwa⟩

/-- Settles O19: of all that an operation does, only an invocation of the sink touches host memory, and it uses up one
slot of the host's script. -/
theorem blockNeverWritesHostMemory : Obligations.BlockNeverWritesHostMemory := by
  refine ⟨envTick_host, fun i s t es n he hes hn => ?_⟩
  obtain ⟨es', h⟩ := exec_hostAccounted he
  obtain rfl : es' = es := List.append_cancel_right (h.events.symm.trans hes)
  obtain rfl : n = callbacksIn es' := hn
  exact ⟨h.host, h.sink, fun h0 => by rw [h.host, h0]; rfl, h.keepsHost⟩

end Sys2Proof.Machine

/-! The family 20_memory: the memory primitives (R55 to R57), the writers' operand checks (R58), and who writes the
register block (R52). -/

namespace Sys2Proof.Machine

variable {s t u : State} {i : Instr} {off a k : Nat} {v : Word}

/-! ### Bytes and words -/

/-- Byte k of the word at an address is the byte that stands there (R54). -/
theorem Memory.wordByte_getWord (m : Memory) (hk : k < 4) : wordByte (m.getWord a) k = m.get (a + k) := by
  have hlen : k < (m.getBytes a Config.wordBytes).length := by simpa [wordBytes_eq] using hk
  rw [Memory.getWord, Memory.wordByte_leValue hk, List.getD_eq_getElem _ _ hlen, Memory.getElem_getBytes]

/-- Bytes read back where they were written. -/
theorem Memory.getBytes_setBytes {m : Memory} (bs : List Byte) (hm : m.wf = true) :
    (m.setBytes a bs).getBytes a bs.length = bs := by
  refine List.ext_getElem (Memory.length_getBytes _ _ _) fun j hj hj' => ?_
  rw [Memory.getElem_getBytes, Memory.get_setBytes bs hm hj']

/-- Draws the environment has in store come out in their order (R12). -/
theorem drawBytes_supplied (bs : List Byte) {rest : List Byte} :
    ∀ {j : Inputs}, j.bytes = bs ++ rest → (j.drawBytes bs.length).1 = bs := by
  induction bs with
  | nil => exact fun _ => rfl
  | cons b bs ih =>
    intro j hj
    have hdraw : j.drawByte = (b, { j with bytes := bs ++ rest }) := by
      rw [Inputs.drawByte, hj]
      rfl
    rw [List.length_cons, Inputs.drawBytes, hdraw]
    exact congrArg (b :: ·) (ih rfl)

/-- The environment's moves use up no ANY_byte draw. -/
theorem envTick_bytes (s : State) : s.envTick.inp.bytes = s.inp.bytes := by
  obtain ⟨_, _, _, _, h⟩ := envTick_form s
  rw [h]

theorem envTick_sh_wf (h : s.sh.wf = true) : s.envTick.sh.wf = true :=
  (Bus.envTick (W := fun _ => False) s).sh_wf h

/-! ### The shared-memory word access (R55) -/

theorem memReadSh_misaligned (ha : off % 4 ≠ 0) : memReadSh off s = raise (.align off) s := by
  rw [memReadSh, aligned_check, decide_eq_false ha]
  rfl

theorem memWriteSh_misaligned (ha : off % 4 ≠ 0) : memWriteSh off v s = raise (.align off) s := by
  rw [memWriteSh, aligned_check, decide_eq_false ha]
  rfl

theorem memReadSh_range (ha : off % 4 = 0) (hin : s.cfg.shmemSize < off + 4) :
    memReadSh off s = raise (.range .sh off) s := by
  have : ¬ (off + Config.wordBytes ≤ s.cfg.shmemSize) := by rw [wordBytes_eq]; omega
  rw [memReadSh, aligned_check, decide_eq_true ha, require_true, Exit.bind_ok, decide_eq_false this]
  rfl

/-- A shared-memory write before any wait faults, once its offset has passed the other checks (R42, R55). -/
theorem memWriteSh_unset (ha : off % 4 = 0) (hin : off + 4 ≤ s.cfg.shmemSize) (hg : s.gateOk = none) :
    memWriteSh off v s = raise (.unset .gateOk) s := by
  have hin' : off + Config.wordBytes ≤ s.cfg.shmemSize := hin
  rw [memWriteSh, aligned_check, decide_eq_true ha, require_true, Exit.bind_ok, decide_eq_true hin', require_true,
    Exit.bind_ok, hg]
  rfl

/-- A word that lands after a ready wait is the word written. -/
theorem landWord_exact (hw : s.sh.wf = true) (hk : k < 4) :
    (landWord off v true s).sh.get (off + k) = wordByte v k := Memory.get_setWord hw hk

/-- A word that lands after a timeout is the next four draws. -/
theorem landWord_arbitrary (hw : s.sh.wf = true) {bs rest : List Byte} (hlen : bs.length = 4)
    (hbytes : s.inp.bytes = bs ++ rest) : (landWord off v false s).sh.getBytes off 4 = bs := by
  have hdraw : (s.inp.drawBytes Config.wordBytes).1 = bs := by
    rw [wordBytes_eq, ← hlen]
    exact drawBytes_supplied bs hbytes
  have hsh : (landWord off v false s).sh = s.sh.setBytes off (s.inp.drawBytes Config.wordBytes).1 := rfl
  rw [hsh, hdraw, ← hlen]
  exact Memory.getBytes_setBytes bs hw

/-- Whatever the wait's outcome, a word lands inside its four bytes. -/
theorem landWord_get_of_not (hw : s.sh.wf = true) (g : Bool) (ha : ¬ span off 4 a) :
    (landWord off v g s).sh.get a = s.sh.get a := by
  cases g with
  | true => exact Memory.get_setWord_of_not hw ha
  | false => exact Memory.get_setBytes_of_not (s.inp.drawBytes 4).1 hw (by rwa [length_drawBytes])

/-- Settles O23: each check of the two accesses in its order, then what a read gives and where a word lands. -/
theorem sharedMemoryWordAccess : Obligations.SharedMemoryWordAccess := by
  intro s off v hw
  have hw' := envTick_sh_wf hw
  refine ⟨fun ha => ⟨memReadSh_misaligned ha, memWriteSh_misaligned ha⟩,
    fun ha hin => ⟨memReadSh_range ha hin, memWriteSh_range ha hin⟩,
    fun ha hin => ⟨?read, memWriteSh_unset ha hin, fun hg => ?ready, fun hg b0 b1 b2 b3 bs hbytes => ?timeout⟩⟩
  case read =>
    exact ⟨_, _, memReadSh_ok ha hin, by simp, rfl, fun k hk => Memory.wordByte_getWord _ hk⟩
  case ready =>
    exact ⟨_, memWriteSh_ok ha hin hg, by simp [landWord_events], fun k hk => landWord_exact hw' hk,
      fun a => landWord_get_of_not hw' true⟩
  case timeout =>
    have hdraws : s.envTick.inp.bytes = [b0, b1, b2, b3] ++ bs := (envTick_bytes s).trans hbytes
    exact ⟨_, memWriteSh_ok ha hin hg, by simp [landWord_events], landWord_arbitrary hw' rfl hdraws,
      fun a => landWord_get_of_not hw' false⟩

/-! ### The register write (R56) -/

theorem memWriteReg_range (hin : s.cfg.regsSize < off + 4) : memWriteReg off v s = raise (.range .reg off) s := by
  have : ¬ (off + Config.wordBytes ≤ s.cfg.regsSize) := by rw [wordBytes_eq]; omega
  rw [memWriteReg, decide_eq_false this]
  rfl

/-- What a register write makes of coproc_enabled. -/
theorem writeReg_coprocEnabled (s : State) (off : Nat) (v : Word) : (s.writeReg off v).coprocEnabled =
    if off = s.cfg.offEnable ∧ v = s.cfg.disableValue then some false
    else if off = s.cfg.offEnable ∧ v = s.cfg.enableValue then some true
    else s.coprocEnabled := by
  simp only [State.writeReg, Bool.and_eq_true, beq_iff_eq]

/-- What a register write makes of the pending bit. -/
theorem writeReg_irqPending_eq (s : State) (off : Nat) (v : Word) : (s.writeReg off v).irqPending =
    if off = s.cfg.offIntrClear ∧ v = s.cfg.ackValue then false else s.irqPending := by
  simp only [State.writeReg, Bool.and_eq_true, beq_iff_eq]

/-- Settles O24: the range check alone stands before the write, whose two effects depend on offset and value. -/
theorem registerWrite : Obligations.RegisterWrite := by
  intro s off v hne
  refine ⟨memWriteReg_range, fun hin => ⟨_, memWriteReg_ok hin, by simp, ?_⟩⟩
  simp only [writeReg_coprocEnabled, writeReg_irqPending_eq, State.emit_cfg, envTick_cfg, State.emit_coprocEnabled,
    envTick_coprocEnabled, State.emit_irqPending]
  refine ⟨fun ho hv => ?enable, fun ho hv => if_pos ⟨ho, hv⟩, fun h => ?other, fun ho hv => if_pos ⟨ho, hv⟩,
    fun h => if_neg fun ⟨ho, hv⟩ => h.elim (· ho) (· hv)⟩
  case enable => rw [if_neg fun h => hne (hv.symm.trans h.2), if_pos ⟨ho, hv⟩]
  case other =>
    rw [if_neg fun ⟨ho, hv⟩ => h.elim (· ho) (·.2 hv), if_neg fun ⟨ho, hv⟩ => h.elim (· ho) (·.1 hv)]

/-! ### The host-memory read (R57) -/

/-- Settles O25: the bytes read are those of host memory, which neither the environment's move nor the read changes. -/
theorem hostMemoryRead : Obligations.HostMemoryRead := by
  refine fun s addr n => ⟨memReadHost_range, fun hin => ⟨_, _, memReadHost_ok hin, by simp, by simp, ?_, by simp⟩⟩
  exact fun k h => Memory.getElem_getBytes _ _ _ _ h

/-! ### The writers' operands (R58) -/

/-- Settles O26: each writer raises the fault of its operand checks at once. -/
theorem badWriterOperandsFault : Obligations.BadWriterOperandsFault := by
  refine fun s i o src len => ⟨fun ha hi => exec_of_raise ?_, fun ha hl hi => exec_of_raise ?_⟩
  · obtain rfl | rfl | rfl := hi
    · exact congrArg (finish resultOk) (writeBlockFrom_misaligned ha)
    · exact congrArg (finish resultOk) (writeDeint16_misaligned ha)
    · exact congrArg (finish resultOk) (writeDeint8_misaligned ha)
  · subst hi
    exact congrArg (finish resultOk) (writeDeint16_odd ha hl)

/-! ### Who writes the register block (R52) -/

/-- The register writes an operation may make: INIT's enable and disable values, INTERRUPT's acknowledge value. -/
def OwnRegWrite (cfg : Params) (i : Instr) (off : Nat) (v : Word) : Prop :=
  (i = .init ∧ off = cfg.offEnable ∧ (v = cfg.enableValue ∨ v = cfg.disableValue)) ∨
    (i = .interrupt ∧ off = cfg.offIntrClear ∧ v = cfg.ackValue)

/-- From s to t the parameters stay, and every register write added to the history is the operation's own. -/
structure OnlyOwnRegWrites (i : Instr) (s t : State) : Prop where
  cfg : t.cfg = s.cfg
  events : ∃ es, t.events = es ++ s.events ∧ ∀ off v, Event.regWrite off v ∈ es → OwnRegWrite s.cfg i off v

theorem OnlyOwnRegWrites.trans (h : OnlyOwnRegWrites i s t) (h' : OnlyOwnRegWrites i t u) :
    OnlyOwnRegWrites i s u := by
  obtain ⟨es, he, ho⟩ := h.events
  obtain ⟨es', he', ho'⟩ := h'.events
  rw [h.cfg] at ho'
  exact ⟨h'.cfg.trans h.cfg, es' ++ es, by rw [he', he, List.append_assoc],
    fun off v hm => (List.mem_append.mp hm).elim (ho' off v) (ho off v)⟩

/-- An update that adds no event. -/
theorem OnlyOwnRegWrites.of_silent (hc : t.cfg = s.cfg) (he : t.events = s.events) : OnlyOwnRegWrites i s t :=
  ⟨hc, [], he, by simp⟩

/-- An update that adds one event. -/
theorem OnlyOwnRegWrites.of_event {e : Event} (hc : t.cfg = s.cfg) (he : t.events = e :: s.events)
    (ho : ∀ off v, e = .regWrite off v → OwnRegWrite s.cfg i off v) : OnlyOwnRegWrites i s t :=
  ⟨hc, [e], he, fun off v hm => ho off v (List.mem_singleton.mp hm).symm⟩

/-- The operation's own register write. -/
theorem OnlyOwnRegWrites.writeReg (ho : OwnRegWrite s.cfg i off v) :
    OnlyOwnRegWrites i s ((s.emit (.regWrite off v)).writeReg off v) :=
  .of_event rfl rfl fun _ _ h => by cases h; exact ho

/-- Bus work writes no register. -/
theorem OnlyOwnRegWrites.of_bus {W : Nat → Prop} (h : Bus W s t) : OnlyOwnRegWrites i s t := by
  obtain ⟨es, he, hb, -⟩ := h.events
  exact ⟨h.keeps.cfg, es, he, fun off v hm => absurd (hb _ hm) nofun⟩

theorem onlyOwnRegWrites_ownUpdates (i : Instr) : OwnUpdates (OnlyOwnRegWrites i) i := by
  have hdev (s : State) (d : Device) : OnlyOwnRegWrites i s (s.setDev d) := .of_silent rfl rfl
  have hrefill : AllowsRefill (OnlyOwnRegWrites i) := fun s _ _ _ _ _ _ _ _ => hdev s _
  cases i with
  | init =>
    exact ⟨fun _ _ => .of_silent rfl rfl, fun _ => .writeReg (.inl ⟨rfl, rfl, .inr rfl⟩),
      fun _ => .writeReg (.inl ⟨rfl, rfl, .inl rfl⟩), fun _ _ => .of_silent rfl rfl⟩
  | setFormat => exact fun s _ _ _ _ _ _ => hdev s _
  | start => exact ⟨hrefill, fun s _ _ _ _ => hdev s _, fun s _ _ _ => hdev s _⟩
  | stop => exact fun s => hdev s _
  | refill => exact hrefill
  | interrupt =>
    exact ⟨hrefill, fun _ _ _ => .of_event rfl rfl nofun, fun _ => .writeReg (.inr ⟨rfl, rfl, rfl⟩)⟩
  | mixerSet => exact ⟨fun s _ => hdev s _, fun s _ _ => hdev s _⟩
  | _ => exact trivial

/-- An operation, from its beginning to its end or its fault, writes no register but as its own. -/
theorem exec_onlyOwnRegWrites (he : exec i s = .next t) : OnlyOwnRegWrites i s t := by
  have hbegin : OnlyOwnRegWrites i s (s.beginOp (contextOf i) i) := .of_event rfl rfl nofun
  obtain ⟨u, h, ⟨r, rfl, -⟩ | ⟨rfl, -⟩⟩ :=
    exec_rel (.of_bus OnlyOwnRegWrites.of_bus OnlyOwnRegWrites.trans) (onlyOwnRegWrites_ownUpdates i) he
  · exact (hbegin.trans h).trans (.of_event rfl rfl nofun)
  · exact hbegin.trans h

/-- Settles O20: bus work writes no register, and of all operations' own updates only INIT's and INTERRUPT's do. -/
theorem registerBlockWriters : Obligations.RegisterBlockWriters := by
  intro i s t es he hes off v hm
  obtain ⟨es', hes', ho⟩ := (exec_onlyOwnRegWrites he).events
  obtain rfl : es' = es := List.append_cancel_right (hes'.symm.trans hes)
  exact ho off v hm

end Sys2Proof.Machine

/-! The family 30_encoding: the decoder and the encoder are each other's inverse (R81 to R85), which records are refused
(R84), and the assembler's lines (R86). -/

namespace Sys2Proof.Machine

variable {s t : State} {w : Word} {ws rest : List Word} {i : Instr} {tag n : Nat} {r : Record}
  {ts : List Agent} {records : List Record}

/-! ### The header word (R81) -/

theorem headerTag_eq (w : Word) : headerTag w = w.toNat % 2 ^ 8 := by
  rw [headerTag, BitVec.extractLsb'_toNat, Nat.shiftRight_zero]

theorem headerReserved_eq_zero_iff (w : Word) : headerReserved w = 0 ↔ w.toNat < 2 ^ 8 := by
  have hb := w.isLt
  rw [← BitVec.toNat_inj, headerReserved, BitVec.extractLsb'_toNat, Nat.shiftRight_eq_div_pow]
  change _ = 0 ↔ _
  omega

/-- The header word of a tag holds it and no reserved bit, and no other word does. -/
theorem eq_ofNat_iff_header (ht : tag < 2 ^ 8) :
    w = BitVec.ofNat 32 tag ↔ headerReserved w = 0 ∧ headerTag w = tag := by
  rw [headerReserved_eq_zero_iff, headerTag_eq, ← BitVec.toNat_inj, BitVec.toNat_ofNat]
  omega

/-! ### The operations' encodings (R83) -/

theorem encodeShape : (i : Instr) → Laws.EncodeShape.Statement i
  | .init => Laws.EncodeShape.init
  | .setFormat p c r => Laws.EncodeShape.setFormat p c r
  | .start bs be b sink arg => Laws.EncodeShape.start bs be b sink arg
  | .stop => Laws.EncodeShape.stop
  | .refill => Laws.EncodeShape.refill
  | .interrupt => Laws.EncodeShape.interrupt
  | .mixerSet index nvals v0 v1 => Laws.EncodeShape.mixerSet index nvals v0 v1
  | .mixerGet index => Laws.EncodeShape.mixerGet index
  | .waitReady => Laws.EncodeShape.waitReady
  | .writeBlock offset src len => Laws.EncodeShape.writeBlock offset src len
  | .writeDeint16 offset src len => Laws.EncodeShape.writeDeint16 offset src len
  | .writeDeint8 offset src len => Laws.EncodeShape.writeDeint8 offset src len
  | .sendCommand cmd => Laws.EncodeShape.sendCommand cmd
  | .sendParam cmd left right => Laws.EncodeShape.sendParam cmd left right
  | .queryFormat => Laws.EncodeShape.queryFormat
  | .roundBlocksize req => Laws.EncodeShape.roundBlocksize req
  | .roundBuffersize req => Laws.EncodeShape.roundBuffersize req
  | .mixerDevinfo index => Laws.EncodeShape.mixerDevinfo index
  | .getDevice => Laws.EncodeShape.getDevice
  | .getLocks => Laws.EncodeShape.getLocks

theorem tag_pos (i : Instr) : 1 ≤ i.tag :=
  have ⟨_, hpos, _, _⟩ := encodeShape i
  hpos

theorem tag_le (i : Instr) : i.tag ≤ 0x14 :=
  have ⟨_, _, hle, _⟩ := encodeShape i
  hle

theorem decodeTag_tag (i : Instr) (rest : List Word) : decodeTag i.tag (i.operands ++ rest) = .ok (i, rest) :=
  have ⟨_, _, _, hdecode⟩ := encodeShape i
  hdecode rest

theorem operandCount_tag (i : Instr) : operandCount i.tag = i.operands.length := by
  cases i <;> rfl

theorem tag_eq_interrupt_iff : i.tag = 0x06 ↔ i = .interrupt := by
  cases i <;> simp [Instr.tag]

/-- Only a volume operand of MIXER_SET can be too wide (R82). -/
theorem not_wellFormed_iff (i : Instr) (rest : List Word) : ¬ i.WellFormed ↔ i.tag = 0x07 ∧
    (255 < ((i.operands ++ rest).getD 2 0).toNat ∨ 255 < ((i.operands ++ rest).getD 3 0).toNat) := by
  cases i with
  | mixerSet index nvals v0 v1 =>
    simp only [Instr.WellFormed, Instr.wellFormed, fitsVolume_eq, Bool.and_eq_true, decide_eq_true_eq, Instr.tag,
      Instr.operands, List.cons_append, List.getD_cons_succ, List.getD_cons_zero, true_and]
    omega
  | _ => simp [Instr.wellFormed, Instr.tag]

/-! ### What the opcode map answers (R83, R85) -/

/-- What taking the n operand words of a tag answers: that there are too few, or an operation of that tag with its operand
words and the words after them. -/
def Takes (n tag : Nat) (ws : List Word) (x : Decoded) : Prop :=
  (x = .error .shortRecord ∧ ws.length < n) ∨
    ∃ i rest, x = .ok (i, rest) ∧ i.tag = tag ∧ ws = i.operands ++ rest

theorem take0_takes (ht : i.tag = tag) (ho : i.operands = []) : Takes 0 tag ws (take0 i ws) :=
  .inr ⟨i, ws, rfl, ht, by rw [ho]; rfl⟩

theorem take1_takes {f : Word → Instr} (ht : ∀ a, (f a).tag = tag) (ho : ∀ a, (f a).operands = [a]) :
    Takes 1 tag ws (take1 f ws) :=
  match ws with
  | [] => .inl ⟨rfl, by decide⟩
  | a :: rest => .inr ⟨f a, rest, rfl, ht a, by rw [ho]; rfl⟩

theorem take3_takes {f : Word → Word → Word → Instr} (ht : ∀ a b c, (f a b c).tag = tag)
    (ho : ∀ a b c, (f a b c).operands = [a, b, c]) : Takes 3 tag ws (take3 f ws) :=
  match ws with
  | [] | [_] | [_, _] => .inl ⟨rfl, by simp⟩
  | a :: b :: c :: rest => .inr ⟨f a b c, rest, rfl, ht a b c, by rw [ho]; rfl⟩

theorem take4_takes {f : Word → Word → Word → Word → Instr} (ht : ∀ a b c d, (f a b c d).tag = tag)
    (ho : ∀ a b c d, (f a b c d).operands = [a, b, c, d]) : Takes 4 tag ws (take4 f ws) :=
  match ws with
  | [] | [_] | [_, _] | [_, _, _] => .inl ⟨rfl, by simp⟩
  | a :: b :: c :: d :: rest => .inr ⟨f a b c d, rest, rfl, ht a b c d, by rw [ho]; rfl⟩

theorem take5_takes {f : Word → Word → Word → Word → Word → Instr} (ht : ∀ a b c d e, (f a b c d e).tag = tag)
    (ho : ∀ a b c d e, (f a b c d e).operands = [a, b, c, d, e]) : Takes 5 tag ws (take5 f ws) :=
  match ws with
  | [] | [_] | [_, _] | [_, _, _] | [_, _, _, _] => .inl ⟨rfl, by simp⟩
  | a :: b :: c :: d :: e :: rest => .inr ⟨f a b c d e, rest, rfl, ht a b c d e, by rw [ho]; rfl⟩

/-- Everything the opcode map can answer: an assigned tag takes its operand words, any other is refused. -/
theorem decodeTag_cases (tag : Nat) (ws : List Word) : Takes (operandCount tag) tag ws (decodeTag tag ws) ∨
    (decodeTag tag ws = .error .unassignedTag ∧ (tag = 0 ∨ 0x14 < tag)) := by
  unfold decodeTag
  split
  case h_21 =>
    refine .inr ⟨rfl, ?_⟩
    simp only [imp_false] at *
    omega
  -- START, MIXER_SET, the operations of three operand words, those of one, and those of none, by their tags
  case h_3 => exact .inl (take5_takes (fun _ _ _ _ _ => rfl) fun _ _ _ _ _ => rfl)
  case h_7 => exact .inl (take4_takes (fun _ _ _ _ => rfl) fun _ _ _ _ => rfl)
  case h_2 | h_10 | h_11 | h_12 | h_14 => exact .inl (take3_takes (fun _ _ _ => rfl) fun _ _ _ => rfl)
  case h_8 | h_13 | h_16 | h_17 | h_18 => exact .inl (take1_takes (fun _ => rfl) fun _ => rfl)
  all_goals exact .inl (take0_takes rfl rfl)

theorem decodeTag_eq_ok_iff : decodeTag tag ws = .ok (i, rest) ↔ tag = i.tag ∧ ws = i.operands ++ rest := by
  refine ⟨fun hd => ?_, fun ⟨ht, hw⟩ => by rw [ht, hw, decodeTag_tag]⟩
  obtain (⟨he, -⟩ | ⟨j, us, hj, ht, hw⟩) | ⟨he, -⟩ := decodeTag_cases tag ws
  · cases he.symm.trans hd
  · cases hj.symm.trans hd
    exact ⟨ht.symm, hw⟩
  · cases he.symm.trans hd

/-- An assigned tag with all its operand words is that of an operation. -/
theorem exists_operands (hpos : tag ≠ 0) (hle : tag ≤ 0x14) (hlen : operandCount tag ≤ ws.length) :
    ∃ (i : Instr) (rest : List Word), i.tag = tag ∧ ws = i.operands ++ rest := by
  obtain (⟨-, hs⟩ | ⟨i, rest, -, hi⟩) | ⟨-, hu⟩ := decodeTag_cases tag ws
  · omega
  · exact ⟨i, rest, hi⟩
  · omega

/-! ### The decoder (R84, R85) -/

theorem checkWidths_eq_ok_iff {x : Decoded} : checkWidths x = .ok (i, rest) ↔ x = .ok (i, rest) ∧ i.WellFormed := by
  unfold checkWidths
  split
  next j us =>
    split
    next hj => exact ⟨fun he => by cases he; exact ⟨rfl, hj⟩, fun he => he.1⟩
    next hj => exact ⟨nofun, fun ⟨he, hw⟩ => by cases he; exact absurd hw hj⟩
  next => exact ⟨nofun, fun he => nomatch he.1⟩

theorem decode_cons_eq_ok_iff : decode (w :: ws) = .ok (i, rest) ↔
    headerReserved w = 0 ∧ decodeTag (headerTag w) ws = .ok (i, rest) ∧ i.WellFormed := by
  rw [decode]
  split
  next hr => rw [checkWidths_eq_ok_iff, and_iff_right hr]
  next hr => exact ⟨nofun, fun he => absurd he.1 hr⟩

/-- The decoder answers an operation exactly on its encoding, if the operation is well formed. -/
theorem decode_eq_ok_iff : decode ws = .ok (i, rest) ↔ ws = encode i ++ rest ∧ i.WellFormed := by
  cases ws with
  | nil => exact ⟨nofun, fun he => nomatch he.1⟩
  | cons w ws =>
    have htag : i.tag < 2 ^ 8 := by have := tag_le i; omega
    simp only [decode_cons_eq_ok_iff, decodeTag_eq_ok_iff, encode, List.cons_append, List.cons.injEq,
      eq_ofNat_iff_header htag, and_assoc]

/-- Settles O1: the decoder answers an operation on its encoding. -/
theorem decodeOfEncode : Obligations.DecodeOfEncode :=
  fun _ _ hw => decode_eq_ok_iff.mpr ⟨rfl, hw⟩

/-- Settles O2: the decoder answers an operation on its encoding only. -/
theorem decodedWordsAreTheEncoding : Obligations.DecodedWordsAreTheEncoding :=
  fun _ _ _ => decode_eq_ok_iff.mp

/-- Settles O3: the decoder evaluates on each list of words. -/
theorem exampleWordsDecode : Obligations.ExampleWordsDecode :=
  ⟨rfl, rfl, rfl, rfl, rfl, rfl, rfl, rfl, rfl⟩

/-! ### Refused records (R84) -/

/-- A record whose words are an operation's encoding is refused for an operand too wide, or as INTERRUPT. -/
theorem refusable_encoding_iff (i : Instr) (rest : List Word) :
    Refusable ⟨BitVec.ofNat 32 i.tag, i.operands ++ rest⟩ ↔ ¬ i.WellFormed ∨ i = .interrupt := by
  have hpos := tag_pos i
  have hle := tag_le i
  obtain ⟨hres, htag⟩ := (eq_ofNat_iff_header (w := BitVec.ofNat 32 i.tag) (by omega)).mp rfl
  have hlen : ¬ (i.operands ++ rest).length < operandCount i.tag := by
    rw [operandCount_tag, List.length_append]
    omega
  rw [not_wellFormed_iff i rest, ← tag_eq_interrupt_iff, Refusable, htag, or_iff_right (by omega : i.tag ≠ 0),
    or_iff_right (by omega), or_iff_right (not_not_intro hres), or_iff_right hlen]

/-- A record that is not refused begins with an operation's encoding. -/
theorem exists_encoding_of_not_refusable (hr : ¬ Refusable r) :
    ∃ (i : Instr) (rest : List Word), r = ⟨BitVec.ofNat 32 i.tag, i.operands ++ rest⟩ := by
  simp only [Refusable, not_or] at hr
  obtain ⟨hpos, hle, hres, hlen, -⟩ := hr
  obtain ⟨i, rest, htag, hops⟩ := exists_operands hpos (not_lt.mp hle) (not_lt.mp hlen)
  have hheader : r.header = BitVec.ofNat 32 i.tag :=
    (eq_ofNat_iff_header (by omega)).mpr ⟨not_not.mp hres, htag.symm⟩
  exact ⟨i, rest, by rw [← hheader, ← hops]⟩

/-- A record is refused exactly if it decodes to no operation that the control path may issue. -/
theorem not_refusable_iff : ¬ Refusable r ↔ ∃ i ws, decode r.words = .ok (i, ws) ∧ i ≠ .interrupt := by
  constructor
  · intro hr
    obtain ⟨i, rest, rfl⟩ := exists_encoding_of_not_refusable hr
    rw [refusable_encoding_iff, not_or, not_not] at hr
    exact ⟨i, rest, decode_eq_ok_iff.mpr ⟨rfl, hr.1⟩, hr.2⟩
  · rintro ⟨i, ws, hd, hi⟩
    obtain ⟨hwords, hwf⟩ := decode_eq_ok_iff.mp hd
    obtain ⟨header, operands⟩ := r
    cases hwords
    exact fun hr => ((refusable_encoding_iff i ws).mp hr).elim (· hwf) hi

theorem admission_of_refusable (hr : Refusable r) : admission r s = raise (.refused r.header) s := by
  unfold admission
  split
  next => rfl
  next => rfl
  next hd => exact absurd hr (not_refusable_iff.mpr ⟨_, _, hd, nofun⟩)
  next hi _ hd => exact absurd hr (not_refusable_iff.mpr ⟨_, _, hd, hi⟩)

/-- At the control path's turn an operation boundary presents the record at the head of the port. -/
theorem boundary_control (ha : s.active = none) (ht : s.inp.turns = .control :: ts) :
    boundary s = controlTurn (s.envTick.setInp { s.envTick.inp with turns := ts }) := by
  have hdraw : s.envTick.inp.drawTurn = (.control, { s.envTick.inp with turns := ts }) := by
    rw [Inputs.drawTurn, envTick_turns, ht]
  simp only [boundary, envTick_active, ha, hdraw]

theorem controlTurn_of_raised (hp : s.inp.port = r :: records)
    (h : admission r (s.setInp { s.inp with port := records }) = .raised t) : controlTurn s = (none, t) := by
  simp only [controlTurn, hp, h]

/-- A step at the control path's turn, if admission raises a fault, is the state the fault leaves. -/
theorem step_of_admission_raised (hf : s.fault = none) (ha : s.active = none) (ht : s.inp.turns = .control :: ts)
    (hp : s.inp.port = r :: records) (h : admission r (presented s ts records) = .raised t) : step s = .next t := by
  have hb : boundary s = (none, t) := by
    rw [boundary_control ha ht]
    exact controlTurn_of_raised ((envTick_port s).trans hp) h
  simp only [step, haltedFault, hf, hb]

/-- Settles O4: R84's five cases are those in which the record decodes to no operation of the control path, and
admission raises the fault in those. -/
theorem recordsAreRefusedExactly : Obligations.RecordsAreRefusedExactly :=
  fun _ _ _ _ hf ha ht hp =>
    ⟨fun hr => step_of_admission_raised hf ha ht hp (admission_of_refusable hr), not_refusable_iff.mp⟩

/-! ### The assembler (R86) -/

/-- A number that fits a word is its operand word. -/
theorem operandWord_of_lt (hn : n < 2 ^ 32) : operandWord n = .ok (BitVec.ofNat 32 n) := by
  rw [operandWord, if_pos (by omega), BitVec.ofInt_natCast]

theorem withOffset_plus {cs : List Char} (v : Nat) (hn : parseNumber (dropBlanks cs) = some n) :
    withOffset v ('+' :: cs) = operandWord (v + n : Nat) := by
  rw [withOffset, hn, Nat.cast_add]

/-- Settles O5: numbers and names are read as R86 writes them, whatever the parameters are; the sum fits a word. -/
theorem assemblerNotation : Obligations.AssemblerNotation := by
  refine fun p => ⟨rfl, fun hfits => ?_⟩
  calc parseOperand p "LEFT_BASE+512".toList
    _ = withOffset p.leftBase ('+' :: "512".toList) := rfl
    _ = operandWord (p.leftBase + 512 : Nat) := withOffset_plus _ rfl
    _ = .ok (BitVec.ofNat 32 (p.leftBase + 512)) := operandWord_of_lt hfits

end Sys2Proof.Machine

/-! The family 40_bus_gate: what a wait polls and how it ends (R100, R101). -/

namespace Sys2Proof.Machine

/-! ### The ready test (R100) -/

theorem isReady_eq_true_iff (cfg : Params) (v : Word) : isReady cfg v = true ↔ v &&& cfg.readyMask ≠ 0 :=
  bne_iff_ne

theorem isReady_eq_false_iff (cfg : Params) (v : Word) : isReady cfg v = false ↔ v &&& cfg.readyMask = 0 :=
  bne_eq_false_iff_eq

/-! ### The wait (R101) -/

/-- A wait polls at least once: the value v last, before it the values vs, none of them ready. It ends ready just when v
is, and as a timeout only with the limit used up. -/
theorem waitReady_polls (s : State) (hpos : 1 ≤ s.cfg.waitLimit) : ∃ g v vs, (waitReady s).gateOk = some g ∧
    (waitReady s).events = .gate g :: ((v :: vs).map Event.poll ++ s.events) ∧
    vs.length + 1 ≤ s.cfg.waitLimit ∧ (∀ w ∈ vs, w &&& s.cfg.readyMask = 0) ∧
    (g = true → v &&& s.cfg.readyMask ≠ 0) ∧
    (g = false → v &&& s.cfg.readyMask = 0 ∧ vs.length + 1 = s.cfg.waitLimit) := by
  obtain ⟨-, -, -, g, polls, hgate, hevents, hlimit, hne, hearlier, hready, htimeout⟩ :=
    waitLoop_spec (W := fun _ => False) s.cfg.waitLimit s
  simp only [isReady_eq_true_iff, isReady_eq_false_iff] at hearlier hready htimeout
  cases polls with
  | nil => exact absurd rfl (hne hpos)
  | cons v vs =>
    refine ⟨g, v, vs, hgate, hevents, hlimit, hearlier, fun hg => ?_, fun hg => ?_⟩
    · obtain ⟨_, hv, hr⟩ := hready hg
      cases hv
      exact hr
    · obtain ⟨hused, hall⟩ := htimeout hg
      exact ⟨hall v List.mem_cons_self, hused⟩

/-- Settles O22 (the name waitReady is the model's): the operation is a wait between its beginning and its end, and a
wait is bus work that writes nothing. -/
theorem waitReady_holds : Obligations.WaitReady := by
  intro s hpos hwf
  obtain ⟨g, v, vs, hgate, hevents, hpolls⟩ := waitReady_polls (s.beginOp .control .waitReady) hpos
  refine ⟨(waitReady (s.beginOp .control .waitReady)).envTick.endOp .waitReady resultOk, g, v, vs, rfl,
    (waitReady_bus _).busRun (waitReady_fault _) hwf, ?_, ?_, hpolls⟩
  · rw [State.endOp_gateOk, envTick_gateOk, hgate]
  · rw [State.endOp_events, envTick_events, hevents, State.beginOp_events]

end Sys2Proof.Machine

/-! The family 41_region_writer: the three writers complete, stop at the first word that crosses a range, and leave the
host's bytes (R110 to R126). -/

namespace Sys2Proof.Machine

variable {W : Nat → Prop} {s t u : State} {i : Instr} {r : Result} {a : Nat}

/-! ### The end of an operation -/

/-- An operation that answers at once does nothing else. -/
theorem exec_of_answer (h : bodyOf i (s.beginOp (contextOf i) i) = .ok r (s.beginOp (contextOf i) i)) :
    exec i s = .next (answered i r s) := by
  rw [exec_eq, runOp_eq, h]
  rfl

theorem NoTimeout.of_endOp (h : NoTimeout (u.envTick.endOp i r)) : NoTimeout u := by
  simpa [NoTimeout] using h

/-- A byte the coprocessor leaves alone stands at the end of an operation as its body left it. -/
theorem endOp_sh_get (hb : Bus W s u) (hs : s.sh.wf = true) (hq : ¬ s.inp.Moves (EnvMove.WritesSh a)) :
    (u.envTick.endOp i r).sh.get a = u.sh.get a :=
  (Bus.envTick (W := fun _ => False) u).sh (hb.sh_wf hs) a id fun hm => hq (.of_suffix hb.moves hm)

/-! ### An operation that is one piece of bus work

The three writers are such operations, and their results are all OK. -/

section Piece

variable {piece : State → Exit Unit} (hbody : bodyOf i = fun s => finish resultOk (piece s))
  (hbus : ∀ s, (piece s).OnBus W s)
include hbody hbus

theorem exec_busRun_of_piece (hok : ∃ u, piece (s.beginOp (contextOf i) i) = .ok () u) (hs : s.sh.wf = true) :
    ∃ t, exec i s = .next t ∧ BusRun (contextOf i) i resultOk W s t := by
  obtain ⟨u, hu⟩ := hok
  rw [exec_eq, hbody]
  exact runOp_busRun (finish_onBus (hbus _)) ⟨u, by rw [hu, finish_ok]⟩ hs

theorem exec_faults_of_piece {f : BlockFault}
    (hf : ∃ t, piece (s.beginOp (contextOf i) i) = .raised t ∧ t.fault = some f) :
    ∃ t, exec i s = .next t ∧ Faults (contextOf i) i f t := by
  obtain ⟨t, ht, hft⟩ := hf
  have hraised := hbus (s.beginOp (contextOf i) i)
  rw [ht] at hraised
  obtain ⟨f', hfaults⟩ := faults_of_onBus hraised
  obtain rfl : f' = f := Option.some.inj (hfaults.fault.symm.trans hft)
  refine ⟨t, ?_, hfaults⟩
  rw [exec_eq, hbody, runOp_eq, ht]
  rfl

/-- What an operation that ended OK has done: its piece went on to u, and u ended. -/
theorem exec_piece_eq_ok (he : exec i s = .next t) (hr : t.result = some resultOk) :
    ∃ u, piece (s.beginOp (contextOf i) i) = .ok () u ∧ Bus W (s.beginOp (contextOf i) i) u ∧
      t = u.envTick.endOp i resultOk := by
  obtain ⟨u, hu, rfl⟩ := exec_of_result he hr
  rw [hbody] at hu
  obtain ⟨-, hu⟩ := finish_eq_ok.mp hu
  have hb := hbus (s.beginOp (contextOf i) i)
  rw [hu] at hb
  exact ⟨u, hu, hb.1, rfl⟩

/-- The byte its piece leaves, where no wait timed out and the coprocessor leaves the byte alone. -/
theorem exec_sh_get_of_piece {b : Byte} (he : exec i s = .next t) (hr : t.result = some resultOk) (hn : NoTimeout t)
    (hs : s.sh.wf = true) (hq : ¬ s.inp.Moves (EnvMove.WritesSh a))
    (hleft : ∀ u, piece (s.beginOp (contextOf i) i) = .ok () u → NoTimeout u → u.sh.get a = b) : t.sh.get a = b := by
  obtain ⟨u, hu, hb, rfl⟩ := exec_piece_eq_ok hbody hbus he hr
  exact (endOp_sh_get hb hs hq).trans (hleft u hu hn.of_endOp)

/-- A byte outside the span of its piece stays, if the coprocessor leaves it alone. -/
theorem exec_sh_get_outside (he : exec i s = .next t) (hr : t.result = some resultOk) (hs : s.sh.wf = true)
    (hq : ¬ s.inp.Moves (EnvMove.WritesSh a)) (ha : ¬ W a) : t.sh.get a = s.sh.get a := by
  obtain ⟨u, -, hb, rfl⟩ := exec_piece_eq_ok hbody hbus he hr
  exact (endOp_sh_get hb hs hq).trans (hb.sh hs a ha hq)

end Piece

/-! ### WRITE_BLOCK (R110) -/

/-- The block copy of WRITE_BLOCK, as bus work. -/
theorem writeBlock_onBus (o src len : Nat) (s : State) : (writeBlock o src len s).OnBus (span o (blockBytes len)) s :=
  writeBlockFrom_onBus o len (.host src) s

/-- WRITE_BLOCK once its check passes: the loop over its words. -/
theorem writeBlock_eq {o src len : Nat} (ha : o % 4 = 0) :
    writeBlock o src len s = writeBlockLoop (wordsFor len) 0 o len (.host src) s := by
  rw [writeBlock, writeBlockFrom, aligned_check, decide_eq_true ha, require_true, Exit.bind_ok]

/-- Settles O28: an aligned block copy inside both ranges completes, and what it leaves is the source. -/
theorem writeBlockCopies : Obligations.WriteBlockCopies := by
  intro s o src len hs ha hin hhost
  have hbus := writeBlock_onBus o.toNat src.toNat len.toNat
  obtain ⟨t, he, hrun⟩ := exec_busRun_of_piece (i := .writeBlock o src len) rfl hbus
    (writeBlockFrom_ok (s := s.beginOp .control _) (src := .host src.toNat) ha hin hhost) hs
  refine ⟨t, he, hrun, fun hn k hk hq => ?_⟩
  exact exec_sh_get_of_piece rfl hbus he hrun.ends.result hn hs hq
    fun u hu hnu => writeBlockFrom_copies (src := .host src.toNat) hhost hu hnu hs hk hq

/-- Settles O29: the loop completes each word before word j and stops at word j, which it reads before it writes. -/
theorem writeBlockFaultsAtTheFirstBadWord : Obligations.WriteBlockFaultsAtTheFirstBadWord := by
  intro s o src len j ha hj hbefore
  have hstops := writeBlockLoop_stops j (wordsFor len.toNat) 0 o.toNat len.toNat src.toNat
    (s.beginOp .control (.writeBlock o src len)) ha hj (by rw [wordsFor_eq]; omega) hbefore (.inl (Nat.zero_mod _))
  rw [← writeBlock_eq ha] at hstops
  have hbus := writeBlock_onBus o.toNat src.toNat len.toNat
  obtain ⟨hhost, hsh⟩ := hstops
  exact ⟨fun h => exec_faults_of_piece (i := .writeBlock o src len) rfl hbus (hhost h),
    fun h h' => exec_faults_of_piece (i := .writeBlock o src len) rfl hbus (hsh h h')⟩

/-! ### The deinterleave copies (R115, R120, R125) -/

/-- Settles O30: the last sample begins at src + 2 * len - 4. -/
theorem writeDeint16Completes : Obligations.WriteDeint16Completes := by
  intro s o src len hs ha hl hin hhost
  exact exec_busRun_of_piece (i := .writeDeint16 o src len) rfl (writeDeint16_onBus o.toNat src.toNat len.toNat)
    (writeDeint16_ok (s := s.beginOp .control _) ha hl hin fun k hk => by omega) hs

/-- Settles O31: the last sample stands at src + 2 * len - 2. -/
theorem writeDeint8Completes : Obligations.WriteDeint8Completes := by
  intro s o src len hs ha hin hhost
  exact exec_busRun_of_piece (i := .writeDeint8 o src len) rfl (writeDeint8_onBus o.toNat src.toNat len.toNat)
    (writeDeint8_ok (s := s.beginOp .control _) ha hin fun k hk => by omega) hs

/-- The sample bytes a WRITE_DEINT16 leaves (R125). -/
theorem exec_writeDeint16_copies {o src len : Word} {k j : Nat} (he : exec (.writeDeint16 o src len) s = .next t)
    (hr : t.result = some resultOk) (hn : NoTimeout t) (hs : s.sh.wf = true) (hk : k < len.toNat / 2) (hj : j < 2)
    (hq : ¬ s.inp.Moves (EnvMove.WritesSh (o.toNat + 2 * k + j))) :
    t.sh.get (o.toNat + 2 * k + j) = s.host.get (src.toNat + 4 * k + j) :=
  exec_sh_get_of_piece rfl (writeDeint16_onBus o.toNat src.toNat len.toNat) he hr hn hs hq
    fun _ hu hnu => writeDeint16_copies hu hnu hs hk hj hq

/-- The samples a WRITE_DEINT8 leaves (R125). -/
theorem exec_writeDeint8_copies {o src len : Word} {k : Nat} (he : exec (.writeDeint8 o src len) s = .next t)
    (hr : t.result = some resultOk) (hn : NoTimeout t) (hs : s.sh.wf = true) (hk : k < 4 * (len.toNat / 4))
    (hq : ¬ s.inp.Moves (EnvMove.WritesSh (o.toNat + k))) :
    t.sh.get (o.toNat + k) = s.host.get (src.toNat + 2 * k) :=
  exec_sh_get_of_piece rfl (writeDeint8_onBus o.toNat src.toNat len.toNat) he hr hn hs hq
    fun _ hu hnu => writeDeint8_copies hu hnu hs hk hq

/-- Settles O32: a channel pointer shifts the source by the channel's place in the stereo frame (R126), and the trailing
samples of WRITE_DEINT8 lie outside the words it writes. -/
theorem deinterleaveIsCorrect : Obligations.DeinterleaveIsCorrect := by
  intro s t o src len a ch hs hn hr _ hquiet
  have hq (x : Nat) (hx : x < len.toNat) : ¬ s.inp.Moves (EnvMove.WritesSh (o.toNat + x)) :=
    hquiet _ ⟨by omega, by omega⟩
  refine ⟨fun he hsrc k j hk hj => ?deint16, fun he hsrc => ⟨fun k hk => ?deint8, fun k hlo hhi => ?trailing⟩⟩
  case deint16 =>
    have hcopied := exec_writeDeint16_copies he hr hn hs hk hj (Nat.add_assoc _ _ _ ▸ hq (2 * k + j) (by omega))
    rwa [show src.toNat + 4 * k + j = a + 4 * k + 2 * ch + j by omega] at hcopied
  case deint8 =>
    have hcopied := exec_writeDeint8_copies he hr hn hs hk (hq k (by omega))
    rwa [show src.toNat + 2 * k = a + 2 * k + ch by omega] at hcopied
  case trailing =>
    refine exec_sh_get_outside rfl (writeDeint8_onBus o.toNat src.toNat len.toNat) he hr hs (hq k hhi) fun hin => ?_
    have := hin.2
    rw [deint8Bytes] at this
    omega

/-! ### Zero lengths -/

theorem writeBlock_zero {o src : Nat} (ha : o % 4 = 0) : writeBlock o src 0 s = .ok () s := writeBlock_eq ha

theorem writeDeint16_zero {o src : Nat} (ha : o % 4 = 0) : writeDeint16 o src 0 s = .ok () s :=
  writeDeint16_eq ha rfl

theorem writeDeint8_zero {o src : Nat} (ha : o % 4 = 0) : writeDeint8 o src 0 s = .ok () s := writeDeint8_eq ha

/-- Settles O27: once its checks pass, a writer has no chunk and no word to take up. -/
theorem zeroLengthIsANoOp : Obligations.ZeroLengthIsANoOp := by
  intro s i o src ha hi
  refine exec_of_answer ?_
  obtain rfl | rfl | rfl := hi
  · exact congrArg (finish resultOk) (writeBlock_zero ha)
  · exact congrArg (finish resultOk) (writeDeint16_zero ha)
  · exact congrArg (finish resultOk) (writeDeint8_zero ha)

end Sys2Proof.Machine

/-! The family 42_command_channel: what SEND_COMMAND and SEND_PARAM announce, and that neither acts in the interrupt
context (R130 to R133). -/

namespace Sys2Proof.Machine

variable {W : Nat → Prop} {s u : State} {i : Instr} {piece : State → Exit Unit} {off : Nat}

/-! ### The end of an operation -/

theorem endOp_sh_getWord {r : Result} (hb : Bus W s u) (hs : s.sh.wf = true) (hq : CoprocNoWrite (span off 4) s) :
    (u.envTick.endOp i r).sh.getWord off = u.sh.getWord off :=
  Memory.getWord_congr fun _ _ => endOp_sh_get hb hs (hq _ ⟨by omega, by omega⟩)

/-- An operation whose one piece of bus work goes on to u adds its own end to u's events, and leaves the words of u that
the coprocessor leaves alone. -/
theorem exec_of_piece_ok (hbody : bodyOf i = fun s => finish resultOk (piece s))
    (hbus : (piece (s.beginOp (contextOf i) i)).OnBus W (s.beginOp (contextOf i) i))
    (hu : piece (s.beginOp (contextOf i) i) = .ok () u) (hs : s.sh.wf = true) :
    ∃ t, exec i s = .next t ∧ BusRun (contextOf i) i resultOk W s t ∧
      t.events.filter Event.notPoll = .opEnd i resultOk :: u.events.filter Event.notPoll ∧
      (NoTimeout t → NoTimeout u) ∧
      ∀ off, CoprocNoWrite (span off 4) s → t.sh.getWord off = u.sh.getWord off := by
  rw [hu] at hbus
  obtain ⟨hb, hf, -⟩ := hbus
  refine ⟨u.envTick.endOp i resultOk, ?_, hb.busRun hf hs, ?_, NoTimeout.of_endOp, fun off hq => ?_⟩
  · rw [exec_eq, hbody, runOp_eq, hu]
    rfl
  · rw [State.endOp_events, envTick_events, List.filter_cons_of_pos rfl]
  · exact endOp_sh_getWord hb hs hq

/-! ### The commands -/

/-- Settles O33: SEND_COMMAND's body completes in the control context, and the slots outlast the last moves of the
coprocessor, if it leaves them alone. -/
theorem sendCommandAnnouncesTheCommand : Obligations.SendCommandAnnouncesTheCommand := by
  intro s cmd hv hs
  obtain ⟨g1, g2, n, u, hu, hevents, hread, hslots⟩ :=
    sendCommand_ok (s := s.beginOp .control (.sendCommand cmd)) (cmd := cmd) hv rfl
  obtain ⟨t, he, hrun, hend, hn, hword⟩ :=
    exec_of_piece_ok (i := .sendCommand cmd) rfl (sendCommand_onBus cmd) hu hs
  refine ⟨t, g1, g2, n, he, hrun, ?_, fun ht hq => ?_⟩
  · rw [hend, hevents]
    rfl
  · have hqc : CoprocNoWrite (span s.cfg.offCmd 4) s := hq.mono fun _ => .inl
    have hqs : CoprocNoWrite (span s.cfg.offSerial 4) s := hq.mono fun _ => .inr
    obtain ⟨hserial, hcmd⟩ := hslots hs (hn ht)
    exact ⟨hread hs hqs, (hword _ hqs).trans hserial, (hword _ hqc).trans (hcmd hqc)⟩

/-- Settles O34: SEND_PARAM's body completes in the control context, and the four slots outlast the last moves of the
coprocessor, if it leaves them alone. -/
theorem sendParamWritesParametersFirst : Obligations.SendParamWritesParametersFirst := by
  intro s cmd l r hv hs
  obtain ⟨g1, g2, g3, g4, n, u, hu, hevents, hread, hslots⟩ :=
    sendParam_ok (s := s.beginOp .control (.sendParam cmd l r)) (cmd := cmd) (l := l) (r := r) hv rfl
  obtain ⟨t, he, hrun, hend, hn, hword⟩ :=
    exec_of_piece_ok (i := .sendParam cmd l r) rfl (sendParam_onBus cmd l r) hu hs
  refine ⟨t, g1, g2, g3, g4, n, he, hrun, ?_, fun ht hq => ?_⟩
  · rw [hend, hevents]
    rfl
  · have hql : CoprocNoWrite (span s.cfg.offLparam 4) s := hq.mono fun _ => .inl
    have hqr : CoprocNoWrite (span s.cfg.offRparam 4) s := hq.mono fun _ h => .inr (.inl h)
    have hqc : CoprocNoWrite (span s.cfg.offCmd 4) s := hq.mono fun _ h => .inr (.inr (.inl h))
    have hqs : CoprocNoWrite (span s.cfg.offSerial 4) s := hq.mono fun _ h => .inr (.inr (.inr h))
    obtain ⟨hserial, hothers⟩ := hslots hs (hn ht)
    obtain ⟨hcmd, hleft, hright⟩ := hothers hq
    exact ⟨hread hs hqs, (hword _ hqs).trans hserial, (hword _ hqc).trans hcmd, (hword _ hql).trans hleft,
      (hword _ hqr).trans hright⟩

/-- Settles O35: the context is the first thing either call checks. -/
theorem commandsInInterruptFault : Obligations.CommandsInInterruptFault := by
  intro s i cmd l r ha
  have hintr : inInterrupt s = true := by rw [inInterrupt, ha]
  exact ⟨sendCommand_inInterrupt hintr, sendParam_inInterrupt hintr⟩

end Sys2Proof.Machine

/-! The family 43_playback_engine: SET_FORMAT, START, REFILL and STOP, what START's and a refill's copies leave, the
toggle law and the wrap law, and the mixer's volume calls (R140 to R151). -/

namespace Sys2Proof.Machine

variable {α β : Type} {W : Nat → Prop} {s t u : State} {i : Instr} {r : Result} {cfg : Params} {p : Precision}
  {c : Channels} {bs be b sink arg : Word} {a : Nat}

/-! ### Checks that stop an operation -/

theorem require_false_bind {x : Bool} {f : BlockFault} {k : Unit → State → Exit β} (h : x = false) :
    (require x f s).bind k = raise f s := by
  rw [h, require_false, raise_bind]

/-- An operation whose one piece raises a fault at once does nothing else. -/
theorem exec_of_piece_raise {piece : State → Exit Unit} {f : BlockFault}
    (hbody : bodyOf i = fun s => finish resultOk (piece s))
    (h : piece (s.beginOp (contextOf i) i) = raise f (s.beginOp (contextOf i) i)) : exec i s = .next (stopped i f s) :=
  exec_of_raise (by simp only [hbody, h]; rfl)

/-- An operation whose one piece goes on ends OK. -/
theorem exec_eq_of_piece {piece : State → Exit Unit} (hbody : bodyOf i = fun s => finish resultOk (piece s))
    (h : piece (s.beginOp (contextOf i) i) = .ok () u) : exec i s = .next (u.envTick.endOp i resultOk) := by
  rw [exec_eq, runOp_eq, hbody]
  simp only [h]
  rfl

/-- The check for Idle that SET_FORMAT and START begin with passes where the callback is NULL (R31). -/
theorem idle_check_null {f : BlockFault} {k : Word → Unit → State → Exit β} (h : s.dev.callback = some 0) :
    ((readField .callback s.dev.callback s).bind fun cb s => (require (!isPlaying cb) f s).bind (k cb)) = k 0 () s := by
  rw [readField_bind h, require_bind (c := !isPlaying 0) rfl]

/-- It raises its own fault where the callback is set and not NULL. -/
theorem idle_check_playing {f : BlockFault} {k : Word → Unit → State → Exit β} {cb : Word}
    (h : s.dev.callback = some cb) (hne : cb ≠ 0) :
    ((readField .callback s.dev.callback s).bind fun cb s => (require (!isPlaying cb) f s).bind (k cb)) =
      raise f s := by
  rw [readField_bind h, require_false_bind (by simpa [isPlaying] using hne)]

/-! ### SET_FORMAT (R140) -/

theorem precisionOf_eq_some_iff {w : Word} : precisionOf w = some p ↔ w = word p.toNat := by
  refine ⟨fun h => ?_, fun h => by rw [h]; cases p <;> rfl⟩
  unfold precisionOf at h
  split_ifs at h <;> cases h <;> assumption

theorem channelsOf_eq_some_iff {w : Word} : channelsOf w = some c ↔ w = word c.toNat := by
  refine ⟨fun h => ?_, fun h => by rw [h]; cases c <;> rfl⟩
  unfold channelsOf at h
  split_ifs at h <;> cases h <;> assumption

/-- The two precisions an operand can name. -/
theorem exists_precision_iff {w : Word} : (∃ p, precisionOf w = some p) ↔ w = 8 ∨ w = 16 := by
  simp only [precisionOf_eq_some_iff]
  exact ⟨fun ⟨p, h⟩ => by cases p with | bits8 => exact .inl h | bits16 => exact .inr h,
    fun h => h.elim (⟨.bits8, ·⟩) (⟨.bits16, ·⟩)⟩

/-- The two channel counts an operand can name. -/
theorem exists_channels_iff {w : Word} : (∃ c, channelsOf w = some c) ↔ w = 1 ∨ w = 2 := by
  simp only [channelsOf_eq_some_iff]
  exact ⟨fun ⟨c, h⟩ => by cases c with | mono => exact .inl h | stereo => exact .inr h,
    fun h => h.elim (⟨.mono, ·⟩) (⟨.stereo, ·⟩)⟩

theorem rateLegal_iff {w : Word} : rateLegal cfg w = true ↔ cfg.rateMin ≤ w.toNat ∧ w.toNat ≤ 65536 := by
  rw [rateLegal, Bool.and_eq_true, decide_eq_true_eq, decide_eq_true_eq]
  rfl

section SetFormat

variable {wp wc wr : Word}

theorem setFormat_ok (h : s.dev.callback = some 0) (hp : precisionOf wp = some p) (hc : channelsOf wc = some c)
    (hr : rateLegal s.cfg wr = true) : setFormat wp wc wr s =
      .ok () (s.setDev { s.dev with precision := some p, channels := some c, rate := some wr }) := by
  rw [setFormat, idle_check_null h, hp, hc, hr]

theorem setFormat_illegal (h : s.dev.callback = some 0)
    (hbad : ∀ p c, precisionOf wp = some p → channelsOf wc = some c → rateLegal s.cfg wr ≠ true) :
    setFormat wp wc wr s = raise (.badFormat wp wc wr) s := by
  rw [setFormat, idle_check_null h]
  split
  next p c hp hc hr => exact absurd hr (hbad p c hp hc)
  next => rfl

/-- Settles O36: the check for Idle stands first, and only a value outside the three tables stops an Idle SET_FORMAT. -/
theorem setFormat_holds : Obligations.SetFormat := by
  rintro s i wp wc wr cb rfl hcb
  refine ⟨fun hne => exec_of_piece_raise rfl ?playing, fun h0 hbad => exec_of_piece_raise rfl ?illegal,
    fun h0 hp hc hlo hhi => ?legal⟩
  case playing => exact idle_check_playing (s := s.beginOp _ _) hcb hne
  case illegal =>
    refine setFormat_illegal (s := s.beginOp _ _) (h0 ▸ hcb) fun p c hp hc hr => hbad ?_
    exact ⟨exists_precision_iff.mp ⟨p, hp⟩, exists_channels_iff.mp ⟨c, hc⟩, rateLegal_iff.mp hr⟩
  case legal =>
    obtain ⟨p, hp⟩ := exists_precision_iff.mpr hp
    obtain ⟨c, hc⟩ := exists_channels_iff.mpr hc
    refine ⟨p, c, (precisionOf_eq_some_iff.mp hp).symm, (channelsOf_eq_some_iff.mp hc).symm, ?_⟩
    exact exec_eq_of_piece rfl
      (setFormat_ok (s := s.beginOp _ _) (h0 ▸ hcb) hp hc (rateLegal_iff.mpr ⟨hlo, hhi⟩))

end SetFormat

/-! ### START's checks (R141) -/

theorem bufferLegal_iff : bufferLegal bs be b c = true ↔ 0 < b.toNat ∧ b.toNat % c.toNat = 0 ∧ bs.toNat < be.toNat ∧
    (be.toNat - bs.toNat) % b.toNat = 0 := by
  simp only [bufferLegal, Bool.and_eq_true, decide_eq_true_eq, beq_iff_eq, and_assoc]

/-! The five faults after the check for Idle, each reached when the checks before it pass. -/

theorem start_precision_unset (h0 : s.dev.callback = some 0) (hp : s.dev.precision = none) :
    start bs be b sink arg s = raise (.unset .precision) s :=
  (idle_check_null h0).trans (readField_none_bind hp)

theorem start_channels_unset (h0 : s.dev.callback = some 0) (hp : s.dev.precision ≠ none)
    (hc : s.dev.channels = none) : start bs be b sink arg s = raise (.unset .channels) s := by
  obtain ⟨p, hp⟩ := Option.ne_none_iff_exists'.mp hp
  exact (idle_check_null h0).trans ((readField_bind hp).trans (readField_none_bind hc))

theorem start_rate_unset (h0 : s.dev.callback = some 0) (hp : s.dev.precision ≠ none) (hc : s.dev.channels = some c)
    (hr : s.dev.rate = none) : start bs be b sink arg s = raise (.unset .rate) s := by
  obtain ⟨p, hp⟩ := Option.ne_none_iff_exists'.mp hp
  exact (idle_check_null h0).trans ((readField_bind hp).trans ((readField_bind hc).trans (readField_none_bind hr)))

theorem start_sink_null (h0 : s.dev.callback = some 0) (hp : s.dev.precision ≠ none) (hc : s.dev.channels = some c)
    (hr : s.dev.rate ≠ none) (hs : sink = 0) : start bs be b sink arg s = raise (.badArg sink) s := by
  obtain ⟨p, hp⟩ := Option.ne_none_iff_exists'.mp hp
  obtain ⟨wr, hr⟩ := Option.ne_none_iff_exists'.mp hr
  exact (idle_check_null h0).trans ((readField_bind hp).trans ((readField_bind hc).trans ((readField_bind hr).trans
    (require_false_bind (by simp [hs])))))

theorem start_buffer_illegal (h0 : s.dev.callback = some 0) (hp : s.dev.precision ≠ none)
    (hc : s.dev.channels = some c) (hr : s.dev.rate ≠ none) (hs : sink ≠ 0) (hl : bufferLegal bs be b c = false) :
    start bs be b sink arg s = raise (.badBuffer bs be b) s := by
  obtain ⟨p, hp⟩ := Option.ne_none_iff_exists'.mp hp
  obtain ⟨wr, hr⟩ := Option.ne_none_iff_exists'.mp hr
  exact (idle_check_null h0).trans ((readField_bind hp).trans ((readField_bind hc).trans ((readField_bind hr).trans
    ((require_bind (by simpa using hs)).trans (require_false_bind hl)))))

/-- Settles O37: each check is reached when those before it pass, and raises its fault at once. -/
theorem startChecksInOrder : Obligations.StartChecksInOrder := by
  rintro s i bs be b sink arg cb rfl hcb f hf
  refine exec_of_piece_raise rfl ?_
  obtain ⟨hne, rfl⟩ | ⟨rfl, hp, rfl⟩ | ⟨rfl, hp, hc, rfl⟩ | ⟨rfl, hp, hc, hr, rfl⟩ | ⟨rfl, hp, hc, hr, hs, rfl⟩ |
    ⟨c, rfl, hp, hc, hr, hs, hbad, rfl⟩ := hf
  · exact idle_check_playing (s := s.beginOp _ _) hcb hne
  · exact start_precision_unset (s := s.beginOp _ _) hcb hp
  · exact start_channels_unset (s := s.beginOp _ _) hcb hp hc
  · obtain ⟨c, hc⟩ := Option.ne_none_iff_exists'.mp hc
    exact start_rate_unset (s := s.beginOp _ _) hcb hp hc hr
  · obtain ⟨c, hc⟩ := Option.ne_none_iff_exists'.mp hc
    exact start_sink_null (s := s.beginOp _ _) hcb hp hc hr hs
  · refine start_buffer_illegal (s := s.beginOp _ _) hcb hp hc hr hs ?_
    rw [Bool.eq_false_iff, Ne, bufferLegal_iff]
    rintro ⟨hpos, hmod, hlt, hlen⟩
    obtain rfl | h | h | h := hbad
    · exact absurd hpos (by decide)
    · exact h hmod
    · omega
    · exact h hlen

/-! ### The end of an operation that writes the Device State -/

/-- An operation whose body is bus work from the Device State d ends as such. Its end leaves the words that the
coprocessor leaves alone. -/
theorem exec_of_body_ok {d : Device} (hbody : bodyOf i (s.beginOp (contextOf i) i) = .ok r u)
    (hb : Bus W ((s.beginOp (contextOf i) i).setDev d) u) (hf : u.fault = s.fault) (hs : s.sh.wf = true) :
    ∃ t, exec i s = .next t ∧ BusRun (contextOf i) i r W (s.setDev d) t ∧ (NoTimeout t → NoTimeout u) ∧
      ∀ off, CoprocNoWrite (span off 4) s → t.sh.getWord off = u.sh.getWord off := by
  refine ⟨u.envTick.endOp i r, by rw [exec_eq, runOp_eq, hbody]; rfl, ?_, NoTimeout.of_endOp, fun off hq => ?_⟩
  · exact Bus.busRun (s := s.setDev d) hb hf hs
  · exact endOp_sh_getWord hb hs hq

/-! ### REFILL (R144) -/

/-- Settles O41: the fields are read and the copies fit, so the refill goes on to its own update of the Device State. -/
theorem refillCompletes : Obligations.RefillCompletes := by
  intro s p c b o q bs be hs hreads hfits
  obtain ⟨u, hu, -, hb, hf, -⟩ := refill_ok (s := s.beginOp .control .refill) hreads hfits
  obtain ⟨t, he, hrun, -⟩ := exec_of_body_ok (i := .refill) (congrArg (finish resultOk) hu)
    (hb.setDev (s.dev.refilled c b o q bs be)) hf hs
  exact ⟨t, nextCursor bs be q b, he, rfl, hrun⟩

/-- A field that is UNSET is the first one, or the first one comes after it. -/
theorem readField_firstUnset {n f : Field} {v : Option α} {rest : Option Field} {k : α → State → Exit β}
    [Decidable (v = none)] (h : (if v = none then some n else rest) = some f)
    (hk : ∀ x, rest = some f → k x s = raise (.unset f) s) : (readField n v s).bind k = raise (.unset f) s := by
  cases v with
  | none =>
    rw [if_pos rfl, Option.some.injEq] at h
    rw [readField_none, raise_bind, h]
  | some x =>
    rw [if_neg nofun] at h
    exact hk x h

theorem refill_unset {f : Field} (h : firstUnset s.dev = some f) : refill s = raise (.unset f) s :=
  readField_firstUnset h fun _ h => readField_firstUnset h fun _ h => readField_firstUnset h fun _ h =>
    readField_firstUnset h fun _ h => readField_firstUnset h fun _ h => readField_firstUnset h fun _ h =>
      readField_firstUnset h nofun

/-- Settles O42: REFILL reads its fields in the order firstUnset looks at them. -/
theorem refillNeedsItsFields : Obligations.RefillNeedsItsFields :=
  fun s _ h => exec_of_piece_raise rfl (refill_unset (s := s.beginOp _ _) h)

/-! ### What a refill leaves, by REFILL and inside INTERRUPT (R145) -/

/-- From s to t the history grew, and shared memory changed by the coprocessor's moves alone. -/
structure LeavesSh (s t : State) : Prop where
  events : s.events <:+ t.events
  moves : t.inp.moves <:+ s.inp.moves
  sh_wf : s.sh.wf = true → t.sh.wf = true
  sh : s.sh.wf = true → KeepsSh (fun _ => False) s t

theorem LeavesSh.trans (h : LeavesSh s t) (h' : LeavesSh t u) : LeavesSh s u where
  events := h.events.trans h'.events
  moves := h'.moves.trans h.moves
  sh_wf hs := h'.sh_wf (h.sh_wf hs)
  sh hs a _ hq := (h'.sh (h.sh_wf hs) a id fun hm => hq (.of_suffix h.moves hm)).trans (h.sh hs a id hq)

/-- An update of other fields. -/
theorem LeavesSh.of_eq (he : s.events <:+ t.events) (hm : t.inp.moves = s.inp.moves) (hs : t.sh = s.sh) :
    LeavesSh s t :=
  ⟨he, hm ▸ List.suffix_rfl, fun h => hs ▸ h, fun _ a _ _ => congrArg (·.get a) hs⟩

theorem LeavesSh.envTick (s : State) : LeavesSh s s.envTick :=
  have hb := Bus.envTick (W := fun _ => False) s
  ⟨(envTick_events s) ▸ List.suffix_rfl, hb.moves, hb.sh_wf, hb.sh⟩

theorem LeavesSh.endOp (u : State) (i : Instr) (r : Result) : LeavesSh u (u.envTick.endOp i r) :=
  (LeavesSh.envTick u).trans (.of_eq (List.suffix_cons _ _) rfl rfl)

theorem LeavesSh.noTimeout (h : LeavesSh s t) (hn : NoTimeout t) : NoTimeout s := fun hm => hn (h.events.subset hm)

theorem notifySink_leavesSh (he : notifySink s = .ok () t) : LeavesSh s t := by
  obtain ⟨cb, _, h, he⟩ := Exit.bind_eq_ok.mp he
  obtain ⟨-, rfl⟩ := readField_eq_ok.mp h
  split at he
  · obtain ⟨arg, _, h, he⟩ := Exit.bind_eq_ok.mp he
    obtain ⟨-, rfl⟩ := readField_eq_ok.mp h
    cases he
    exact (LeavesSh.envTick s).trans (.of_eq (List.suffix_cons _ _) rfl rfl)
  · cases he
    exact .of_eq List.suffix_rfl rfl rfl

theorem acknowledge_leavesSh (he : acknowledge s = .ok () t) : LeavesSh s t := by
  obtain ⟨_, _, h, he⟩ := Exit.bind_eq_ok.mp he
  obtain ⟨-, rfl⟩ := require_eq_ok.mp h
  cases he
  exact (LeavesSh.envTick s).trans (.of_eq (List.suffix_cons _ _) rfl rfl)

/-- A REFILL or an INTERRUPT that ended with its result: a refill, and after it nothing but the coprocessor's moves
reached shared memory (R144, R170). -/
theorem exec_refill_leavesSh (hi : (i = .refill ∧ r = ⟨.ok, []⟩) ∨ (i = .interrupt ∧ r = ⟨.handled, []⟩))
    (he : exec i s = .next t) (hr : t.result = some r) :
    ∃ u, refill (s.beginOp (contextOf i) i) = .ok () u ∧ LeavesSh u t := by
  obtain ⟨v, hv, rfl⟩ := exec_of_result he hr
  obtain ⟨rfl, rfl⟩ | ⟨rfl, rfl⟩ := hi
  · exact ⟨v, (finish_eq_ok.mp hv).2, .endOp v _ _⟩
  · obtain ⟨_, u1, h1, hv⟩ := Exit.bind_eq_ok.mp hv
    obtain ⟨_, u2, h2, hv⟩ := Exit.bind_eq_ok.mp hv
    obtain ⟨-, h3⟩ := finish_eq_ok.mp hv
    exact ⟨u1, h1, ((notifySink_leavesSh h2).trans (acknowledge_leavesSh h3)).trans (.endOp v _ _)⟩

/-- Settles O43: the copies leave the block, and after them only the coprocessor could have written it. -/
theorem refillLayout : Obligations.RefillLayout := by
  intro s t i r p c b o q bs be hs hreads hi he hr hn hq hapart
  obtain ⟨v, hv, hleaves⟩ := exec_refill_leavesSh hi he hr
  obtain ⟨u, hu, rfl, hb, -⟩ := refill_bus (s := s.beginOp (contextOf i) i) hreads hv
  have hholds := refillCopy_holds hu (hleaves.noTimeout hn) hs hq hapart
  exact hholds.keep fun a ha =>
    hleaves.sh (hb.sh_wf hs) a id fun hm => hq a ha (.of_suffix hb.moves hm)

/-! ### What a START that goes on has done (R141) -/

/-- START stored its bounds, so its first refill finds its fields. -/
theorem bounded_refillReads {d : Device} (hp : d.precision = some p) (hc : d.channels = some c) :
    RefillReads (d.bounded bs be b) p c b 0 bs bs be := ⟨hp, hc, rfl, rfl, rfl, rfl, rfl⟩

/-- Two refills from the bounds START stored bring the half offset back and move the cursor two blocks on (R151). -/
theorem refilled_refilled {d : Device} (hl : bufferLegal bs be b c = true) :
    (d.refilled c b 0 bs bs be).refilled c b (nextHalf 0 b c) (nextCursor bs be bs b) bs be = d.primed bs be b := by
  obtain ⟨hpos, -, hlt, hlen⟩ := bufferLegal_iff.mp hl
  simp only [Device.refilled, Device.primed, nextHalf_nextHalf, nextCursor_nextCursor hpos hlt hlen]

/-- The bytes START's two refills store to: half 0 and half 1 (R142). -/
def primedSpan (cfg : Params) (p : Precision) (c : Channels) (b : Word) (a : Nat) : Prop :=
  refillSpan cfg p c b.toNat 0 a ∨ refillSpan cfg p c b.toNat (halfSize b c) a

theorem primings_bus {v : State} (hreads : RefillReads s.dev p c b 0 bs bs be) (hl : bufferLegal bs be b c = true)
    (h1 : refill s = .ok () u) (h2 : refill u = .ok () v) :
    Bus (primedSpan s.cfg p c b) (s.setDev (s.dev.primed bs be b)) v := by
  obtain ⟨u', -, rfl, hb1, -⟩ := refill_bus hreads h1
  have hreads2 : RefillReads (u'.setDev (s.dev.refilled c b 0 bs bs be)).dev p c b (nextHalf 0 b c)
      (nextCursor bs be bs b) bs be :=
    ⟨hreads.precision, hreads.channels, hreads.blockSize, rfl, rfl, hreads.bufferStart, hreads.bufferEnd⟩
  obtain ⟨v', -, rfl, hb2, -⟩ := refill_bus hreads2 h2
  rw [State.setDev_cfg, hb1.keeps.cfg, nextHalf_zero] at hb2
  rw [State.setDev_dev, refilled_refilled hl]
  have hhalf0 : Bus (primedSpan s.cfg p c b) s u' := hb1.mono fun _ => .inl
  have hhalf1 : Bus (primedSpan s.cfg p c b) _ v' := hb2.mono fun _ => .inr
  exact (hhalf0.setDev _).trans (hhalf1.setDev _)

/-- The slots of the PLAY parameters (R33). -/
def playSlots (cfg : Params) : List Nat := [cfg.offBlocksize, cfg.offChannel, cfg.offRate, cfg.offPrecision]

theorem playSpan_iff : playSpan cfg a ↔ (∃ o ∈ playSlots cfg, span o 4 a) ∨ commandSpan cfg a := by
  simp [playSpan, playSlots, or_assoc]

/-- What START sends after its refills, from s to u: the PLAY parameters, and from t on the PLAY command (R141). -/
structure SendsPlay (p : Precision) (c : Channels) (wr b : Word) (s t u : State) : Prop where
  params : playParams b c wr p s = .ok () t
  command : sendCommand s.cfg.cmdPlay t = .ok () u
  params_bus : Bus (fun a => ∃ o ∈ playSlots s.cfg, span o 4 a) s t
  command_bus : Bus (commandSpan s.cfg) t u

theorem sendsPlay {wr : Word} (hparams : playParams b c wr p s = .ok () t)
    (hcommand : sendCommand t.cfg.cmdPlay t = .ok () u) : SendsPlay p c wr b s t u := by
  have hb3 := playParams_onBus b c wr p s
  rw [hparams] at hb3
  obtain ⟨hb3, -⟩ := hb3
  have hb4 := sendCommand_onBus t.cfg.cmdPlay (s := t)
  rw [hcommand, hb3.keeps.cfg] at hb4
  exact ⟨hparams, hb3.keeps.cfg ▸ hcommand, hb3.mono fun a h => by simpa [playSlots] using h, hb4.1⟩

theorem SendsPlay.bus {wr : Word} (h : SendsPlay p c wr b s t u) : Bus (playSpan s.cfg) s u :=
  (h.params_bus.mono fun _ h => playSpan_iff.mpr (.inl h)).trans
    (h.command_bus.mono fun _ h => playSpan_iff.mpr (.inr h))

/-- A START that goes on from s (R141): its checks passed, its two refills led to t, PLAY was sent from t to u, and the
callback was registered. -/
structure StartRun (p : Precision) (c : Channels) (wr bs be b : Word) (s t u : State) : Prop where
  precision : s.dev.precision = some p
  channels : s.dev.channels = some c
  rate : s.dev.rate = some wr
  legal : bufferLegal bs be b c = true
  refills : ∃ t1, refill (s.setDev (s.dev.bounded bs be b)) = .ok () t1 ∧ refill t1 = .ok () t
  primed : Bus (primedSpan s.cfg p c b) (s.setDev ((s.dev.bounded bs be b).primed bs be b)) t
  play : ∃ v, SendsPlay p c wr b t v u

theorem start_run (he : start bs be b sink arg s = .ok () t) : ∃ p c wr t2 u, StartRun p c wr bs be b s t2 u ∧
    t = u.setDev (s.dev.started bs be b sink arg) := by
  obtain ⟨-, -, p, c, wr, hp, hc, hr, hl, u, hwork, rfl⟩ := start_eq_ok he
  have hreads : RefillReads (s.setDev (s.dev.bounded bs be b)).dev p c b 0 bs bs be := bounded_refillReads hp hc
  obtain ⟨t1, t2, t3, h1, h2, h3, h4, -⟩ := startWork_eq_ok hreads hwork
  have hprimed := primings_bus hreads hl h1 h2
  have hplay := sendsPlay h3 h4
  refine ⟨p, c, wr, t2, u, ⟨hp, hc, hr, hl, ⟨t1, h1, h2⟩, hprimed, ⟨t3, hplay⟩⟩, ?_⟩
  rw [hplay.bus.keeps.dev, hprimed.keeps.dev]
  rfl

/-- The bus work of the whole START. -/
theorem StartRun.bus {wr : Word} (h : StartRun p c wr bs be b s t u) (d : Device) :
    Bus (fun a => primedSpan s.cfg p c b a ∨ playSpan s.cfg a) (s.setDev d) (u.setDev d) := by
  obtain ⟨v, hplay⟩ := h.play
  have hsent := hplay.bus
  rw [h.primed.keeps.cfg] at hsent
  exact ((h.primed.setDev d).mono fun _ => .inl).trans ((hsent.setDev d).mono fun _ => .inr)

/-- A START that raised no fault ended OK, after its run. -/
theorem exec_start_run (he : exec (.start bs be b sink arg) s = .next t)
    (hend : t.fault = none ∨ t.result = some resultOk) :
    ∃ p c wr t2 u, StartRun p c wr bs be b (s.beginOp .control (.start bs be b sink arg)) t2 u ∧
      t = (u.setDev (s.dev.started bs be b sink arg)).envTick.endOp (.start bs be b sink arg) resultOk := by
  obtain ⟨r, v, hbody, rfl⟩ := hend.elim (exec_of_noFault he) fun hr => ⟨_, exec_of_result he hr⟩
  obtain ⟨rfl, hstart⟩ := finish_eq_ok.mp hbody
  obtain ⟨p, c, wr, t2, u, hrun, rfl⟩ := start_run hstart
  exact ⟨p, c, wr, t2, u, hrun, rfl⟩

/-! ### A START that completes (R236, R240) -/

theorem StartFits.legal (h : StartFits cfg c bs be b sink) : bufferLegal bs be b c = true :=
  bufferLegal_iff.mpr ⟨h.pos, Nat.mod_eq_zero_of_dvd ((Nat.dvd_mul_left _ _).trans (Nat.dvd_of_mod_eq_zero h.size)),
    h.bounds, h.whole⟩

/-- A START whose checks pass and whose work goes on registers the callback (R141). -/
theorem start_of_startWork {wr : Word} (hcb : s.dev.callback = some 0) (hp : s.dev.precision = some p)
    (hc : s.dev.channels = some c) (hr : s.dev.rate = some wr) (hfits : StartFits s.cfg c bs be b sink)
    (hwork : startWork b c wr p (s.setDev (s.dev.bounded bs be b)) = .ok () u)
    (hb : Bus W ((s.setDev (s.dev.bounded bs be b)).setDev ((s.dev.bounded bs be b).primed bs be b)) u) :
    start bs be b sink arg s = .ok () (u.setDev (s.dev.started bs be b sink arg)) := by
  rw [start_eq hcb hp hc hr hfits.sink hfits.legal, hwork, Exit.bind_ok, hb.keeps.dev]
  rfl

/-- Settles O38: the work from the stored bounds completes, and its Device State with the callback is START's. -/
theorem startCompletes : Obligations.StartCompletes := by
  intro s p c wr bs be b sink arg hv hs hcb hp hc hr hfits
  obtain ⟨u, -, -, -, -, -, -, -, -, hwork, hb, hf, -⟩ :=
    startWork_ok (s := (s.beginOp .control (.start bs be b sink arg)).setDev (s.dev.bounded bs be b)) (r := wr) hv rfl
      (bounded_refillReads hp hc) hfits
  have hbody := start_of_startWork (s := s.beginOp .control (.start bs be b sink arg)) (arg := arg) hcb hp hc hr hfits
    hwork hb
  obtain ⟨t, he, hrun, -⟩ := exec_of_body_ok (i := .start bs be b sink arg) (congrArg (finish resultOk) hbody)
    (hb.setDev (s.dev.started bs be b sink arg)) hf hs
  exact ⟨t, he, hrun⟩

/-- Settles O39: the events of the work, between the beginning and the end of the operation. -/
theorem startPrimesBeforePlay : Obligations.StartPrimesBeforePlay := by
  intro s p c wr bs be b sink arg hv hcb hp hc hr hfits
  obtain ⟨u, es, n, g1, g2, g3, g4, g5, g6, hwork, hb, -, -, hevents, hes⟩ :=
    startWork_ok (s := (s.beginOp .control (.start bs be b sink arg)).setDev (s.dev.bounded bs be b)) (r := wr) hv rfl
      (bounded_refillReads hp hc) hfits
  have hbody := start_of_startWork (s := s.beginOp .control (.start bs be b sink arg)) (arg := arg) hcb hp hc hr hfits
    hwork hb
  refine ⟨(u.setDev (s.dev.started bs be b sink arg)).envTick.endOp (.start bs be b sink arg) resultOk, es, n, g1, g2,
    g3, g4, g5, g6, ?_, ?_, hes⟩
  · exact exec_eq_of_piece rfl hbody
  · rw [State.endOp_events, envTick_events, State.setDev_events, List.filter_cons_of_pos rfl, hevents]
    rfl

/-! ### The slots and the halves after START (R143, R145) -/

/-- The slots of the PLAY parameters do not overlap the command and serial slots (R8). -/
theorem playSlot_not_command (hv : cfg.Valid) {o : Nat} (ho : o ∈ playSlots cfg) (ha : span o 4 a) :
    ¬ commandSpan cfg a := by
  have hd := hv.slots_disjoint4
  simp only [Params.slots, List.pairwise_cons, List.mem_cons, forall_eq_or_imp] at hd
  obtain ⟨⟨-, -, -, c1, c2, c3, c4, -⟩, ⟨-, -, s1, s2, s3, s4, -⟩, -⟩ := hd
  simp only [playSlots, List.mem_cons, List.not_mem_nil, or_false] at ho
  unfold commandSpan span at *
  obtain rfl | rfl | rfl | rfl := ho <;> omega

/-- The PLAY parameters stand in their slots after PLAY is sent, when no wait timed out and the slots are left alone
(R143). -/
theorem SendsPlay.params_slots {wr : Word} (h : SendsPlay p c wr b s t u) (hv : s.cfg.Valid) (hs : s.sh.wf = true)
    (hn : NoTimeout u) (hq : CoprocNoWrite (playSpan s.cfg) s) :
    u.sh.getWord s.cfg.offBlocksize = word (halfSize b c) ∧ u.sh.getWord s.cfg.offChannel = word c.toNat ∧
      u.sh.getWord s.cfg.offRate = wr ∧ u.sh.getWord s.cfg.offPrecision = word p.toNat := by
  obtain ⟨-, -, -, -, t', hparams, -, hslots⟩ := playParams_ok (s := s) (b := b) (r := wr) (c := c) (p := p) hv
  obtain rfl : t = t' := by cases h.params.symm.trans hparams; rfl
  have hkept : ∀ o ∈ playSlots s.cfg, u.sh.getWord o = t.sh.getWord o := fun o ho =>
    (h.command_bus.sh (h.params_bus.sh_wf hs)).getWord (fun _ => playSlot_not_command hv ho)
      ((hq.of_bus h.params_bus).mono fun _ ha => playSpan_iff.mpr (.inl ⟨o, ho, ha⟩))
  simp only [playSlots, List.forall_mem_cons] at hkept
  obtain ⟨hblock, hchannel, hrate, hprecision, -⟩ := hkept
  rw [hblock, hchannel, hrate, hprecision]
  exact hslots hs (h.command_bus.noTimeout hn) hq

/-- CMD_PLAY stands in its slot after PLAY is sent, and the serial is one more than before the PLAY
parameters (R143). -/
theorem SendsPlay.command_slots {wr : Word} (h : SendsPlay p c wr b s t u) (hv : s.cfg.Valid)
    (hctx : inInterrupt s = false) (hs : s.sh.wf = true) (hn : NoTimeout u)
    (hq : CoprocNoWrite (commandSpan s.cfg) s) : u.sh.getWord s.cfg.offCmd = s.cfg.cmdPlay ∧
      u.sh.getWord s.cfg.offSerial = s.sh.getWord s.cfg.offSerial + 1 := by
  have hb := h.params_bus
  have hcfg : t.cfg = s.cfg := hb.keeps.cfg
  obtain ⟨-, -, n, u', hsend, -, hread, hslots⟩ := sendCommand_ok (s := t) (cmd := s.cfg.cmdPlay) (hcfg ▸ hv)
    (by rw [inInterrupt, hb.active]; exact hctx)
  obtain rfl : u = u' := by cases h.command.symm.trans hsend; rfl
  rw [hcfg] at hread hslots
  have hqs : CoprocNoWrite (span s.cfg.offSerial 4) s := hq.mono fun _ => .inr
  obtain ⟨hserial, hcmd⟩ := hslots (hb.sh_wf hs) hn
  have hkept : t.sh.getWord s.cfg.offSerial = s.sh.getWord s.cfg.offSerial :=
    (hb.sh hs).getWord (fun _ ha ⟨_, ho, ha'⟩ => playSlot_not_command hv ho ha' (.inr ha)) hqs
  rw [hread (hb.sh_wf hs) (hqs.of_bus hb), hkept] at hserial
  exact ⟨hcmd ((hq.of_bus hb).mono fun _ => .inl), hserial⟩

/-- Settles O40: the slots outlast the refills before them, the registered callback and the last moves of the
coprocessor. -/
theorem playSlotValues : Obligations.PlaySlotValues := by
  intro s t p c wr bs be b sink arg hv hs hp hc hr he hres hn hq
  obtain ⟨p', c', wr', t2, u, hrun, rfl⟩ := exec_start_run he (.inr hres)
  obtain rfl : p = p' := Option.some.inj (hp.symm.trans hrun.precision)
  obtain rfl : c = c' := Option.some.inj (hc.symm.trans hrun.channels)
  obtain rfl : wr = wr' := Option.some.inj (hr.symm.trans hrun.rate)
  have hprimed := hrun.primed
  have hcfg : t2.cfg = s.cfg := hprimed.keeps.cfg
  have hq2 : CoprocNoWrite (playSpan s.cfg) t2 := CoprocNoWrite.of_bus hprimed hq
  have hctx : inInterrupt t2 = false := by rw [inInterrupt, hprimed.active]; rfl
  obtain ⟨v, hplay⟩ := hrun.play
  have hparams := hplay.params_slots (hcfg ▸ hv) (hprimed.sh_wf hs) hn.of_endOp (hcfg ▸ hq2)
  have hcommand := hplay.command_slots (hcfg ▸ hv) hctx (hprimed.sh_wf hs) hn.of_endOp
    (hcfg ▸ hq2.mono fun _ h => playSpan_iff.mpr (.inr h))
  rw [hcfg] at hparams hcommand
  obtain ⟨hblock, hchannel, hrate, hprecision⟩ := hparams
  obtain ⟨hcmd, hserial⟩ := hcommand
  have hend {o : Nat} (ho : ∀ a, span o 4 a → playSpan s.cfg a) :=
    endOp_sh_getWord (i := .start bs be b sink arg) (r := resultOk)
      (hrun.bus (s.dev.started bs be b sink arg)) hs (CoprocNoWrite.mono hq ho)
  have hslots : ∀ o ∈ playSlots s.cfg, _ := fun o ho => hend fun _ ha => playSpan_iff.mpr (.inl ⟨o, ho, ha⟩)
  have hserialSpan (a : Nat) (ha : span s.cfg.offSerial 4 a) : playSpan s.cfg a := playSpan_iff.mpr (.inr (.inr ha))
  simp only [playSlots, List.forall_mem_cons] at hslots
  obtain ⟨eblock, echannel, erate, eprecision, -⟩ := hslots
  refine ⟨eblock.trans hblock, echannel.trans hchannel, erate.trans hrate, eprecision.trans hprecision,
    (hend fun _ ha => playSpan_iff.mpr (.inr (.inl ha))).trans hcmd,
    fun hapart => ((hend hserialSpan).trans hserial).trans ?_⟩
  have hkept := (hprimed.sh hs).getWord (fun a ha h => h.elim (hapart a ha).1 (hapart a ha).2)
    (CoprocNoWrite.mono hq hserialSpan)
  exact congrArg (· + 1) hkept

/-- The cursor after START's first refill: the second block, or the first again where the buffer is one block. -/
theorem nextCursor_start_toNat : (nextCursor bs be bs b).toNat =
    if be.toNat ≤ bs.toNat + b.toNat then bs.toNat else bs.toNat + b.toNat := by
  rw [nextCursor]
  split
  · rfl
  · exact Nat.mod_eq_of_lt (by have := be.isLt; omega)

/-- Settles O44: the refills leave the two blocks, and what START sends and the coprocessor writes after them lies outside
the halves. -/
theorem startLayout : Obligations.StartLayout := by
  intro s t p c bs be b sink arg q hv hs hp hc hfits hq he hres hn hquiet hapart hslots
  obtain ⟨p', c', wr, t2, u, hrun, rfl⟩ := exec_start_run he (.inr hres)
  obtain rfl : p = p' := Option.some.inj (hp.symm.trans hrun.precision)
  obtain rfl : c = c' := Option.some.inj (hc.symm.trans hrun.channels)
  obtain ⟨t1, h1, h2⟩ := hrun.refills
  have hprimed := hrun.primed
  obtain ⟨v, hplay⟩ := hrun.play
  have hcfg : t2.cfg = s.cfg := hprimed.keeps.cfg
  obtain ⟨hblock0, hblock1⟩ := primings_hold (s := (s.beginOp .control _).setDev (s.dev.bounded bs be b))
    (bounded_refillReads hp hc) hfits (hq.trans nextCursor_start_toNat.symm) h1 h2 (hplay.bus.noTimeout hn.of_endOp) hs
    hquiet hapart
  have hkeep (a : Nat) (ha : halvesSpan s.cfg c b a) :
      ((u.setDev (s.dev.started bs be b sink arg)).envTick.endOp (.start bs be b sink arg) resultOk).sh.get a =
        t2.sh.get a :=
    (endOp_sh_get (hrun.bus _) hs (hquiet a ha)).trans
      (hplay.bus.sh (hprimed.sh_wf hs) a (hcfg ▸ hslots a ha) fun hm => hquiet a ha (.of_suffix hprimed.moves hm))
  exact ⟨hblock0.keep fun a ha => hkeep a (refillSpan_halves hfits.size (.inl rfl) ha),
    hblock1.keep fun a ha => hkeep a (refillSpan_halves hfits.size (.inr rfl) ha)⟩

/-! ### The toggle law and the wrap law (R150, R151) -/

/-- The Device State after m refills since START stored its bounds. -/
structure AfterRefills (c : Channels) (bs be b : Word) (m : Nat) (d : Device) : Prop where
  channels : d.channels = some c
  blockSize : d.blockSize = some b
  bufferStart : d.bufferStart = some bs
  bufferEnd : d.bufferEnd = some be
  nextFillOffset : d.nextFillOffset = some (word (m % 2 * halfSize b c))
  bufferCursor : ∃ q, d.bufferCursor = some q ∧
    q.toNat = bs.toNat + m % ((be.toNat - bs.toNat) / b.toNat) * b.toNat

/-- A refill toggles the half (R150). -/
theorem nextHalf_toggles (m : Nat) :
    nextHalf (word (m % 2 * halfSize b c)) b c = word ((m + 1) % 2 * halfSize b c) := by
  obtain h | h := Nat.mod_two_eq_zero_or_one m
  · rw [h, show (m + 1) % 2 = 1 by omega, Nat.zero_mul, Nat.one_mul]
    exact BitVec.zero_xor
  · rw [h, show (m + 1) % 2 = 0 by omega, Nat.zero_mul, Nat.one_mul]
    exact BitVec.xor_self

/-- The buffer is a whole number of blocks, at least one (R141). -/
theorem buffer_blocks (hl : bufferLegal bs be b c = true) :
    be.toNat = bs.toNat + (be.toNat - bs.toNat) / b.toNat * b.toNat ∧ 0 < (be.toNat - bs.toNat) / b.toNat := by
  obtain ⟨hpos, -, hlt, hlen⟩ := bufferLegal_iff.mp hl
  have hdvd := Nat.dvd_of_mod_eq_zero hlen
  exact ⟨by rw [Nat.div_mul_cancel hdvd]; omega, Nat.div_pos (Nat.le_of_dvd (by omega) hdvd) hpos⟩

/-- A refill moves the cursor one block on, in a ring of k blocks (R151). -/
theorem nextCursor_wraps {q : Word} {k m : Nat} (hbe : be.toNat = bs.toNat + k * b.toNat) (hk : 0 < k)
    (hpos : 0 < b.toNat) (hq : q.toNat = bs.toNat + m % k * b.toNat) :
    (nextCursor bs be q b).toNat = bs.toNat + (m + 1) % k * b.toNat := by
  have hsucc : q.toNat + b.toNat = bs.toNat + (m % k + 1) * b.toNat := by rw [hq, Nat.succ_mul, Nat.add_assoc]
  have hm : m % k < k := Nat.mod_lt m hk
  rw [nextCursor, hsucc, hbe]
  by_cases hlast : m % k + 1 = k
  · have : (m + 1) % k = 0 := by rw [← Nat.mod_add_mod, hlast, Nat.mod_self]
    rw [hlast, if_pos le_rfl, this, Nat.zero_mul, Nat.add_zero]
  · have hlt : (m % k + 1) * b.toNat < k * b.toNat := Nat.mul_lt_mul_of_pos_right (by omega) hpos
    have : (m + 1) % k = m % k + 1 := by rw [← Nat.mod_add_mod, Nat.mod_eq_of_lt (by omega)]
    rw [if_neg (by omega), this]
    exact Nat.mod_eq_of_lt (by have := be.isLt; omega)

/-- START's bounds, before any refill. -/
theorem afterRefills_bounded {d : Device} (hc : d.channels = some c) : AfterRefills c bs be b 0 (d.bounded bs be b) :=
  ⟨hc, rfl, rfl, rfl, by simp only [Nat.zero_mod, Nat.zero_mul]; rfl, bs, rfl, by simp⟩

/-- One refill more. -/
theorem AfterRefills.refilled {d : Device} {m : Nat} {c' : Channels} {b' o q bs' be' : Word}
    (h : AfterRefills c bs be b m d) (hl : bufferLegal bs be b c = true) (hr : RefillReads d p c' b' o q bs' be') :
    AfterRefills c bs be b (m + 1) (d.refilled c' b' o q bs' be') := by
  obtain rfl : c = c' := Option.some.inj (h.channels.symm.trans hr.channels)
  obtain rfl : b = b' := Option.some.inj (h.blockSize.symm.trans hr.blockSize)
  obtain rfl : bs = bs' := Option.some.inj (h.bufferStart.symm.trans hr.bufferStart)
  obtain rfl : be = be' := Option.some.inj (h.bufferEnd.symm.trans hr.bufferEnd)
  obtain rfl : o = word (m % 2 * halfSize b c) := Option.some.inj (hr.nextFillOffset.symm.trans h.nextFillOffset)
  obtain ⟨q', hq', hcursor⟩ := h.bufferCursor
  obtain rfl : q = q' := Option.some.inj (hr.bufferCursor.symm.trans hq')
  obtain ⟨hpos, -, -, -⟩ := bufferLegal_iff.mp hl
  obtain ⟨hbe, hk⟩ := buffer_blocks hl
  exact ⟨h.channels, h.blockSize, h.bufferStart, h.bufferEnd, congrArg some (nextHalf_toggles m), _, rfl,
    nextCursor_wraps hbe hk hpos hcursor⟩

/-- START's own two refills. -/
theorem afterRefills_started {d : Device} (hp : d.precision = some p) (hc : d.channels = some c)
    (hl : bufferLegal bs be b c = true) : AfterRefills c bs be b 2 (d.started bs be b sink arg) := by
  have hreads : RefillReads (d.bounded bs be b) p c b 0 bs bs be := bounded_refillReads hp hc
  have hreads1 : RefillReads ((d.bounded bs be b).refilled c b 0 bs bs be) p c b (nextHalf 0 b c)
      (nextCursor bs be bs b) bs be := ⟨hp, hc, rfl, rfl, rfl, rfl, rfl⟩
  have h := ((afterRefills_bounded hc).refilled hl hreads).refilled hl hreads1
  rw [refilled_refilled hl] at h
  exact ⟨h.channels, h.blockSize, h.bufferStart, h.bufferEnd, h.nextFillOffset, h.bufferCursor⟩

/-- What a REFILL or an INTERRUPT without a fault has done to the Device State: one refill (R144, R170). -/
theorem exec_refilled (he : exec .refill s = .next t ∨ exec .interrupt s = .next t) (hf : t.fault = none) :
    ∃ p c b o q bs be, RefillReads s.dev p c b o q bs be ∧ t.dev = s.dev.refilled c b o q bs be := by
  obtain he | he := he <;> obtain ⟨r, v, hbody, rfl⟩ := exec_of_noFault he hf
  · obtain ⟨-, hrefill⟩ := finish_eq_ok.mp hbody
    obtain ⟨p, c, b, o, q, bs, be, u, hr, -, rfl, hdev⟩ := refill_eq_ok hrefill
    exact ⟨p, c, b, o, q, bs, be, hr, by rw [State.endOp_dev, envTick_dev, State.setDev_dev, hdev]; rfl⟩
  · obtain ⟨-, -, p, c, b, o, q, bs, be, hr, hdev⟩ := interruptBody_eq_ok hbody
    exact ⟨p, c, b, o, q, bs, be, hr, by rw [State.endOp_dev, envTick_dev, hdev]; rfl⟩

theorem Refills.afterRefills {n m : Nat} (hl : bufferLegal bs be b c = true) (h : Refills n s t)
    (hs : AfterRefills c bs be b m s.dev) : AfterRefills c bs be b (m + n) t.dev := by
  induction n generalizing s m with
  | zero => exact h ▸ hs
  | succ n ih =>
    obtain ⟨u, he, hf, hrest⟩ := h
    obtain ⟨p, c', b', o, q, bs', be', hr, hdev⟩ := exec_refilled he hf
    rw [show m + (n + 1) = m + 1 + n by omega]
    exact ih hrest (hdev ▸ hs.refilled hl hr)

theorem Interrupts.refills {n : Nat} (h : Interrupts n s t) : Refills n s t := by
  induction n generalizing s with
  | zero => exact h
  | succ n ih =>
    obtain ⟨u, he, hf, hrest⟩ := h
    exact ⟨u, .inr he, hf, ih hrest⟩

/-- After a START and n refills, none of which faulted. -/
theorem exec_start_afterRefills {n : Nat} (he : exec (.start bs be b sink arg) s = .next t) (hf : t.fault = none)
    (h : Refills n t u) : ∃ c, s.dev.channels = some c ∧ bufferLegal bs be b c = true ∧
      AfterRefills c bs be b (2 + n) u.dev := by
  obtain ⟨p, c, wr, t2, v, hrun, rfl⟩ := exec_start_run he (.inl hf)
  refine ⟨c, hrun.channels, hrun.legal, h.afterRefills hrun.legal ?_⟩
  rw [State.endOp_dev, envTick_dev]
  exact afterRefills_started hrun.precision hrun.channels hrun.legal

/-- Settles O46: START's two refills and each INTERRUPT toggle the half. -/
theorem toggleLaw : Obligations.ToggleLaw := by
  intro s t u bs be b sink arg c n hc he hf h
  obtain ⟨c', hc', -, hafter⟩ := exec_start_afterRefills he hf h.refills
  obtain rfl : c = c' := Option.some.inj (hc.symm.trans hc')
  rw [hafter.nextFillOffset, Nat.add_mod_left]
  rfl

/-- Settles O47: each refill moves the cursor one block on in the ring of k blocks. -/
theorem wrapLaw : Obligations.WrapLaw := by
  rintro s t u bs be b sink arg n k he hf h rfl
  obtain ⟨c, -, hl, hafter⟩ := exec_start_afterRefills he hf h
  obtain ⟨q, hq, hcursor⟩ := hafter.bufferCursor
  obtain ⟨hpos, -⟩ := bufferLegal_iff.mp hl
  obtain ⟨hbe, hk⟩ := buffer_blocks hl
  have hlt := Nat.mul_lt_mul_of_pos_right (Nat.mod_lt (2 + n) hk) hpos
  exact ⟨q, hq, hcursor, by omega⟩

/-! ### STOP (R147) -/

theorem stop_ok (h : sendCommand s.cfg.cmdStop s = .ok () u) :
    stop s = .ok () (u.setDev { s.dev with callback := some 0 }) := by
  have hbus := sendCommand_onBus s.cfg.cmdStop (s := s)
  rw [h] at hbus
  rw [stop, h, Exit.bind_ok, hbus.1.keeps.dev]

/-- Settles O48: CMD_STOP is sent whatever the callback is, and then the callback is NULL. -/
theorem stopCompletes : Obligations.StopCompletes := by
  intro s hv hs
  obtain ⟨-, -, n, u, hu, -, hread, hslots⟩ :=
    sendCommand_ok (s := s.beginOp .control .stop) (cmd := s.cfg.cmdStop) hv rfl
  have hbus := sendCommand_onBus s.cfg.cmdStop (s := s.beginOp .control .stop)
  rw [hu] at hbus
  obtain ⟨hb, hf, -⟩ := hbus
  obtain ⟨t, he, hrun, hnt, hword⟩ := exec_of_body_ok (i := .stop)
    (congrArg (finish resultOk) (stop_ok (s := s.beginOp .control .stop) hu)) (hb.setDev _) hf hs
  refine ⟨t, he, hrun, fun hn hq => ?_⟩
  have hqc : CoprocNoWrite (span s.cfg.offCmd 4) s := hq.mono fun _ => .inl
  have hqs : CoprocNoWrite (span s.cfg.offSerial 4) s := hq.mono fun _ => .inr
  obtain ⟨hserial, hcmd⟩ := hslots hs (hnt hn)
  rw [hread hs hqs] at hserial
  exact ⟨(hword _ hqc).trans (hcmd hqc), (hword _ hqs).trans hserial⟩

/-! ### The mixer (R148, R149) -/

/-- A volume operand that fits its field is the parameter word sent (R82, R148). -/
theorem volumeWord_volumeOf {v : Word} (hv : v.toNat ≤ 255) : volumeWord (volumeOf v) = v := by
  apply BitVec.eq_of_toNat_eq
  simp only [volumeWord, volumeOf, BitVec.toNat_setWidth]
  omega

/-- An operation of the control path that stores the Device State d and then sends a parameter command. -/
theorem exec_of_sendParam {cmd left right : Word} {d : Device} (hi : contextOf i = .control)
    (hbody : bodyOf i (s.beginOp .control i) = finish resultOk (sendParam cmd left right u))
    (hbu : Bus (fun _ => False) ((s.beginOp .control i).setDev d) u) (hfu : u.fault = s.fault) (hv : s.cfg.Valid)
    (hs : s.sh.wf = true) : ∃ t, exec i s = .next t ∧ BusRun .control i resultOk (paramSpan s.cfg) (s.setDev d) t ∧
      (NoTimeout t → CoprocNoWrite (paramSpan s.cfg) s → t.sh.getWord s.cfg.offLparam = left ∧
        t.sh.getWord s.cfg.offRparam = right ∧ t.sh.getWord s.cfg.offCmd = cmd ∧
        t.sh.getWord s.cfg.offSerial = s.sh.getWord s.cfg.offSerial + 1) := by
  have hcfg : u.cfg = s.cfg := hbu.keeps.cfg
  have hctx : inInterrupt u = false := by rw [inInterrupt, hbu.active]; rfl
  obtain ⟨-, -, -, -, n, v, hsend, -, hread, hslots⟩ := sendParam_ok (s := u) (cmd := cmd) (l := left) (r := right)
    (hcfg ▸ hv) hctx
  have hbus := sendParam_onBus cmd left right (s := u)
  rw [hsend, hcfg] at hbus
  rw [hcfg] at hread hslots
  obtain ⟨hb, hf, -⟩ := hbus
  obtain ⟨t, he, hrun, hnt, hword⟩ := exec_of_body_ok (i := i) (u := v) (r := resultOk)
    (by rw [hi, hbody, hsend, finish_ok]) (hi ▸ (hbu.mono fun _ h => h.elim).trans hb) (hf.trans hfu) hs
  refine ⟨t, he, hi ▸ hrun, fun hn hq => ?_⟩
  have hql : CoprocNoWrite (span s.cfg.offLparam 4) s := hq.mono fun _ => .inl
  have hqr : CoprocNoWrite (span s.cfg.offRparam 4) s := hq.mono fun _ h => .inr (.inl h)
  have hqc : CoprocNoWrite (span s.cfg.offCmd 4) s := hq.mono fun _ h => .inr (.inr (.inl h))
  have hqs : CoprocNoWrite (span s.cfg.offSerial 4) s := hq.mono fun _ h => .inr (.inr (.inr h))
  obtain ⟨hserial, hothers⟩ := hslots (hbu.sh_wf hs) (hnt hn)
  obtain ⟨hcmd, hleft, hright⟩ := hothers (CoprocNoWrite.of_bus hbu hq)
  have hsame : u.sh.getWord s.cfg.offSerial = s.sh.getWord s.cfg.offSerial := (hbu.sh hs).getWord (fun _ _ => id) hqs
  rw [hread (hbu.sh_wf hs) (CoprocNoWrite.of_bus hbu hqs), hsame] at hserial
  exact ⟨(hword _ hql).trans hleft, (hword _ hqr).trans hright, (hword _ hqc).trans hcmd, (hword _ hqs).trans hserial⟩

/-- Settles O49: either volume call stores its levels and then sends them; the master's right parameter is a draw. -/
theorem mixerSetCompletes : Obligations.MixerSetCompletes := by
  intro s v0 v1 hv hs h0 h1
  refine ⟨?master, ?gain⟩
  case master =>
    obtain ⟨t, he, hrun, hslots⟩ := exec_of_sendParam (s := s) (i := .mixerSet 0 1 v0 v1) (cmd := s.cfg.cmdMvol)
      (left := volumeWord (volumeOf v0)) (right := s.inp.drawWord.1)
      (d := { s.dev with outputMaster := some (volumeOf v0) }) rfl rfl (.setInp (drawWord_sameScript s.inp)) rfl hv hs
    refine ⟨t, he, hrun, fun hn hq => ?_⟩
    obtain ⟨hleft, -, hcmd, hserial⟩ := hslots hn hq
    exact ⟨hleft.trans (volumeWord_volumeOf h0), hcmd, hserial⟩
  case gain =>
    obtain ⟨t, he, hrun, hslots⟩ := exec_of_sendParam (s := s) (i := .mixerSet 1 2 v0 v1) (cmd := s.cfg.cmdVol)
      (left := volumeWord (volumeOf v0)) (right := volumeWord (volumeOf v1))
      (d := { s.dev with outputGainLeft := some (volumeOf v0), outputGainRight := some (volumeOf v1) })
      rfl rfl (.refl _ _) rfl hv hs
    rw [volumeWord_volumeOf h0, volumeWord_volumeOf h1] at hslots
    exact ⟨t, he, hrun, hslots⟩

theorem mixerIndexOf_other {x : Word} (h0 : x ≠ 0) (h1 : x ≠ 1) :
    mixerIndexOf x = .outputClass ∨ mixerIndexOf x = .unknown := by
  rw [mixerIndexOf, if_neg h0, if_neg h1]
  split
  · exact .inl rfl
  · exact .inr rfl

theorem mixerSet_invalid {x n v0 v1 : Word} (h : (x = 0 ∧ n ≠ 1) ∨ (x = 1 ∧ n ≠ 2) ∨ (x ≠ 0 ∧ x ≠ 1)) :
    mixerSet x n v0 v1 s = .ok resultInvalid s := by
  obtain ⟨rfl, hn⟩ | ⟨rfl, hn⟩ | ⟨h0, h1⟩ := h
  · exact if_neg hn
  · exact if_neg hn
  · obtain h | h := mixerIndexOf_other h0 h1 <;> rw [mixerSet, h]

/-- Settles O50: a wrong index or value count is answered before anything is stored or sent. -/
theorem wrongMixerIndexIsInvalid : Obligations.WrongMixerIndexIsInvalid :=
  fun _ _ _ _ _ h => exec_of_answer (mixerSet_invalid h)

theorem mixerGet_invalid {x : Word} (h0 : x ≠ 0) (h1 : x ≠ 1) : mixerGet x s = .ok resultInvalid s := by
  obtain h | h := mixerIndexOf_other h0 h1 <;> rw [mixerGet, h]

/-- Settles O51: the levels are read as they stand, and any other index is answered at once. -/
theorem mixerGet_holds : Obligations.MixerGet := by
  intro s m l r hm hl hr i a hi
  refine exec_of_answer ?_
  obtain ⟨rfl, rfl⟩ | ⟨rfl, rfl⟩ | ⟨x, h0, h1, rfl, rfl⟩ := hi
  · exact readField_bind hm
  · exact (readField_bind hl).trans (readField_bind hr)
  · exact mixerGet_invalid h0 h1

end Sys2Proof.Machine

/-! The family 44_interrupt_handler: when INTERRUPT begins, what an INTERRUPT that ends has done, and what one that faults
has not (R170 to R175). -/

namespace Sys2Proof.Machine

variable {s t u : State} {cb arg : Word}

/-! ### Delivery (R171) -/

/-- At the interrupt path's turn an operation boundary offers INTERRUPT. -/
theorem boundary_interrupt {ts : List Agent} (ha : s.active = none) (ht : s.inp.turns = .interrupt :: ts) :
    boundary s = interruptTurn (s.envTick.setInp { s.envTick.inp with turns := ts }) := by
  have hdraw : s.envTick.inp.drawTurn = (.interrupt, { s.envTick.inp with turns := ts }) := by
    rw [Inputs.drawTurn, envTick_turns, ht]
  simp only [boundary, envTick_active, ha, hdraw]

/-- Between two operations of a block without a fault, INTERRUPT is ready when it is pending and INIT has succeeded. -/
theorem interruptReady_iff (hf : s.fault = none) (ha : s.active = none) :
    interruptReady s = true ↔ s.irqPending = true ∧ s.initialized = true := by
  simp [interruptReady, hf, ha]

/-- Settles O11: the boundary leaves the fault and the lock, so readiness is the pending bit and the lifecycle. -/
theorem interruptDelivery : Obligations.InterruptDelivery := by
  intro s u ts hf ha ht hu
  have hb : boundary s = interruptTurn u := hu ▸ boundary_interrupt ha ht
  have hready : interruptReady u = true ↔ u.irqPending = true ∧ u.initialized = true :=
    interruptReady_iff (by simp [hu, hf]) (by simp [hu, ha])
  by_cases h : u.irqPending = true ∧ u.initialized = true
  · simp only [step, haltedFault, hf, hb, interruptTurn, if_pos (hready.mpr h), if_pos h]
  · simp only [step, haltedFault, hf, hb, interruptTurn, if_neg (mt hready.mp h), if_neg h]

/-! ### An INTERRUPT that ends (R170, R172, R175) -/

/-- The acknowledge clears the pending bit, and the register block keeps its word (R35, R205). -/
theorem writeReg_acknowledges (hc : t.cfg = s.cfg) :
    (t.writeReg s.cfg.offIntrClear s.cfg.ackValue).irqPending = false ∧
      (t.writeReg s.cfg.offIntrClear s.cfg.ackValue).regIntrClear = s.cfg.ackValue := by
  simp [State.writeReg, hc]

/-- A write to another register than the enable register leaves what that one holds (R56). -/
theorem writeReg_keepsEnable {off : Nat} {v : Word} (h : s.cfg.offEnable ≠ off) :
    (s.writeReg off v).coprocEnabled = s.coprocEnabled ∧ (s.writeReg off v).regEnable = s.regEnable := by
  simp [State.writeReg, h.symm]

/-- Steps 2 and 3 of INTERRUPT, from s to t (R170): the sink is invoked if the callback cb is one, and the acknowledge is
written. -/
structure NotifiesAcknowledges (cb arg : Word) (s t : State) : Prop where
  dev : t.dev = s.dev
  fault : t.fault = s.fault
  events : t.events = .regWrite s.cfg.offIntrClear s.cfg.ackValue ::
    ((if cb = 0 then [] else [.callback cb arg]) ++ s.events)
  host : t.host = if cb = 0 then s.host else s.host.writes (s.inp.sink.headD [])
  acknowledged : t.irqPending = false ∧ t.regIntrClear = s.cfg.ackValue
  enable : s.cfg.offEnable ≠ s.cfg.offIntrClear → t.coprocEnabled = s.coprocEnabled ∧ t.regEnable = s.regEnable

/-- Step 2 of INTERRUPT writes no field of the block: the environment moves, the host's writes land, and the history gains
the invocation (R170, R174). -/
theorem notifySink_form (hcb : s.dev.callback = some cb) (harg : s.dev.callbackArg = some arg) :
    ∃ sh irq moved inp position, notifySink s = .ok ()
      { s with
        sh := sh, irqPending := irq, moved := moved, inp := inp, position := position
        host := if cb = 0 then s.host else s.host.writes (s.inp.sink.headD [])
        events := (if cb = 0 then [] else [.callback cb arg]) ++ s.events } := by
  rw [notifySink_ok hcb harg]
  by_cases h : cb = 0
  · simp only [if_pos h]
    exact ⟨_, _, _, _, _, rfl⟩
  · obtain ⟨sh, irq, moved, moves, htick⟩ := envTick_form s
    simp only [if_neg h, callSink_eq, htick]
    exact ⟨_, _, _, _, _, rfl⟩

theorem notifiesAcknowledges (hv : s.cfg.Valid) (hcb : s.dev.callback = some cb) (harg : s.dev.callbackArg = some arg) :
    ∃ u t, notifySink s = .ok () u ∧ acknowledge u = .ok () t ∧ NotifiesAcknowledges cb arg s t := by
  obtain ⟨sh, irq, moved, inp, position, hnotify⟩ := notifySink_form hcb harg
  refine ⟨_, _, hnotify, acknowledge_ok hv, ?_⟩
  exact
    { dev := by simp
      fault := by simp
      events := by simp
      host := by simp
      acknowledged := writeReg_acknowledges (by simp)
      enable := fun h => by simp [writeReg_keepsEnable, h] }

/-- An INTERRUPT whose fields are set and whose addresses fit goes on to its end (R170): the refill is done in u, and what
follows it invokes the sink and acknowledges. -/
theorem interruptBody_ok {p : Precision} {c : Channels} {b o q bs be : Word} (hv : s.cfg.Valid)
    (hreads : RefillReads s.dev p c b o q bs be) (hfits : RefillFits s.cfg p c b.toNat o.toNat q.toNat)
    (hcb : s.dev.callback = some cb) (harg : s.dev.callbackArg = some arg) :
    ∃ u t, interruptBody s = .ok ⟨.handled, []⟩ t ∧ Bus (refillSpan s.cfg p c b.toNat o.toNat) s u ∧
      u.fault = s.fault ∧ NotifiesAcknowledges cb arg (u.setDev (s.dev.refilled c b o q bs be)) t ∧ LeavesSh u t := by
  obtain ⟨u, hrefill, -, hb, hf, -⟩ := refill_ok hreads hfits
  obtain ⟨v, t, hnotify, hack, ht⟩ :=
    notifiesAcknowledges (s := u.setDev (s.dev.refilled c b o q bs be)) (hb.keeps.cfg.symm ▸ hv) hcb harg
  have hbody : interruptBody s = .ok ⟨.handled, []⟩ t := by
    rw [interruptBody, hrefill, Exit.bind_ok, hnotify, Exit.bind_ok, hack, finish_ok]
  have hset : LeavesSh u (u.setDev (s.dev.refilled c b o q bs be)) := .of_eq List.suffix_rfl rfl rfl
  exact ⟨u, t, hbody, hb, hf, ht, (hset.trans (notifySink_leavesSh hnotify)).trans (acknowledge_leavesSh hack)⟩

/-- An operation that ends with the pending bit clear before its last moves: only a signal among those sets it (R37). -/
theorem endOp_irq {i : Instr} {r : Result} (h : s.irqPending = false) :
    ((s.envTick.endOp i r).irqPending = true →
      ((s.envTick.endOp i r).events.length - 1, EnvMove.raiseIrq) ∈ (s.envTick.endOp i r).moved) ∧
    (NoIrqMoves s → (s.envTick.endOp i r).irqPending = false) := by
  refine ⟨fun ht => ?_, fun hn => ?_⟩
  · simpa using envTick_irq h ht
  · exact ((Bus.envTick (W := fun _ => False) s).keeps.irq_quiet hn).trans h

/-- Settles O52: the refill is bus work, what follows it is the invocation and the acknowledge, and the acknowledge leaves
the pending bit clear. -/
theorem interruptRefillsNotifiesAcknowledges : Obligations.InterruptRefillsNotifiesAcknowledges := by
  intro s p c b o q bs be cb arg hv hs hreads hfits hcb harg
  obtain ⟨u, w, hbody, hb, hf, hw, hleaves⟩ :=
    interruptBody_ok (s := s.beginOp .intr .interrupt) hv hreads hfits hcb harg
  obtain ⟨es, hes, hbus, -⟩ := hb.events
  obtain ⟨hlate, hquiet⟩ := endOp_irq (i := .interrupt) (r := ⟨.handled, []⟩) hw.acknowledged.1
  have he : exec .interrupt s = .next (w.envTick.endOp .interrupt ⟨.handled, []⟩) :=
    congrArg (Host.Outcome.next ∘ closeOp .interrupt) hbody
  have hucfg : u.cfg = s.cfg := hb.keeps.cfg
  obtain ⟨hlife, hcfg, -⟩ := onlyInitChangesTheLifecycle .interrupt s _ he
  obtain ⟨hinit, hdead⟩ := hlife nofun
  have hmoves : w.inp.moves <:+ s.inp.moves := hleaves.moves.trans hb.moves
  have hend := hleaves.trans (.endOp w .interrupt ⟨.handled, []⟩)
  have hsh : KeepsSh (refillSpan s.cfg p c b.toNat o.toNat) s (w.envTick.endOp .interrupt ⟨.handled, []⟩) :=
    fun a ha hq => (hend.sh (hb.sh_wf hs) a id fun h => hq (h.of_suffix hb.moves)).trans (hb.sh hs a ha hq)
  obtain ⟨_, hhost⟩ := exec_hostAccounted he
  refine ⟨_, es, he, ⟨rfl, ?fault, rfl⟩, ?events, hbus, hlate, fun hn => hquiet fun h => hn (.of_suffix hmoves h), ?dev,
    hcfg, hinit, hdead, ?clear, ?enable, hsh, ?host, hhost.keepsHost⟩
  case fault => exact (envTick_fault w).trans (hw.fault.trans hf)
  case events =>
    rw [State.endOp_events, envTick_events, hw.events, State.setDev_cfg, hucfg, State.setDev_events, hes]
    rfl
  case dev => exact (envTick_dev w).trans hw.dev
  case clear => rw [State.endOp_regIntrClear, envTick_regIntrClear, hw.acknowledged.2, State.setDev_cfg, hucfg]
  case enable =>
    intro hne
    obtain ⟨hcoproc, hreg⟩ := hw.enable (by rwa [State.setDev_cfg, hucfg])
    exact ⟨(envTick_coprocEnabled w).trans (hcoproc.trans hb.keeps.coprocEnabled),
      (envTick_regEnable w).trans (hreg.trans hb.keeps.regEnable)⟩
  case host =>
    rw [State.endOp_host, envTick_host, hw.host, State.setDev_host, hb.host, State.setDev_inp, hb.keeps.sink]
    rfl

/-! ### An INTERRUPT that faults (R170, R200, R209) -/

/-- A piece of an operation that, if it raises a fault, has done bus work alone until then. -/
def Exit.RaisesOnBus {α : Type} (s : State) (x : Exit α) : Prop := ∀ t, x = .raised t → Bus (fun _ => True) s t

theorem Exit.OnBus.raisesOnBus {α : Type} {W : Nat → Prop} {x : Exit α} (h : x.OnBus W s) : x.RaisesOnBus s := by
  rintro t rfl
  exact h.1.mono fun _ _ => trivial

/-- A field that is UNSET raises a fault at once. -/
theorem Exit.RaisesOnBus.read {α β : Type} {n : Field} {v : Option α} {k : α → State → Exit β}
    (hk : ∀ a, (k a s).RaisesOnBus s) : ((readField n v s).bind k).RaisesOnBus s := by
  cases v with
  | none => exact (raise_onBus (W := fun _ => True) _).raisesOnBus
  | some a => exact hk a

/-- A refill writes the Device State last, so one that raises a fault has not (R144, R200). -/
theorem refill_raisesOnBus (s : State) : (refill s).RaisesOnBus s := by
  refine .read fun p => .read fun c => .read fun b => .read fun o => .read fun q => .read fun bs => .read fun be => ?_
  intro t h
  obtain h | ⟨_, _, -, h⟩ := Exit.bind_eq_raised.mp h
  · exact (refillCopy_onBus p c b.toNat o.toNat q.toNat s).raisesOnBus t h
  · cases h

/-- With a callback, and an argument where it is not NULL, step 2 of INTERRUPT goes on (R170). -/
theorem notifySink_goes_on (hcb : s.dev.callback ≠ none)
    (harg : ∀ cb, s.dev.callback = some cb → cb ≠ 0 → s.dev.callbackArg ≠ none) :
    ∃ t, notifySink s = .ok () t ∧ t.cfg = s.cfg := by
  obtain ⟨cb, hcb⟩ := Option.ne_none_iff_exists'.mp hcb
  by_cases h : cb = 0
  · subst h
    exact ⟨s, notifySink_idle hcb, rfl⟩
  · obtain ⟨arg, harg⟩ := Option.ne_none_iff_exists'.mp (harg cb hcb h)
    obtain ⟨_, _, _, _, _, hnotify⟩ := notifySink_form hcb harg
    exact ⟨_, hnotify, rfl⟩

/-- Where the callback and its argument are set, an INTERRUPT that raises a fault raised it in its refill (R170). -/
theorem interruptBody_raised (hv : s.cfg.Valid) (hcb : s.dev.callback ≠ none)
    (harg : ∀ cb, s.dev.callback = some cb → cb ≠ 0 → s.dev.callbackArg ≠ none) (h : interruptBody s = .raised t) :
    refill s = .raised t := by
  obtain h | ⟨_, u, hrefill, h⟩ := Exit.bind_eq_raised.mp h
  · exact h
  · obtain ⟨p, c, b, o, q, bs, be, u, hreads, -, -, -⟩ := refill_eq_ok hrefill
    obtain ⟨u, -, rfl, hb, -⟩ := refill_bus hreads hrefill
    obtain ⟨v, hnotify, hcfg⟩ := notifySink_goes_on (s := u.setDev (s.dev.refilled c b o q bs be)) hcb harg
    have hvv : v.cfg.Valid := hcfg.symm ▸ hb.keeps.cfg.symm ▸ hv
    rw [hnotify, Exit.bind_ok, acknowledge_ok hvv, finish_ok] at h
    cases h

/-- Settles O53: the invariant sets the callback and its argument, so the refill raised the fault, and until then it did
bus work alone. -/
theorem faultedInterruptStaysPending : Obligations.FaultedInterruptStaysPending := by
  intro s t f hinv hv hinit hf hirq he htf
  obtain ⟨-, -, -, hcb⟩ := hinv.up hinit
  have harg (cb : Word) (h : s.dev.callback = some cb) (hne : cb ≠ 0) : s.dev.callbackArg ≠ none :=
    have ⟨_, _, ha⟩ := hinv.device.playing cb h hne
    ha
  obtain ⟨r, u, hbody, rfl⟩ | hbody := exec_cases he
  · obtain ⟨-, hu, -⟩ := interruptBody_eq_ok hbody
    exact absurd ((htf.symm.trans (envTick_fault u)).trans (hu.trans hf)) nofun
  · have hb := refill_raisesOnBus _ t (interruptBody_raised (s := s.beginOp .intr .interrupt) hv hcb harg hbody)
    obtain ⟨es, hes, hbus, -⟩ := hb.events
    exact ⟨hb.keeps.irq hirq, hb.active, hb.keeps.dev, es, hes, hbus⟩

end Sys2Proof.Machine

/-! The family 45_host_interface: the host-interface queries answer at once, but for a ROUND_BUFFERSIZE before a format is
set (R180 to R185). -/

namespace Sys2Proof.Machine

variable {s : State}

/-- Settles O54: the body of each of the four queries is its answer. -/
theorem hostQueries : Obligations.HostQueries := by
  intro s i d req hi
  refine exec_of_answer ?_
  obtain ⟨rfl, rfl⟩ | ⟨rfl, rfl⟩ | ⟨rfl, rfl⟩ | ⟨rfl, rfl⟩ := hi
  · rfl
  · rfl
  · rfl
  · rfl

/-- Settles O55: the channel count is the one field ROUND_BUFFERSIZE reads, and it answers at once where that is set. -/
theorem roundBuffersize_holds : Obligations.RoundBuffersize := by
  intro s req
  refine ⟨fun c d hc hd => exec_of_answer ?_, fun hc => exec_of_raise ?_⟩
  · exact hd ▸ readField_bind hc
  · exact readField_none_bind hc

theorem mixerDevinfo_invalid {x : Word} (h0 : x ≠ 0) (h1 : x ≠ 1) (h2 : x ≠ 2) :
    mixerDevinfo x s = .ok resultInvalid s := by
  rw [mixerDevinfo, mixerIndexOf, if_neg h0, if_neg h1, if_neg h2]

/-- Settles O56: the two controls and the class have their own data, and any other index is answered at once. -/
theorem mixerDevinfo_holds : Obligations.MixerDevinfo := by
  intro s i a hi
  refine exec_of_answer ?_
  obtain ⟨rfl, rfl⟩ | ⟨rfl, rfl⟩ | ⟨rfl, rfl⟩ | ⟨x, h0, h1, h2, rfl, rfl⟩ := hi
  · rfl
  · rfl
  · rfl
  · exact mixerDevinfo_invalid h0 h1 h2

end Sys2Proof.Machine

/-! The family 60_exceptions: a step runs the operation that admission lets through, faults where INIT is missing, and is
the environment's alone while an operation is in progress (R200, R202, R209, R231). -/

namespace Sys2Proof.Machine

variable {s t : State} {r : Record} {i : Instr} {ws : List Word} {ts : List Agent} {records : List Record}

/-! ### Admission (R202 step 4) -/

theorem isUp_eq_true_iff : isUp s = true ↔ s.initialized = true ∧ s.dead = false := by
  rw [isUp, Bool.and_eq_true, Bool.not_eq_true']

theorem not_isUp_iff : ¬ isUp s = true ↔ s.initialized = false ∨ s.dead = true := by
  rw [isUp_eq_true_iff, not_and_or, Bool.not_eq_true, Bool.not_eq_false]

theorem isUp_presented : isUp (presented s ts records) = isUp s := by
  simp [isUp, presented]

theorem admission_of_init (hd : decode r.words = .ok (.init, ws)) : admission r s = .ok .init s := by
  simp only [admission, hd]

/-- Any operation of the control path but INIT is admitted exactly by a block that is up. -/
theorem admission_of_operation (hd : decode r.words = .ok (i, ws)) (hintr : i ≠ .interrupt) (hinit : i ≠ .init) :
    admission r s = if isUp s then .ok i s else raise (.notInit i.tag) s := by
  unfold admission
  split
  next he => cases he.symm.trans hd
  next he => cases he.symm.trans hd; exact absurd rfl hintr
  next he => cases he.symm.trans hd; exact absurd rfl hinit
  next he => cases he.symm.trans hd; rfl

/-! ### The step at the control path's turn -/

theorem controlTurn_of_ok (hp : s.inp.port = r :: records)
    (h : admission r (s.setInp { s.inp with port := records }) = .ok i t) : controlTurn s = (some i, t) := by
  simp only [controlTurn, hp, h]

/-- A step at the control path's turn, if admission lets an operation through, runs it. -/
theorem step_of_admission_ok (hf : s.fault = none) (ha : s.active = none) (ht : s.inp.turns = .control :: ts)
    (hp : s.inp.port = r :: records) (h : admission r (presented s ts records) = .ok i t) : step s = exec i t := by
  have hb : boundary s = (some i, t) := by
    rw [boundary_control ha ht]
    exact controlTurn_of_ok ((envTick_port s).trans hp) h
  simp only [step, haltedFault, hf, hb]

/-- Settles O9: admission lets INIT through always, and any other operation because the block is up. -/
theorem stepRunsTheDecodedOperation : Obligations.StepRunsTheDecodedOperation := by
  intro s r ts rest i ws hf ha ht hp hd hintr hadm
  refine step_of_admission_ok hf ha ht hp ?_
  by_cases hinit : i = .init
  · subst hinit
    exact admission_of_init hd
  · have hup : isUp (presented s ts rest) = true :=
      isUp_presented.trans (isUp_eq_true_iff.mpr (hadm.resolve_left hinit))
    rw [admission_of_operation hd hintr hinit, if_pos hup]

/-- Settles O10: the block is not up, and the boundary does not change that, so admission raises the fault. -/
theorem operationsNeedInit : Obligations.OperationsNeedInit := by
  intro s r ts rest i ws hf ha ht hp hd hintr hinit hdown
  refine step_of_admission_raised hf ha ht hp ?_
  have hup : ¬ isUp (presented s ts rest) = true := isUp_presented (s := s) ▸ not_isUp_iff.mpr hdown
  rw [admission_of_operation hd hintr hinit, if_neg hup]
  rfl

/-! ### A block that is locked or halted (R202 steps 1 and 2) -/

/-- A tick of the environment is bus work that stores nothing, and leaves what an operation on the bus might write. -/
theorem onlyEnvMoved_envTick (s : State) : OnlyEnvMoved s s.envTick :=
  have hbus : Bus (fun _ => False) s s.envTick := .envTick s
  { keeps := hbus.keeps
    fault := envTick_fault s
    active := envTick_active s
    position := envTick_position s
    gateOk := envTick_gateOk s
    result := envTick_result s
    events := envTick_events s
    sh := hbus.sh
    host := envTick_host s }

/-- While an operation is in progress no record is presented and INTERRUPT does not begin. -/
theorem boundary_of_active {c : Context} (ha : s.active = some (c, i)) : boundary s = (none, s.envTick) := by
  simp only [boundary, envTick_active, ha]

/-- Settles O12: under the lock the boundary is a tick of the environment, and no operation begins after it. -/
theorem lockedBlockHolds : Obligations.LockedBlockHolds :=
  fun s => ⟨onlyEnvMoved_envTick s, fun c i hf ha => by
    simp only [step, haltedFault, hf, boundary_of_active ha]⟩

/-- Settles O13: a step looks for a fault before anything else. -/
theorem haltedBlockTakesNoStep : Obligations.HaltedBlockTakesNoStep := by
  intro s f hf
  simp only [step, haltedFault, hf]

end Sys2Proof.Machine

/-! The family 70_reset_and_hazards: the reset values, the three ways an INIT ends, what a completed INIT leaves, and the
two hazards, unguarded bursts and reads of the half being refilled (R230 to R245). -/

namespace Sys2Proof.Machine

variable {W : Nat → Prop} {s t u v : State} {i : Instr} {r : Result} {j : Inputs} {a : Nat}

/-! ### Every burst is guarded (R102, R103, R241) -/

/-- An update that adds no event. -/
theorem KeepsGuard.of_silent (hc : t.cfg = s.cfg) (he : t.events = s.events) : KeepsGuard s t :=
  ⟨hc, fun _ _ _ h => he ▸ h⟩

/-- An update that adds one event, which is no shared-memory word. -/
theorem KeepsGuard.of_event {e : Event} (hc : t.cfg = s.cfg) (he : t.events = e :: s.events)
    (hne : ∀ off v x, e ≠ .shWrite off v x) : KeepsGuard s t :=
  ⟨hc, fun _ _ _ h => he ▸ h.cons fun off v x heq => absurd heq (hne off v x)⟩

/-- No operation writes a shared-memory word beside the shared operations. -/
theorem keepsGuard_ownUpdates (i : Instr) : OwnUpdates KeepsGuard i :=
  .of_forms (fun _ _ => .of_silent rfl rfl) (fun _ _ _ _ => .of_event rfl rfl nofun)
    (fun _ _ _ => .of_event rfl rfl nofun) fun _ => ⟨fun _ => .of_silent rfl rfl, fun _ => .of_silent rfl rfl⟩

/-- An operation keeps guarded bursts from before its E_BEGIN to after its E_END or its E_FAULT. -/
theorem exec_keepsGuard (he : exec i s = .next t) : KeepsGuard s t := by
  have hbegin : KeepsGuard s (s.beginOp (contextOf i) i) := .of_event rfl rfl nofun
  obtain ⟨u, hu, ⟨r, rfl, -⟩ | ⟨rfl, -⟩⟩ := exec_rel keepsGuard_closed (keepsGuard_ownUpdates i) he
  · have hend : KeepsGuard u (u.endOp i r) := .of_event rfl rfl nofun
    exact keepsGuard_closed.trans hbegin rfl ⟨hend.1.trans hu.1, fun h1 h2 h3 h => (hu.2 h1 h2 h3 h).cons nofun⟩
  · exact keepsGuard_closed.trans hbegin rfl hu

/-- Neither the boundary nor the operation after it writes a word that no wait guards. -/
theorem step_keepsGuard (h : step s = .next t) : KeepsGuard s t := by
  have hturn (j : Inputs) : KeepsGuard s (s.envTick.setInp j) := .of_silent (by simp) (by simp)
  obtain ⟨-, j, -, ⟨i, he, -⟩ | rfl | ⟨f, rfl⟩⟩ := step_cases h
  · exact keepsGuard_closed.trans (hturn j) (by simp) (exec_keepsGuard he)
  · exact hturn j
  · exact .of_event (e := .fault f) (by simp) (by simp) nofun

/-- Settles O21: at reset there is no word, and R8 bounds the burst of every writer by the depth. -/
theorem everyBurstIsGuarded : Obligations.EveryBurstIsGuarded := by
  refine ⟨fun newer _ _ _ _ h => ?reset, fun s t hv hg hstep => ?step⟩
  case reset => exact absurd h.symm (List.append_ne_nil_of_right_ne_nil newer nofun)
  case step =>
    obtain ⟨hcfg, hkeeps⟩ := step_keepsGuard hstep
    exact hcfg ▸ hkeeps hv.depth_eight hv.burst_pos hv.depth_burst hg

/-! ### The half being refilled (R245) -/

/-- A refill's own update adds no event: its history is its copies'. -/
theorem refill_state_events {p : Precision} {c : Channels} {b o q bs be : Word} (h : RefillReads s.dev p c b o q bs be) :
    (refill s).state.events = (refillCopy p c b.toNat o.toNat q.toNat s).state.events := by
  rw [refill_eq h]
  cases refillCopy p c b.toNat o.toNat q.toNat s <;> rfl

/-- Where both halves fit the channel region, either half lies inside it. -/
theorem halfSpan_inside_region {cfg : Params} {c : Channels} {b : Word} {o : Nat} (hfits : 2 * halfSize b c ≤ cfg.regionSize)
    (ho : o = 0 ∨ o = halfSize b c) (ha : halfSpan cfg c b o a) :
    span cfg.leftBase cfg.regionSize a ∨ (c = .stereo ∧ span cfg.rightBase cfg.regionSize a) := by
  have hin : o + halfSize b c ≤ cfg.regionSize := by omega
  exact ha.imp (span_right hin) (And.imp_right (span_right hin))

/-- A word that a refill of whole words writes is a word of the half at its offset. -/
theorem refill_writes_half {p : Precision} {c : Channels} {b o q bs be : Word} {es : List Event} {w : Nat} {x : Word}
    {g : Bool} (hreads : RefillReads s.dev p c b o q bs be) (hsize : b.toNat % (4 * c.toNat) = 0)
    (hes : (refill s).state.events = es ++ s.events) (hw : .shWrite w x g ∈ es) (ha : span w 4 a) :
    halfSpan s.cfg c b o.toNat a := by
  obtain ⟨es', hes', -, hin⟩ := (refillCopy_onBus p c b.toNat o.toNat q.toNat s).state.events
  rw [← refill_state_events hreads, hes] at hes'
  obtain rfl := List.append_cancel_right hes'
  have hspan := hin w x g hw a ha
  rwa [refillSpan, refillBytes_eq hsize] at hspan

/-- Two words without a common byte lie apart. -/
theorem words_apart {m n : Nat} (h : ∀ a, span m 4 a → ¬ span n 4 a) : m + 4 ≤ n ∨ n + 4 ≤ m := by
  by_contra hc
  exact h (max m n) ⟨by omega, by omega⟩ ⟨by omega, by omega⟩

/-- Settles O45: a refill writes only words of its half, and the premise keeps the coprocessor's reads off that half. -/
theorem noWordOfTheHalfBeingRefilledIsRead : Obligations.NoWordOfTheHalfBeingRefilledIsRead := by
  intro r s p c b o q bs be hreads hsize
  refine ⟨fun hfits ho a => ?_, fun hpremise es off w x g hes hw hsignal => ?_⟩
  · exact halfSpan_inside_region (hfits b c hreads.blockSize hreads.channels) ho
  · have hread := hpremise c b o off hreads.channels hreads.blockSize hreads.nextFillOffset hsignal
    exact words_apart fun a ha haw => hread a ha (refill_writes_half hreads hsize hes hw haw)

/-! ### Reset (R44, R230) -/

/-- Settles O6: the reset state is given by these values, whatever the parameters are. -/
theorem resetState : Obligations.ResetState := ⟨rfl, rfl, rfl, rfl, rfl, rfl, rfl, rfl⟩

/-! ### The three ways an INIT goes (R232, R233) -/

theorem init_check_passes (hi : s.initialized = false) (hd : s.dead = false) : (!s.initialized && !s.dead) = true := by
  rw [hi, hd]
  rfl

theorem initBody_again (h : s.initialized = true ∨ s.dead = true) : initBody s = raise .reinit s := by
  refine require_false_bind ?_
  obtain h | h := h
  · rw [h]; rfl
  · rw [h, Bool.not_true, Bool.and_false]

theorem initBody_unmapped (hi : s.initialized = false) (hd : s.dead = false) (hj : s.inp.drawBool = (false, j)) :
    initBody s = .ok ⟨.failed, []⟩ (s.setInp j).becomeDead := by
  rw [initBody, require_bind (init_check_passes hi hd), hj]

theorem initBody_mapped (hi : s.initialized = false) (hd : s.dead = false) (hj : s.inp.drawBool = (true, j)) :
    initBody s = (loadCoprocessor (s.setInp j)).bind fun _ u => finish resultOk (sendDefaults u.becomeUp) := by
  rw [initBody, require_bind (init_check_passes hi hd), hj]

/-- An INIT that ends OK was the first one, and its mapping succeeded. -/
theorem initBody_eq_ok (h : initBody s = .ok resultOk t) :
    s.initialized = false ∧ s.dead = false ∧ ∃ j, s.inp.drawBool = (true, j) := by
  by_cases hrun : s.initialized = true ∨ s.dead = true
  · rw [initBody_again hrun] at h
    cases h
  · obtain ⟨hi, hd⟩ := not_or.mp hrun
    rw [Bool.not_eq_true] at hi hd
    cases hj : s.inp.drawBool with
    | mk mapOk j =>
      cases mapOk with
      | false => rw [initBody_unmapped hi hd hj] at h; cases h
      | true => exact ⟨hi, hd, j, rfl⟩

/-- Settles O57: the draw decides before any access. -/
theorem failedMappingKillsTheBlock : Obligations.FailedMappingKillsTheBlock := by
  intro s j hi hd hj
  rw [exec_eq, runOp_eq, bodyOf, initBody_unmapped (s := s.beginOp _ _) hi hd hj]
  rfl

/-- Settles O58: the lifecycle is the first thing INIT checks. -/
theorem initRunsOnce : Obligations.InitRunsOnce :=
  fun s h => exec_of_raise (initBody_again (s := s.beginOp _ _) h)

/-! ### What INIT leaves alone (R233) -/

/-- What INIT leaves alone from s to t, its own updates of the Device State and the lifecycle aside: where the two
registers lie apart, the status-clear register and the pending bit too are as bus work leaves them. -/
structure KeepsButEnable (s t : State) : Prop where
  cfg : t.cfg = s.cfg
  dead : t.dead = s.dead
  fault : t.fault = s.fault
  host : t.host = s.host
  moves : t.inp.moves <:+ s.inp.moves
  sh_wf : s.sh.wf = true → t.sh.wf = true
  apart : s.cfg.offEnable ≠ s.cfg.offIntrClear → t.regIntrClear = s.regIntrClear ∧
    (s.irqPending = true → t.irqPending = true) ∧ (NoIrqMoves s → t.irqPending = s.irqPending)

theorem KeepsButEnable.trans (h : KeepsButEnable s t) (h' : KeepsButEnable t u) : KeepsButEnable s u where
  cfg := h'.cfg.trans h.cfg
  dead := h'.dead.trans h.dead
  fault := h'.fault.trans h.fault
  host := h'.host.trans h.host
  moves := h'.moves.trans h.moves
  sh_wf hs := h'.sh_wf (h.sh_wf hs)
  apart hne := by
    obtain ⟨hclear, hirq, hquiet⟩ := h.apart hne
    obtain ⟨hclear', hirq', hquiet'⟩ := h'.apart (h.cfg.symm ▸ hne)
    exact ⟨hclear'.trans hclear, fun hp => hirq' (hirq hp),
      fun hn => (hquiet' fun hm => hn (.of_suffix h.moves hm)).trans (hquiet hn)⟩

theorem KeepsButEnable.of_bus (h : Bus W s t) (hf : t.fault = s.fault) : KeepsButEnable s t :=
  ⟨h.keeps.cfg, h.keeps.dead, hf, h.host, h.moves, h.sh_wf,
    fun _ => ⟨h.keeps.regIntrClear, h.keeps.irq, h.keeps.irq_quiet⟩⟩

theorem KeepsButEnable.beginOp (s : State) (c : Context) (i : Instr) : KeepsButEnable s (s.beginOp c i) :=
  ⟨rfl, rfl, rfl, rfl, List.suffix_rfl, id, fun _ => ⟨rfl, id, fun _ => rfl⟩⟩

theorem KeepsButEnable.becomeUp (s : State) : KeepsButEnable s s.becomeUp :=
  ⟨rfl, rfl, rfl, rfl, List.suffix_rfl, id, fun _ => ⟨rfl, id, fun _ => rfl⟩⟩

theorem KeepsButEnable.endOp (s : State) (i : Instr) (r : Result) : KeepsButEnable s (s.envTick.endOp i r) :=
  (KeepsButEnable.of_bus (.envTick (W := fun _ => False) s) (envTick_fault s)).trans
    ⟨rfl, rfl, rfl, rfl, List.suffix_rfl, id, fun _ => ⟨rfl, id, fun _ => rfl⟩⟩

/-! ### The writes to the enable register (R56, R234) -/

/-- A write to the enable register, with the environment's moves before it. -/
def writeEnable (x : Word) (s : State) : State :=
  (s.envTick.emit (.regWrite s.cfg.offEnable x)).writeReg s.cfg.offEnable x

theorem memWriteReg_enable (hv : s.cfg.Valid) (x : Word) :
    memWriteReg s.cfg.offEnable x s = .ok () (writeEnable x s) := memWriteReg_ok (enable_inside hv)

theorem writeEnable_events (x : Word) (s : State) :
    (writeEnable x s).events = .regWrite s.cfg.offEnable x :: s.events := by
  simp [writeEnable]

theorem writeEnable_irqPending (x : Word) (hne : s.cfg.offEnable ≠ s.cfg.offIntrClear) :
    (writeEnable x s).irqPending = s.envTick.irqPending := by
  simp [writeEnable, writeReg_irqPending_eq, hne]

theorem writeEnable_regIntrClear (x : Word) (hne : s.cfg.offEnable ≠ s.cfg.offIntrClear) :
    (writeEnable x s).regIntrClear = s.regIntrClear := by
  simp [writeEnable, State.writeReg, hne]

theorem writeEnable_enables (hne : s.cfg.enableValue ≠ s.cfg.disableValue) :
    (writeEnable s.cfg.enableValue s).coprocEnabled = some true := by
  simp [writeEnable, writeReg_coprocEnabled, hne]

theorem writeEnable_regEnable (x : Word) (s : State) : (writeEnable x s).regEnable = x := by
  simp [writeEnable, State.writeReg]

theorem writeEnable_dev (x : Word) (s : State) : (writeEnable x s).dev = s.dev := by
  simp [writeEnable]

theorem writeEnable_active (x : Word) (s : State) : (writeEnable x s).active = s.active := by
  simp [writeEnable]

theorem writeEnable_keepsButEnable (x : Word) (s : State) : KeepsButEnable s (writeEnable x s) := by
  obtain ⟨hcfg, hdead, hf, hhost, hmoves, hwf, hapart⟩ :=
    KeepsButEnable.of_bus (.envTick (W := fun _ => False) s) (envTick_fault s)
  refine ⟨hcfg, hdead, hf, hhost, hmoves, hwf, fun hne => ⟨writeEnable_regIntrClear x hne, ?_⟩⟩
  rw [writeEnable_irqPending x hne]
  exact (hapart hne).2

theorem writeEnable_leavesSh (x : Word) (s : State) : LeavesSh s (writeEnable x s) :=
  (LeavesSh.envTick s).trans (.of_eq (List.suffix_cons _ _) rfl rfl)

/-! ### The load (R233, R234) -/

/-- What the load leaves from s to t: the coprocessor enabled, the load in the history between the two register writes,
and the image in memory, where no wait timed out and the coprocessor left it alone. -/
structure Loads (s t : State) : Prop where
  keeps : KeepsButEnable s t
  dev : t.dev = s.dev
  active : t.active = s.active
  coprocEnabled : t.coprocEnabled = some true
  regEnable : t.regEnable = s.cfg.enableValue
  events : ∃ load, t.events = .regWrite s.cfg.offEnable s.cfg.enableValue ::
    (load ++ .regWrite s.cfg.offEnable s.cfg.disableValue :: s.events) ∧ ∀ e ∈ load, e.onBus = true
  image : NoTimeout t → s.sh.wf = true → ∀ a, ¬ s.inp.Moves (EnvMove.WritesSh a) →
    (∀ h : a < s.cfg.fwImage.length, t.sh.get a = s.cfg.fwImage[a]) ∧
      (fillStart s.cfg ≤ a → a < s.cfg.shmemSize → t.sh.get a = 0)

theorem loadCoprocessor_loads (hv : s.cfg.Valid) : ∃ t, loadCoprocessor s = .ok () t ∧ Loads s t := by
  have hoff := writeEnable_keepsButEnable s.cfg.disableValue s
  obtain ⟨u, hu, hb, hf, -, himage⟩ := loadImage_ok (s := writeEnable s.cfg.disableValue s) (hoff.cfg.symm ▸ hv)
  have hcfg : u.cfg = s.cfg := hb.keeps.cfg.trans hoff.cfg
  have hon := writeEnable_leavesSh u.cfg.enableValue u
  have hmoves : u.inp.moves <:+ s.inp.moves := hb.moves.trans hoff.moves
  refine ⟨writeEnable u.cfg.enableValue u, ?load, ?keeps, ?dev, ?active, ?coprocEnabled, ?regEnable, ?events, ?image⟩
  case load =>
    rw [loadCoprocessor_eq, memWriteReg_enable hv, Exit.bind_ok, hu, Exit.bind_ok, memWriteReg_enable (hcfg.symm ▸ hv)]
  case keeps => exact (hoff.trans (.of_bus hb hf)).trans (writeEnable_keepsButEnable _ u)
  case dev => exact (writeEnable_dev _ u).trans (hb.keeps.dev.trans (writeEnable_dev _ s))
  case active => exact (writeEnable_active _ u).trans (hb.active.trans (writeEnable_active _ s))
  case coprocEnabled => exact writeEnable_enables (hcfg.symm ▸ hv.enable_distinct)
  case regEnable => rw [writeEnable_regEnable, hcfg]
  case events =>
    obtain ⟨load, hload, hbus, -⟩ := hb.events
    exact ⟨load, by rw [writeEnable_events, hload, writeEnable_events, hcfg], hbus⟩
  case image =>
    intro hn hs a hq
    have hsame : (writeEnable u.cfg.enableValue u).sh.get a = u.sh.get a :=
      hon.sh (hb.sh_wf (hoff.sh_wf hs)) a id fun hm => hq (.of_suffix hmoves hm)
    have himage := himage (hon.noTimeout hn) (hoff.sh_wf hs) a fun hm => hq (.of_suffix hoff.moves hm)
    rw [hsame]
    exact hoff.cfg ▸ himage

/-! ### An INIT whose mapping succeeds (R233) -/

theorem sameScript_of_drawBool {i : Inputs} {mapOk : Bool} (h : i.drawBool = (mapOk, j)) : SameScript i j := by
  simpa [h] using drawBool_sameScript i

/-- The state in which INIT has begun and drawn that the mapping succeeds. -/
def mapped (j : Inputs) (s : State) : State := (s.beginOp .control .init).setInp j

theorem mapped_keepsButEnable {mapOk : Bool} (h : s.inp.drawBool = (mapOk, j)) : KeepsButEnable s (mapped j s) :=
  (KeepsButEnable.beginOp s _ _).trans
    (.of_bus (.setInp (W := fun _ => False) (s := s.beginOp _ _) (sameScript_of_drawBool h)) rfl)

theorem becomeUp_inInterrupt (h : Loads (mapped j s) u) : inInterrupt u.becomeUp = false := by
  rw [inInterrupt, State.becomeUp_active, h.active]
  rfl

/-- INIT loads the coprocessor, ending in u, then sets its defaults and sends them, ending in v, and ends OK. -/
theorem exec_init_mapped (hv : s.cfg.Valid) (hi : s.initialized = false) (hd : s.dead = false)
    (hj : s.inp.drawBool = (true, j)) : ∃ u v, Loads (mapped j s) u ∧
      sendDefaults u.becomeUp = .ok () v ∧ exec .init s = .next (v.envTick.endOp .init resultOk) := by
  obtain ⟨u, hu, hload⟩ := loadCoprocessor_loads (s := mapped j s) hv
  obtain ⟨v, hsend, -⟩ := sendDefaults_ok (s := u.becomeUp) (hload.keeps.cfg.symm ▸ hv) (becomeUp_inInterrupt hload)
  have hbody : initBody (s.beginOp .control .init) = .ok resultOk v := by
    rw [initBody_mapped (s := s.beginOp .control .init) hi hd hj, ← mapped, hu, Exit.bind_ok, hsend, finish_ok]
  exact ⟨u, v, hload, hsend, congrArg (Host.Outcome.next ∘ closeOp .init) hbody⟩

/-- The volume commands are bus work, and none where they are not configured (R233). -/
theorem sendDefaults_bus (h : sendDefaults s = .ok () t) : Bus (paramSpan s.cfg) s t ∧ t.fault = s.fault ∧
    (s.cfg.initVolumeCommands = false → t = s) := by
  have hbus := sendDefaults_onBus s
  rw [h] at hbus
  obtain ⟨hb, hf, -⟩ := hbus
  refine ⟨hb, hf, fun hc => ?_⟩
  rw [sendDefaults, if_neg (by simp [hc])] at h
  cases h
  rfl

/-- The events the configured volume commands add, and the slots that outlast the operation's last moves. -/
theorem sendDefaults_commands {post : List Event} (hv : s.cfg.Valid) (hctx : inInterrupt s = false) (hs : s.sh.wf = true)
    (h : sendDefaults s = .ok () t) (hc : s.cfg.initVolumeCommands = true) (hpost : t.events = post ++ s.events) :
    ∃ any n1 n2 g1 g2 g3 g4 g5 g6 g7 g8,
      post.filter Event.notPoll = paramEvents s.cfg s.cfg.cmdVol 255 255 n2 g5 g6 g7 g8 ++
        paramEvents s.cfg s.cfg.cmdMvol 255 any n1 g1 g2 g3 g4 ∧
      (NoTimeout (t.envTick.endOp i r) → CoprocNoWrite (paramSpan s.cfg) s → n2 = n1 + 1 ∧
        (t.envTick.endOp i r).sh.getWord s.cfg.offSerial = n1 + 2 ∧
        (t.envTick.endOp i r).sh.getWord s.cfg.offCmd = s.cfg.cmdVol ∧
        (t.envTick.endOp i r).sh.getWord s.cfg.offLparam = 255 ∧
        (t.envTick.endOp i r).sh.getWord s.cfg.offRparam = 255) := by
  obtain ⟨hb, -⟩ := sendDefaults_bus h
  obtain ⟨t', h', -, hcommands⟩ := sendDefaults_ok hv hctx
  obtain rfl : t' = t := by simpa [h] using h'.symm
  obtain ⟨any, n1, n2, g1, g2, g3, g4, g5, g6, g7, g8, hevents, hslots⟩ := hcommands hc
  refine ⟨any, n1, n2, g1, g2, g3, g4, g5, g6, g7, g8, ?_, fun hn hq => ?_⟩
  · rw [hpost, List.filter_append, ← List.append_assoc] at hevents
    exact List.append_cancel_right hevents
  · have hword {off : Nat} (ho : ∀ a, span off 4 a → paramSpan s.cfg a) :
        (t'.envTick.endOp i r).sh.getWord off = t'.sh.getWord off := endOp_sh_getWord hb hs (hq.mono ho)
    obtain ⟨hn2, hserial, hcmd, hleft, hright⟩ := hslots hs hn.of_endOp hq
    exact ⟨hn2, (hword fun _ h => .inr (.inr (.inr h))).trans hserial,
      (hword fun _ h => .inr (.inr (.inl h))).trans hcmd, (hword fun _ => .inl).trans hleft,
      (hword fun _ h => .inr (.inl h)).trans hright⟩

/-- Settles O59: the load is bus work between the two register writes; after them INIT sets its defaults, and then sends
them, which is bus work too. -/
theorem initCompletes : Obligations.InitCompletes := by
  intro s j hv hs hi hd hj
  obtain ⟨u, v, hload, hsend, he⟩ := exec_init_mapped hv hi hd hj
  obtain ⟨hb, hf, hnone⟩ := sendDefaults_bus hsend
  have hu : KeepsButEnable s u.becomeUp := ((mapped_keepsButEnable hj).trans hload.keeps).trans (.becomeUp u)
  have hkeeps := (hu.trans (.of_bus hb hf)).trans (.endOp v .init resultOk)
  have hcfg : u.becomeUp.cfg = s.cfg := hu.cfg
  obtain ⟨load, hload_events, hload_bus⟩ := hload.events
  obtain ⟨post, hpost, hpost_bus, -⟩ := hb.events
  refine ⟨_, post, load, he, ⟨rfl, hkeeps.fault, rfl⟩, ?events, ?bus, ?unconfigured, ?commands, ?initialized,
    hkeeps.dead.trans hd, ?coprocEnabled, ?regEnable, ?dev, hkeeps.cfg, hkeeps.host, hkeeps.apart⟩
  case events =>
    rw [State.endOp_events, envTick_events, hpost, State.becomeUp_events, hload_events]
    rfl
  case bus => exact fun e hm => (List.mem_append.mp hm).elim (hload_bus e) (hpost_bus e)
  case unconfigured =>
    intro hc
    rw [hnone (hcfg.symm ▸ hc)] at hpost
    exact List.self_eq_append_left.mp hpost
  case commands =>
    intro hc
    obtain ⟨any, n1, n2, g1, g2, g3, g4, g5, g6, g7, g8, hevents, hslots⟩ := sendDefaults_commands (i := .init)
      (r := resultOk) (hcfg.symm ▸ hv) (becomeUp_inInterrupt hload) (hu.sh_wf hs) hsend (hcfg.symm ▸ hc) hpost
    rw [hcfg] at hevents hslots
    refine ⟨any, n1, n2, g1, g2, g3, g4, g5, g6, g7, g8, hevents, fun hn hq => hslots hn fun a ha hm => ?_⟩
    exact hq a ha (.of_suffix hu.moves hm)
  case initialized => exact (envTick_initialized v).trans hb.keeps.initialized
  case coprocEnabled => exact (envTick_coprocEnabled v).trans (hb.keeps.coprocEnabled.trans hload.coprocEnabled)
  case regEnable => exact (envTick_regEnable v).trans (hb.keeps.regEnable.trans hload.regEnable)
  case dev =>
    rw [State.endOp_dev, envTick_dev, hb.keeps.dev, State.becomeUp, hload.dev]
    rfl

/-- Settles O60: the load leaves the image, and what follows it writes the slots of the volume commands alone, where they
are configured. -/
theorem initLoadsTheImage : Obligations.InitLoadsTheImage := by
  intro s t a hv hs he hr hn hq hslots
  obtain ⟨w, hbody, -⟩ := exec_of_result he hr
  obtain ⟨hi, hd, j, hj⟩ := initBody_eq_ok hbody
  obtain ⟨u, v, hload, hsend, he'⟩ := exec_init_mapped hv hi hd hj
  obtain rfl := Host.Outcome.next.inj (he'.symm.trans he)
  obtain ⟨hb, -, hnone⟩ := sendDefaults_bus hsend
  have hcfg : u.cfg = s.cfg := hload.keeps.cfg
  have hwf : u.sh.wf = true := hload.keeps.sh_wf hs
  have hquiet : ¬ (mapped j s).inp.Moves (EnvMove.WritesSh a) :=
    fun hm => hq a trivial (.of_suffix (mapped_keepsButEnable hj).moves hm)
  have hquiet_u : ¬ u.inp.Moves (EnvMove.WritesSh a) := fun hm => hquiet (.of_suffix hload.keeps.moves hm)
  have hsent : v.sh.get a = u.sh.get a := by
    cases hc : s.cfg.initVolumeCommands with
    | false => rw [hnone (hcfg.symm ▸ hc), State.becomeUp_sh]
    | true => exact hb.sh hwf a (fun ha => hslots hc (hcfg ▸ ha)) hquiet_u
  rw [endOp_sh_get hb hwf hquiet_u, hsent]
  exact hload.image (hb.noTimeout hn.of_endOp) hs a hquiet

end Sys2Proof.Machine
